-- ==== Sys2Proof/Word.lean ====
section
/-! DEFINITION. The word types of the CORE: one name per width the spec gives, so that every later file
says which thing a bit vector is. All numbers are rule R6, R20, R24, R60, R90 of spec/. -/

namespace Sys2Proof

/-- One byte of the memory (R60). -/
abbrev Byte := BitVec 8

/-- A general register, `XLEN = 64` bits (R6, R20). -/
abbrev XWord := BitVec 64

/-- A 32-bit word: a command word (R90), a control register (R24), a binary32 pattern (R43). -/
abbrev Word := BitVec 32

/-- The number of a general register as a field of the command word holds it: 4 bits name all sixteen
registers, so every value is legal (R91, R94). -/
abbrev Reg := BitVec 4

end Sys2Proof
end

