-- ==== Sys2Proof/Syntax.lean ====
section
/-! DEFINITION. The commands as syntax: one constructor of `Instr` per row of spec/opcode_table.json (R95),
its arguments the fields the row uses, in the order RD, RS1, RS2, RS3, WSEL, IMM6 of R91. -/

namespace Sys2Proof

/-- The storage width a command's `WSEL` field names (R91, R92); the value 3 is reserved and has no
constructor. -/
inductive Width where
  | w8
  | w16
  | w32
deriving DecidableEq, Repr

/-- The sixteen commands (R4, R95). -/
inductive Instr where
  /-- `SAT xd, xs, bits`; the field holds `bits - 1` (R121). -/
  | sat (rd rs1 : Reg) (imm6 : BitVec 6)
  /-- `SADD.W xd, xa, xb` (R122). -/
  | sadd (rd rs1 rs2 : Reg) (w : Width)
  /-- `SSUB.W xd, xa, xb` (R123). -/
  | ssub (rd rs1 rs2 : Reg) (w : Width)
  /-- `SMUL.W xd, xa, xb, F` (R124). -/
  | smul (rd rs1 rs2 : Reg) (w : Width) (imm6 : BitVec 6)
  /-- `SSHL.W xd, xa, xn` (R125). -/
  | sshl (rd rs1 rs2 : Reg) (w : Width)
  /-- `SSHR.W xd, xa, xn` (R126). -/
  | sshr (rd rs1 rs2 : Reg) (w : Width)
  /-- `REQUANT.W xd, xacc, xmult, xshift` (R127). -/
  | requant (rd rs1 rs2 rs3 : Reg) (w : Width)
  /-- `FIRINIT xdesc` (R151). -/
  | firinit (rs1 : Reg)
  /-- `FIRPROC xdesc, xin, xout` (R152). -/
  | firproc (rs1 rs2 rs3 : Reg)
  /-- `CMAG xsrc, xdst, xn` (R171). -/
  | cmag (rs1 rs2 rs3 : Reg)
  /-- `ATAN2 xd, xy, xx` (R180). -/
  | atan2 (rd rs1 rs2 : Reg)
  /-- `DWCONV xdesc` (R205). -/
  | dwconv (rs1 : Reg)
  /-- `MAXPOOL.W xdesc`, `W` 8 or 16 (R212). -/
  | maxpool (rs1 : Reg) (w : Width)
  /-- `RELU.W xptr, xn`, `W` 8 or 16 (R219). -/
  | relu (rs1 rs2 : Reg) (w : Width)
  /-- `UNPACK4 xsrc, xdst, xn` (R223). -/
  | unpack4 (rs1 rs2 rs3 : Reg)
  /-- `PACK4 xsrc, xdst, xn` (R224). -/
  | pack4 (rs1 rs2 rs3 : Reg)
deriving DecidableEq, Repr

end Sys2Proof
end

