-- ==== Sys2Proof/WellFormed.lean ====
section
/-! DEFINITION. Which terms of `Instr` are commands of the hardware. The types of the fields already hold every
condition of R94 but one: `MAXPOOL` and `RELU` work on bytes and halfwords only, so their `WSEL` may not
name 32 bits (R94, R96). -/

namespace Sys2Proof

/-- `WSEL` of a byte or halfword command: 0 or 1, bit 7 of the word clear (R94, R96). -/
def Width.narrow : Width → Bool
  | .w8 => true
  | .w16 => true
  | .w32 => false

/-- A term that some command word stands for (R94, R95). -/
def Instr.wf : Instr → Bool
  | .sat _ _ _ => true
  | .sadd _ _ _ _ => true
  | .ssub _ _ _ _ => true
  | .smul _ _ _ _ _ => true
  | .sshl _ _ _ _ => true
  | .sshr _ _ _ _ => true
  | .requant _ _ _ _ _ => true
  | .firinit _ => true
  | .firproc _ _ _ => true
  | .cmag _ _ _ => true
  | .atan2 _ _ _ => true
  | .dwconv _ => true
  | .maxpool _ w => w.narrow
  | .relu _ _ w => w.narrow
  | .unpack4 _ _ _ => true
  | .pack4 _ _ _ => true

end Sys2Proof
end

