-- ==== Sys2Proof/Decode.lean ====
section
/-! DEFINITION. The decoder and the encoder of the 32-bit command word (R90 to R96). The opcode map is written
once, as the table of R95 (`Opcode.byte`, `Opcode.mask`); the decoder follows R94 word for word: find the row by
`OP`, compare the masked word with the row's match, check `WSEL`. -/

namespace Sys2Proof

/-- The rows of the opcode map (R93, R95), in the table's order. -/
inductive Opcode where
  | sat | sadd | ssub | smul | sshl | sshr | requant
  | firinit | firproc
  | cmag | atan2
  | dwconv | maxpool | relu | unpack4 | pack4
deriving DecidableEq, Repr

/-- The sixteen rows as a list (R95). -/
def Opcode.all : List Opcode :=
  [.sat, .sadd, .ssub, .smul, .sshl, .sshr, .requant, .firinit, .firproc, .cmag, .atan2,
   .dwconv, .maxpool, .relu, .unpack4, .pack4]

/-- The column `OP` (R95). -/
def Opcode.byte : Opcode → BitVec 8
  | .sat => 0x01#8
  | .sadd => 0x02#8
  | .ssub => 0x03#8
  | .smul => 0x04#8
  | .sshl => 0x05#8
  | .sshr => 0x06#8
  | .requant => 0x07#8
  | .firinit => 0x10#8
  | .firproc => 0x11#8
  | .cmag => 0x20#8
  | .atan2 => 0x21#8
  | .dwconv => 0x30#8
  | .maxpool => 0x31#8
  | .relu => 0x32#8
  | .unpack4 => 0x33#8
  | .pack4 => 0x34#8

/-- The column `mask` (R95): `OP`, every field the command does not use, and bit 7 for `MAXPOOL` and
`RELU` (R94). -/
def Opcode.mask : Opcode → Word
  | .sat => 0xFF00FFC0#32
  | .sadd => 0xFF000F3F#32
  | .ssub => 0xFF000F3F#32
  | .smul => 0xFF000F00#32
  | .sshl => 0xFF000F3F#32
  | .sshr => 0xFF000F3F#32
  | .requant => 0xFF00003F#32
  | .firinit => 0xFFF0FFFF#32
  | .firproc => 0xFFF000FF#32
  | .cmag => 0xFFF000FF#32
  | .atan2 => 0xFF000FFF#32
  | .dwconv => 0xFFF0FFFF#32
  | .maxpool => 0xFFF0FFBF#32
  | .relu => 0xFFF00FBF#32
  | .unpack4 => 0xFFF000FF#32
  | .pack4 => 0xFFF000FF#32

/-- The column `match` (R95): the opcode in bits 31:24, zeros below. -/
def Opcode.pattern (o : Opcode) : Word :=
  o.byte ++ 0#24

/-- The row whose `OP` is the byte, if there is one (R94, first sentence). -/
def Opcode.ofByte (b : BitVec 8) : Option Opcode :=
  Opcode.all.find? (fun o => o.byte == b)

/-- Why a word is no command. The hardware reports every one of them as `IllegalCommand` (R94, R96, R252). -/
inductive DecodeError where
  /-- No row has this `OP` (R96). -/
  | reservedOpcode
  /-- A bit outside the fields the command uses is set, or bit 7 of `MAXPOOL` or `RELU` (R96). -/
  | nonzeroUnusedField
  /-- `WSEL = 3` (R96). -/
  | reservedWsel
deriving DecidableEq, Repr

/-- The field `RD`, bits 23:20 (R91). -/
def fieldRd (w : Word) : Reg := w.extractLsb' 20 4

/-- The field `RS1`, bits 19:16 (R91). -/
def fieldRs1 (w : Word) : Reg := w.extractLsb' 16 4

/-- The field `RS2`, bits 15:12 (R91). -/
def fieldRs2 (w : Word) : Reg := w.extractLsb' 12 4

/-- The field `RS3`, bits 11:8 (R91). -/
def fieldRs3 (w : Word) : Reg := w.extractLsb' 8 4

/-- The field `WSEL`, bits 7:6 (R91). -/
def fieldWsel (w : Word) : BitVec 2 := w.extractLsb' 6 2

/-- The field `IMM6`, bits 5:0 (R91). -/
def fieldImm6 (w : Word) : BitVec 6 := w.extractLsb' 0 6

/-- The field `OP`, bits 31:24 (R91). -/
def fieldOp (w : Word) : BitVec 8 := w.extractLsb' 24 8

/-- `W` from `WSEL` (R92); 3 is reserved. -/
def Width.ofSel (v : BitVec 2) : Option Width :=
  if v = 0#2 then some .w8
  else if v = 1#2 then some .w16
  else if v = 2#2 then some .w32
  else none

/-- `WSEL` from `W` (R92). -/
def Width.sel : Width → BitVec 2
  | .w8 => 0#2
  | .w16 => 1#2
  | .w32 => 2#2

/-- The command of a row, its fields taken from the word (R91, R95); none when the row uses `WSEL` and the
word holds 3 there (R94). -/
def Opcode.instr (o : Opcode) (w : Word) : Option Instr :=
  match o with
  | .sat => some (.sat (fieldRd w) (fieldRs1 w) (fieldImm6 w))
  | .sadd => (Width.ofSel (fieldWsel w)).map (.sadd (fieldRd w) (fieldRs1 w) (fieldRs2 w))
  | .ssub => (Width.ofSel (fieldWsel w)).map (.ssub (fieldRd w) (fieldRs1 w) (fieldRs2 w))
  | .smul => (Width.ofSel (fieldWsel w)).map
      (fun v => .smul (fieldRd w) (fieldRs1 w) (fieldRs2 w) v (fieldImm6 w))
  | .sshl => (Width.ofSel (fieldWsel w)).map (.sshl (fieldRd w) (fieldRs1 w) (fieldRs2 w))
  | .sshr => (Width.ofSel (fieldWsel w)).map (.sshr (fieldRd w) (fieldRs1 w) (fieldRs2 w))
  | .requant => (Width.ofSel (fieldWsel w)).map
      (.requant (fieldRd w) (fieldRs1 w) (fieldRs2 w) (fieldRs3 w))
  | .firinit => some (.firinit (fieldRs1 w))
  | .firproc => some (.firproc (fieldRs1 w) (fieldRs2 w) (fieldRs3 w))
  | .cmag => some (.cmag (fieldRs1 w) (fieldRs2 w) (fieldRs3 w))
  | .atan2 => some (.atan2 (fieldRd w) (fieldRs1 w) (fieldRs2 w))
  | .dwconv => some (.dwconv (fieldRs1 w))
  | .maxpool => (Width.ofSel (fieldWsel w)).map (.maxpool (fieldRs1 w))
  | .relu => (Width.ofSel (fieldWsel w)).map (.relu (fieldRs1 w) (fieldRs2 w))
  | .unpack4 => some (.unpack4 (fieldRs1 w) (fieldRs2 w) (fieldRs3 w))
  | .pack4 => some (.pack4 (fieldRs1 w) (fieldRs2 w) (fieldRs3 w))

/-- Decoding a command word (R94). It reads no state other than the word. -/
def decode (w : Word) : Except DecodeError Instr :=
  match Opcode.ofByte (fieldOp w) with
  | none => .error .reservedOpcode
  | some o =>
    if w &&& o.mask = o.pattern then
      match o.instr w with
      | none => .error .reservedWsel
      | some i => .ok i
    else .error .nonzeroUnusedField

/-- A word of format `C` from its seven fields (R91). -/
def formatC (op : BitVec 8) (rd rs1 rs2 rs3 : Reg) (wsel : BitVec 2) (imm6 : BitVec 6) : Word :=
  op ++ rd ++ rs1 ++ rs2 ++ rs3 ++ wsel ++ imm6

/-- The row a term belongs to (R95). -/
def Instr.opcode : Instr → Opcode
  | .sat _ _ _ => .sat
  | .sadd _ _ _ _ => .sadd
  | .ssub _ _ _ _ => .ssub
  | .smul _ _ _ _ _ => .smul
  | .sshl _ _ _ _ => .sshl
  | .sshr _ _ _ _ => .sshr
  | .requant _ _ _ _ _ => .requant
  | .firinit _ => .firinit
  | .firproc _ _ _ => .firproc
  | .cmag _ _ _ => .cmag
  | .atan2 _ _ _ => .atan2
  | .dwconv _ => .dwconv
  | .maxpool _ _ => .maxpool
  | .relu _ _ _ => .relu
  | .unpack4 _ _ _ => .unpack4
  | .pack4 _ _ _ => .pack4

/-- The command word of a term: the columns of R95, a field the row does not use zero. -/
def encode : Instr → Word
  | .sat rd rs1 imm6 => formatC 0x01#8 rd rs1 0 0 0 imm6
  | .sadd rd rs1 rs2 w => formatC 0x02#8 rd rs1 rs2 0 w.sel 0
  | .ssub rd rs1 rs2 w => formatC 0x03#8 rd rs1 rs2 0 w.sel 0
  | .smul rd rs1 rs2 w imm6 => formatC 0x04#8 rd rs1 rs2 0 w.sel imm6
  | .sshl rd rs1 rs2 w => formatC 0x05#8 rd rs1 rs2 0 w.sel 0
  | .sshr rd rs1 rs2 w => formatC 0x06#8 rd rs1 rs2 0 w.sel 0
  | .requant rd rs1 rs2 rs3 w => formatC 0x07#8 rd rs1 rs2 rs3 w.sel 0
  | .firinit rs1 => formatC 0x10#8 0 rs1 0 0 0 0
  | .firproc rs1 rs2 rs3 => formatC 0x11#8 0 rs1 rs2 rs3 0 0
  | .cmag rs1 rs2 rs3 => formatC 0x20#8 0 rs1 rs2 rs3 0 0
  | .atan2 rd rs1 rs2 => formatC 0x21#8 rd rs1 rs2 0 0 0
  | .dwconv rs1 => formatC 0x30#8 0 rs1 0 0 0 0
  | .maxpool rs1 w => formatC 0x31#8 0 rs1 0 0 w.sel 0
  | .relu rs1 rs2 w => formatC 0x32#8 0 rs1 rs2 0 w.sel 0
  | .unpack4 rs1 rs2 rs3 => formatC 0x33#8 0 rs1 rs2 rs3 0 0
  | .pack4 rs1 rs2 rs3 => formatC 0x34#8 0 rs1 rs2 rs3 0 0

/-- The three pseudo-instructions of R98: `SMUL` in the source's named formats Q15, Q31 and Q2.13. -/
def Instr.smulQ15 (rd rs1 rs2 : Reg) : Instr := .smul rd rs1 rs2 .w16 15#6

/-- `SMUL.Q31` (R98). -/
def Instr.smulQ31 (rd rs1 rs2 : Reg) : Instr := .smul rd rs1 rs2 .w32 31#6

/-- `SMUL.Q2_13` (R98). -/
def Instr.smulQ2_13 (rd rs1 rs2 : Reg) : Instr := .smul rd rs1 rs2 .w16 13#6

/-! The assembler spelling (R97): the mnemonic, the width suffix, the operands in the order `RD`, `RS1`, `RS2`, `RS3`,
immediate, without the fields the command does not use. -/

/-- The mnemonic of a row (R95). -/
def Opcode.mnemonic : Opcode → String
  | .sat => "SAT"
  | .sadd => "SADD"
  | .ssub => "SSUB"
  | .smul => "SMUL"
  | .sshl => "SSHL"
  | .sshr => "SSHR"
  | .requant => "REQUANT"
  | .firinit => "FIRINIT"
  | .firproc => "FIRPROC"
  | .cmag => "CMAG"
  | .atan2 => "ATAN2"
  | .dwconv => "DWCONV"
  | .maxpool => "MAXPOOL"
  | .relu => "RELU"
  | .unpack4 => "UNPACK4"
  | .pack4 => "PACK4"

/-- The width suffix (R97). -/
def Width.suffix : Width → String
  | .w8 => ".8"
  | .w16 => ".16"
  | .w32 => ".32"

/-- A register's name (R97). -/
def asmReg (r : Reg) : String := "x" ++ Nat.repr r.toNat

/-- A line of assembly: what stands before the operands, and the operands (R97). -/
def asmLine (head : String) (operands : List String) : String :=
  head ++ " " ++ ", ".intercalate operands

/-- The command in the spelling of R97; the immediate of `SAT` is written as `bits`, one more than the field. -/
def Instr.asm (i : Instr) : String :=
  let m := i.opcode.mnemonic
  match i with
  | .sat rd rs1 imm6 => asmLine m [asmReg rd, asmReg rs1, Nat.repr (imm6.toNat + 1)]
  | .sadd rd rs1 rs2 w => asmLine (m ++ w.suffix) [asmReg rd, asmReg rs1, asmReg rs2]
  | .ssub rd rs1 rs2 w => asmLine (m ++ w.suffix) [asmReg rd, asmReg rs1, asmReg rs2]
  | .smul rd rs1 rs2 w imm6 =>
    asmLine (m ++ w.suffix) [asmReg rd, asmReg rs1, asmReg rs2, Nat.repr imm6.toNat]
  | .sshl rd rs1 rs2 w => asmLine (m ++ w.suffix) [asmReg rd, asmReg rs1, asmReg rs2]
  | .sshr rd rs1 rs2 w => asmLine (m ++ w.suffix) [asmReg rd, asmReg rs1, asmReg rs2]
  | .requant rd rs1 rs2 rs3 w =>
    asmLine (m ++ w.suffix) [asmReg rd, asmReg rs1, asmReg rs2, asmReg rs3]
  | .firinit rs1 => asmLine m [asmReg rs1]
  | .firproc rs1 rs2 rs3 => asmLine m [asmReg rs1, asmReg rs2, asmReg rs3]
  | .cmag rs1 rs2 rs3 => asmLine m [asmReg rs1, asmReg rs2, asmReg rs3]
  | .atan2 rd rs1 rs2 => asmLine m [asmReg rd, asmReg rs1, asmReg rs2]
  | .dwconv rs1 => asmLine m [asmReg rs1]
  | .maxpool rs1 w => asmLine (m ++ w.suffix) [asmReg rs1]
  | .relu rs1 rs2 w => asmLine (m ++ w.suffix) [asmReg rs1, asmReg rs2]
  | .unpack4 rs1 rs2 rs3 => asmLine m [asmReg rs1, asmReg rs2, asmReg rs3]
  | .pack4 rs1 rs2 rs3 => asmLine m [asmReg rs1, asmReg rs2, asmReg rs3]

/-- What the decoder reads from a table row's word: `nbits` bits of `w`, zeros above (the host's reading of
spec/opcode_table.json). Every command is one 32-bit word (R90). -/
def decodeTableWord (nbits w : Nat) : Option Instr :=
  match decode (BitVec.ofNat 32 (w % 2 ^ nbits)) with
  | .ok i => some i
  | .error _ => none

end Sys2Proof
end

