-- ==== Sys2Proof/Config.lean ====
section
/-! DEFINITION. What an implementation of the CORE fixes and the spec leaves OPEN (R6, R30, R65, R178): the
parameters are ARGUMENTS of the model, held as plain data in `Platform`, which every state carries and no
step changes. So every statement about every state is a statement about every choice of the parameters. The
functions that the spec leaves open without a default (other numerics, the payload of a NaN) are opaque. -/

namespace Sys2Proof

/-- `XLEN`, the width of a general register (R6). -/
abbrev Config.xlen : Nat := 64

/-- `ACC_W`, the width of the multiply-accumulate accumulator (R6, R128). -/
abbrev Config.accBits : Nat := 64

/-- The number of byte addresses of the one address space (R60). -/
abbrev Config.spaceBytes : Nat := 2 ^ 32

/-- One admitted region of memory, the bytes `base` to `base + size - 1` (R65). -/
structure Region where
  base : Nat
  size : Nat
deriving DecidableEq, Repr

/-- The region holds the byte address. -/
def Region.contains (r : Region) (a : Nat) : Prop :=
  r.base ≤ a ∧ a < r.base + r.size

/-- Which binary32 numerics the platform is configured with (R178): the spec's default, or any other four
functions. -/
inductive Numerics where
  /-- IEEE 754-2008 binary32, round to nearest even, subnormals kept (R178). -/
  | ieeeDefault
  /-- The four opaque functions `Config.f32Add`, `Config.f32Sub`, `Config.f32Mul`, `Config.f32Lt0`. -/
  | configured
deriving DecidableEq, Repr

/-- The parameters the spec leaves OPEN (R6), one field each. -/
structure Platform where
  /-- `HAS_VEC`, read as `CAP.VEC` (R30). -/
  hasVec : Bool
  /-- `MAG_LANES`, 1 to 255, read as `CAP.LANES` (R30). -/
  magLanes : BitVec 8
  /-- The admitted regions of memory (R65). -/
  regions : List Region
  /-- The binary32 numerics of `CMAG` (R178). -/
  numerics : Numerics
deriving DecidableEq, Repr

/-- The legal parameters: `MAG_LANES` from 1 to 255 (R30), every admitted byte below 2^32 (R60, R61). -/
abbrev Platform.legal (p : Platform) : Prop :=
  p.magLanes ≠ 0#8 ∧ ∀ r ∈ p.regions, r.base + r.size ≤ Config.spaceBytes

/-- The parameters `State.reset` is given. DESIGN CHOICE (unsafe; notes/assumptions/2.md): `HAS_VEC = 1`, the spec's
defaults for `MAG_LANES` and for the numerics, and the whole address space admitted. -/
def Platform.default : Platform where
  hasVec := true
  magLanes := 4#8
  regions := [{ base := 0, size := Config.spaceBytes }]
  numerics := .ieeeDefault

/-- `f32_add` of a platform that configures its own numerics (R178, OPEN). -/
opaque Config.f32Add : Word → Word → Word

/-- `f32_sub` of a platform that configures its own numerics (R178, OPEN). -/
opaque Config.f32Sub : Word → Word → Word

/-- `f32_mul` of a platform that configures its own numerics (R178, OPEN). -/
opaque Config.f32Mul : Word → Word → Word

/-- `f32_lt0` of a platform that configures its own numerics (R178, OPEN). -/
opaque Config.f32Lt0 : Word → Bool

/-- The operations of the default numerics that can produce a NaN from given operands. -/
inductive F32Op where
  | add
  | sub
  | mul
deriving DecidableEq, Repr

/-- The sign of a NaN that the default numerics produce: a free value (R178, U8). -/
opaque Config.nanSign : F32Op → Word → Word → Bool

/-- The fraction of a NaN that the default numerics produce: a free value (R178, U8); the model reads 0, which
would not be a NaN, as 1. -/
opaque Config.nanFraction : F32Op → Word → Word → BitVec 23

end Sys2Proof
end

