-- ==== Sys2Proof/Machine/State.lean ====
section
/-! DEFINITION. The state of the CORE (R20 to R44), the host's transactions that drive it (R262), the reasons a
step can stop, and the state after reset. All of it is plain data. -/

namespace Sys2Proof.Machine

/-- `STATUS.CODE` (R26, R250). The codes 5 to 7 are never written and have no constructor. -/
inductive Status where
  | success
  | argumentError
  | noImplementation
  | naNInf
  | illegalCommand
deriving DecidableEq, Repr

/-- `CTRL.RND` (R29): which rule `rnd_shr` follows (R10). -/
inductive Rounding where
  | halfUp
  | halfEven
deriving DecidableEq, Repr

/-- The memory as the bytes that differ from `Memory.unlisted`, by address, in rising order (R60). -/
abbrev Memory := List Host.Cell

/-- What an address that is not listed reads as. DESIGN CHOICE (unsafe; notes/assumptions/4.md): the spec says only
that reset leaves memory as it was (R44). -/
abbrev Memory.unlisted : Byte := 0#8

/-- The canonical form: addresses strictly rising, no entry equal to what an unlisted address reads as. -/
abbrev Memory.wf (m : Memory) : Prop :=
  m.Pairwise (fun c d => c.1 < d.1) ∧ ∀ c ∈ m, c.2 ≠ Memory.unlisted

/-- One event at the CORE's boundary: a host-port transaction of R262, or the platform's reset (R280). -/
inductive HostTxn where
  /-- `HostWriteReg(i, v)`. -/
  | writeReg (i : Reg) (v : XWord)
  /-- `HostReadReg(i)`. -/
  | readReg (i : Reg)
  /-- `HostWriteCsr(n, v)`; `n = 0` issues the command `v`. -/
  | writeCsr (n : BitVec 6) (v : Word)
  /-- `HostReadCsr(n)`. -/
  | readCsr (n : BitVec 6)
  /-- `HostMemWrite(a, n, v)`: the low `8n` bits of `v`, little-endian. -/
  | memWrite (a : Word) (n v : Nat)
  /-- `HostMemRead(a, n)`. -/
  | memRead (a : Word) (n : Nat)
  /-- Reset of the CORE by the platform, between commands (R280, R281). -/
  | reset
deriving DecidableEq, Repr

/-- What the last transaction gave the host (R262). -/
inductive HostReply where
  /-- No transaction yet since reset. -/
  | none
  /-- A write, an issued command or a reset has completed. -/
  | done
  /-- The value of a general register. -/
  | reg (v : XWord)
  /-- The value of a control register. -/
  | csr (v : Word)
  /-- The value of `n` bytes of memory as one unsigned integer. -/
  | mem (v : Nat)
deriving DecidableEq, Repr

/-- The state (R20 to R44). -/
structure State where
  /-- The general registers `x0` to `x15` (R20). -/
  x : Vector XWord 16
  /-- `STATUS.CODE` (R26). -/
  status : Status
  /-- `CTRL.RND` (R29). -/
  rnd : Rounding
  /-- `ISQRT_MAGIC` (R31). -/
  isqrtMagic : Word
  /-- `ATAN_COEF[0..9]`, the bits 15:0 of each (R32). -/
  atanCoef : Vector (BitVec 16) 10
  /-- The memory (R60). -/
  mem : Memory
  /-- The parameters of the hardware (R6), among them all that `CAP` holds (R30). No step changes them. -/
  plat : Platform
  /-- The model's own field: the transactions the host is going to perform, the next first (R14, R262). -/
  queue : List HostTxn
  /-- The model's own field: what the last transaction gave the host (R262). -/
  reply : HostReply
deriving DecidableEq, Repr

/-- Accesses to an address that does not exist. -/
inductive Fault where
  /-- Raised by the block commands and the host's memory accesses: a byte at or above 2^32 (R61, U3). Safe: the
  hardware goes on in a way the spec does not define. -/
  | addressOverflow
  /-- Raised by the block commands and the host's memory accesses: a byte outside the admitted regions (R65, U3).
  Safe, as above. -/
  | bufferOutOfRange
deriving DecidableEq, Repr

/-- Steps the spec does not define: a broken caller contract (R13, R266, treatment `refuse`). -/
inductive Refusal where
  /-- Raised by `exec`'s arm of an instruction that has no meaning yet. Safe. No arm raises it now. -/
  | notModelled (mnemonic : String)
  /-- Raised by every block command: `undefined(misaligned access)` (R63, U2). Safe: the hardware goes on in a way
  the spec does not define. -/
  | misalignedAccess
  /-- Raised by every block command with two buffers: `undefined(overlapping buffers)` (R73, U4). Safe. -/
  | overlappingBuffers
  /-- Raised by `FIRINIT` and `FIRPROC`: `undefined(FIR contract)` in a field of the record (R151, R152, U1). Safe. -/
  | firContract
  /-- Raised by `DWCONV`: `undefined(DWCONV contract)`, a zero shape, kernel or stride field (R205, U5). Safe. -/
  | dwconvContract
  /-- Raised by `MAXPOOL`: `undefined(MAXPOOL contract)`, a zero shape, window or stride field (R212, U6). Safe. -/
  | maxpoolContract
  /-- Raised by `DWCONV` and `MAXPOOL`: `undefined(activation bounds)`, `ACT_MIN > ACT_MAX` (R201, U11). Safe. -/
  | activationBounds
deriving DecidableEq, Repr

/-- What a step, or an instruction's meaning, answers. -/
abbrev Result := Host.Outcome State Fault Refusal

/-- The machine after power-on with the parameters `p` (R44, R280). The general registers, `ISQRT_MAGIC` and
`ATAN_COEF` are zero: DESIGN CHOICE (unsafe; notes/assumptions/1.md), the spec gives them no value. -/
def State.powerOn (p : Platform) : State where
  x := Vector.replicate 16 0#64
  status := .success
  rnd := .halfUp
  isqrtMagic := 0#32
  atanCoef := Vector.replicate 10 0#16
  mem := []
  plat := p
  queue := []
  reply := .none

/-- The machine right after reset (R44, R280), with the default parameters. -/
def State.reset : State := State.powerOn Platform.default

end Sys2Proof.Machine
end

