-- ==== Sys2Proof/Machine/FixedPoint.lean ====
section
/-! DEFINITION. The arithmetic primitives of the spec on mathematical integers (R7 to R10): saturation, the rounding
right shift, requantization, sign extension, and the counted loop of the pseudocode. -/

namespace Sys2Proof.Machine

/-- `sext_N(v)`: the low `n` bits of `v` as a two's-complement integer (R7). -/
def sext (n : Nat) (v : Nat) : Int := (BitVec.ofNat n v).toInt

/-- The least `n`-bit value, `min_N` (R8). -/
def minOf (n : Nat) : Int := -(2 ^ (n - 1) : Nat)

/-- The greatest `n`-bit value, `max_N` (R8). -/
def maxOf (n : Nat) : Int := (2 ^ (n - 1) : Nat) - 1

/-- `sat_N(v)` (R9). -/
def sat (n : Nat) (v : Int) : Int :=
  if v < minOf n then minOf n
  else if v > maxOf n then maxOf n
  else v

/-- `clamp(v, lo, hi)` (R201). -/
def clamp (v lo hi : Int) : Int := max lo (min v hi)

/-- `rnd_shr(v, s)` under the rounding rule `r` (R10). -/
def rndShr (r : Rounding) (v : Int) (s : Nat) : Int :=
  if s = 0 then v
  else
    let q := v / (2 ^ s : Nat)
    let rem := v % (2 ^ s : Nat)
    let half : Int := (2 ^ (s - 1) : Nat)
    match r with
    | .halfUp => if half ≤ rem then q + 1 else q
    | .halfEven => if half < rem ∨ (rem = half ∧ q % 2 = 1) then q + 1 else q

/-- `requantize(acc, mult, shift, W)` (R127). A shift of 96 or more gives 0 for every input, as 96 does, so the
amount is cut there and no model needs a huge power (R127, corner cases). -/
def requantize (r : Rounding) (acc mult : Int) (shift w : Nat) : Int :=
  sat w (rndShr r (acc * mult) (min shift 96))

/-- `for i = 0 to n - 1` of the pseudocode, ascending: `f i` is the body. -/
def forUp {σ : Type} (n : Nat) (f : Nat → σ → σ) (s : σ) : σ :=
  match n with
  | 0 => s
  | k + 1 => f k (forUp k f s)

end Sys2Proof.Machine
end

