-- ==== Sys2Proof/Machine/Ops.lean ====
section
/-! DEFINITION. The named operations over registers, memory and status: `x[i]`, `MemRead`, `MemWrite` (R11, R62),
ending a command with a status (R12, R27), and the reset of the CORE (R280). Taking an exception is `State.raise`;
there is no return from one, no trap entry and nothing to restore (R255, R256). -/

namespace Sys2Proof.Machine

/-- `x[i]` (R11, R20). -/
def State.getX (s : State) (i : Reg) : XWord := s.x[i.toNat]'i.isLt

/-- `x[i] <- v` (R11, R20). -/
def State.setX (s : State) (i : Reg) (v : XWord) : State :=
  { s with x := s.x.set i.toNat v i.isLt }

/-- `raise <Status>`: the one exception primitive. It ends the command with the code and changes nothing else
(R12, R251). -/
def State.raise (s : State) (c : Status) : State := { s with status := c }

/-- The end of a command without a `raise`: `STATUS.CODE <- Success` (R12, R27). -/
def State.succeed (s : State) : State := { s with status := .success }

/-- A block command's end: the memory it leaves, and `Success` (R12, R27). -/
def State.finishMem (s : State) (m : Memory) : State := { s with mem := m, status := .success }

/-- A scalar command's end: `x[RD] <- v` as a 64-bit sign-extended value, and `Success` (R120, R27). -/
def State.finishX (s : State) (rd : Reg) (v : Int) : State :=
  (s.setX rd (BitVec.ofInt 64 v)).succeed

/-- The byte at an address (R60, R65). -/
def Memory.readByte : Memory → Nat → Byte
  | [], _ => Memory.unlisted
  | c :: m, a => if c.1 = a then c.2 else Memory.readByte m a

/-- The memory without an entry for the address. -/
def Memory.erase (m : Memory) (a : Nat) : Memory := m.filter (fun c => c.1 != a)

/-- The memory with an entry put at its place by address. -/
def Memory.insert : Memory → Nat → Byte → Memory
  | [], a, b => [(a, b)]
  | c :: m, a, b => if a < c.1 then (a, b) :: c :: m else c :: Memory.insert m a b

/-- Storing one byte; the canonical form is kept: the value an unlisted address reads as removes the entry. -/
def Memory.writeByte (m : Memory) (a : Nat) (b : Byte) : Memory :=
  if b = Memory.unlisted then m.erase a else (m.erase a).insert a b

/-- `MemRead(a, n)`, little-endian (R11, R62). -/
def Memory.read (m : Memory) (a : Nat) : Nat → Nat
  | 0 => 0
  | n + 1 => (m.readByte a).toNat + 256 * m.read (a + 1) n

/-- `MemReadS(a, n)` (R11). -/
def Memory.readS (m : Memory) (a n : Nat) : Int := sext (8 * n) (m.read a n)

/-- `MemWrite(a, n, v)`: the low `8n` bits of `v`, little-endian (R11, R62). -/
def Memory.write (m : Memory) (a n v : Nat) : Memory :=
  match n with
  | 0 => m
  | k + 1 => (m.writeByte a (BitVec.ofNat 8 v)).write (a + 1) k (v / 256)

/-- `MemWrite(a, n, v)` of an integer, as two's complement in `8n` bits (R11). -/
def Memory.writeS (m : Memory) (a n : Nat) (v : Int) : Memory :=
  m.write a n (BitVec.ofInt (8 * n) v).toNat

/-- A descriptor's unsigned word at byte offset `off` (R34). -/
def Memory.word (m : Memory) (d off : Nat) : Nat := m.read (d + off) 4

/-- A descriptor's signed word at byte offset `off` (R34). -/
def Memory.wordS (m : Memory) (d off : Nat) : Int := m.readS (d + off) 4

/-- Reset of the CORE by the platform (R44, R280, R282): the registers as after power-on, memory untouched, `CAP` at
its parameters. The host's coming transactions are not the CORE's state and stay. -/
def State.platformReset (s : State) : State :=
  { State.powerOn s.plat with mem := s.mem, queue := s.queue, reply := s.reply }

end Sys2Proof.Machine
end

