-- ==== Sys2Proof/Machine/Operands.lean ====
section
/-! DEFINITION. Every operand form of the commands (R92, R120, R61, R264). -/

namespace Sys2Proof.Machine

/-- `W` in bits (R92). -/
def bitsOf : Width → Nat
  | .w8 => 8
  | .w16 => 16
  | .w32 => 32

/-- `B = W / 8`, also the element size `E`, in bytes (R92). -/
def bytesOf : Width → Nat
  | .w8 => 1
  | .w16 => 2
  | .w32 => 4

/-- A `W`-bit operand: `sext_W(x[i])`, the bits above ignored (R120). -/
def State.operand (s : State) (n : Nat) (i : Reg) : Int := sext n (s.getX i).toNat

/-- A 64-bit operand: `sext_64(x[i])` (R120). -/
def State.operand64 (s : State) (i : Reg) : Int := (s.getX i).toInt

/-- A shift amount or a requantization shift: `zext_64(x[i])` (R120). -/
def State.amount (s : State) (i : Reg) : Nat := (s.getX i).toNat

/-- An address `A(i)`, or a count: `zext_32(x[i])` (R61, R92). -/
def State.low32 (s : State) (i : Reg) : Nat := (s.getX i).toNat % 2 ^ 32

end Sys2Proof.Machine
end

