-- ==== Sys2Proof/Machine/Contract.lean ====
section
/-! DEFINITION. The checks of a caller contract (R13, R61, R63, R65, R73): the ENGINE makes none of them, so the model
answers a stop of its own where one fails, and never a state (R13). A buffer of no bytes is never accessed and
breaks no contract (DEDUCED; notes/assumptions/6.md). -/

namespace Sys2Proof.Machine

/-- Some bytes a command reads or writes: `base` to `base + size - 1`. -/
structure Buffer where
  base : Nat
  size : Nat
deriving DecidableEq, Repr

/-- Why a step of the model stops. -/
inductive Stop where
  | fault (f : Fault)
  | refuse (r : Refusal)
deriving DecidableEq, Repr

/-- The step with its contract: the stop where there is one, else what the command does. -/
def unlessStop (c : Option Stop) (k : Result) : Result :=
  match c with
  | none => k
  | some (.fault f) => .fault f
  | some (.refuse r) => .refused r

/-- The first stop of a list of checks. -/
def firstStop : List (Option Stop) → Option Stop
  | [] => none
  | none :: cs => firstStop cs
  | some c :: _ => some c

/-- A field of a descriptor must satisfy its contract. -/
def require (ok : Bool) (r : Refusal) : Option Stop :=
  if ok then none else some (.refuse r)

/-- Every address from `a` up to, not with, `e` lies in some admitted region (R65). What the first region leaves
uncovered, on its two sides, the other regions must cover. -/
def covered : List Region → Nat → Nat → Bool
  | [], a, e => decide (e ≤ a)
  | r :: rs, a, e =>
    decide (e ≤ a) || (covered rs a (min e r.base) && covered rs (max a (r.base + r.size)) e)

/-- The bytes exist: below 2^32 (R61) and admitted (R65). -/
def State.existStop (s : State) (b : Buffer) : Option Stop :=
  if b.size = 0 then none
  else if Config.spaceBytes < b.base + b.size then some (.fault .addressOverflow)
  else if covered s.plat.regions b.base (b.base + b.size) then none
  else some (.fault .bufferOutOfRange)

/-- A buffer of `align`-byte elements: naturally aligned (R63), and its bytes exist. -/
def State.bufferStop (s : State) (align : Nat) (b : Buffer) : Option Stop :=
  if b.size = 0 then none
  else if b.base % align ≠ 0 then some (.refuse .misalignedAccess)
  else s.existStop b

/-- Two buffers share no byte (R73). -/
def Buffer.disjoint (b c : Buffer) : Bool :=
  decide (b.size = 0 ∨ c.size = 0 ∨ b.base + b.size ≤ c.base ∨ c.base + c.size ≤ b.base)

/-- `undefined(overlapping buffers)` unless `b` shares no byte with any of the others (R73). -/
def overlapStop (b : Buffer) (cs : List Buffer) : Option Stop :=
  require (cs.all b.disjoint) .overlappingBuffers

end Sys2Proof.Machine
end

