-- ==== Sys2Proof/Machine/Alu.lean ====
section
/-! DEFINITION. The saturating fixed-point ALU (R120 to R128): `SAT`, `SADD`, `SSUB`, `SMUL`, `SSHL`, `SSHR`, `REQUANT`.
All seven are total: they read no memory, write `x[RD]` and end with `Success` (R28). -/

namespace Sys2Proof.Machine

/-- `SAT xd, xs, bits` (R121); the field holds `bits - 1` (R92). -/
def execSat (rd rs1 : Reg) (imm6 : BitVec 6) (s : State) : Result :=
  .next (s.finishX rd (sat (imm6.toNat + 1) (s.operand64 rs1)))

/-- `SADD.W xd, xa, xb` (R122). -/
def execSadd (rd rs1 rs2 : Reg) (w : Width) (s : State) : Result :=
  .next (s.finishX rd (sat (bitsOf w) (s.operand (bitsOf w) rs1 + s.operand (bitsOf w) rs2)))

/-- `SSUB.W xd, xa, xb` (R123). -/
def execSsub (rd rs1 rs2 : Reg) (w : Width) (s : State) : Result :=
  .next (s.finishX rd (sat (bitsOf w) (s.operand (bitsOf w) rs1 - s.operand (bitsOf w) rs2)))

/-- `SMUL.W xd, xa, xb, F` (R124). -/
def execSmul (rd rs1 rs2 : Reg) (w : Width) (imm6 : BitVec 6) (s : State) : Result :=
  .next (s.finishX rd
    (sat (bitsOf w) (rndShr s.rnd (s.operand (bitsOf w) rs1 * s.operand (bitsOf w) rs2) imm6.toNat)))

/-- `sat_W(a * 2^n)` in the closed form of R125, which needs no huge power. -/
def satShl (w : Nat) (a : Int) (n : Nat) : Int :=
  if a = 0 then 0
  else if n < w then sat w (a * (2 ^ n : Nat))
  else if 0 < a then maxOf w
  else minOf w

/-- `SSHL.W xd, xa, xn` (R125). -/
def execSshl (rd rs1 rs2 : Reg) (w : Width) (s : State) : Result :=
  .next (s.finishX rd (satShl (bitsOf w) (s.operand (bitsOf w) rs1) (s.amount rs2)))

/-- `SSHR.W xd, xa, xn` (R126). An amount of `W` or more gives 0, as `W` does, so the amount is cut there. -/
def execSshr (rd rs1 rs2 : Reg) (w : Width) (s : State) : Result :=
  .next (s.finishX rd
    (sat (bitsOf w) (rndShr s.rnd (s.operand (bitsOf w) rs1) (min (s.amount rs2) (bitsOf w)))))

/-- `REQUANT.W xd, xacc, xmult, xshift` (R127). -/
def execRequant (rd rs1 rs2 rs3 : Reg) (w : Width) (s : State) : Result :=
  .next (s.finishX rd
    (requantize s.rnd (s.operand64 rs1) (s.operand 32 rs2) (s.amount rs3) (bitsOf w)))

end Sys2Proof.Machine
end

