-- ==== Sys2Proof/Machine/Float32.lean ====
section
/-! DEFINITION. The binary32 numerics of `CMAG` (R178): four functions on 32-bit patterns. `ieeeF32` is the spec's default,
IEEE 754-2008 binary32 with round to nearest even and subnormals; `configuredF32` stands for any other choice. -/

namespace Sys2Proof.Machine

/-- The four functions of R178. -/
structure F32Ops where
  add : Word → Word → Word
  sub : Word → Word → Word
  mul : Word → Word → Word
  lt0 : Word → Bool

/-- Bit 31, the sign (R43). -/
def f32Sign (a : Word) : Bool := a.getLsbD 31

/-- Bits 30:0, whose order is the order of the magnitudes (R43). -/
def f32Magnitude (a : Word) : Nat := a.toNat % 2 ^ 31

/-- Bits 30:23, the biased exponent (R43). -/
def f32Exponent (a : Word) : Nat := f32Magnitude a / 2 ^ 23

/-- Bits 22:0, the fraction (R43). -/
def f32Fraction (a : Word) : Nat := f32Magnitude a % 2 ^ 23

/-- The pattern of infinity without its sign. -/
def f32Infinity : Nat := 0x7F800000

/-- A NaN: exponent all ones, fraction not zero. -/
def f32IsNaN (a : Word) : Bool := decide (f32Infinity < f32Magnitude a)

/-- An infinity: exponent all ones, fraction zero. -/
def f32IsInf (a : Word) : Bool := decide (f32Magnitude a = f32Infinity)

/-- A pattern from a sign and a magnitude. -/
def f32Pack (neg : Bool) (mag : Nat) : Word :=
  BitVec.ofNat 32 ((if neg then 2 ^ 31 else 0) + mag % 2 ^ 31)

/-- The magnitude of a finite value as a multiple of 2^-149, the least positive value. -/
def f32Units (a : Word) : Nat :=
  if f32Exponent a = 0 then f32Fraction a
  else (2 ^ 23 + f32Fraction a) * 2 ^ (f32Exponent a - 1)

/-- The signed finite value as a multiple of 2^-149. -/
def f32Value (a : Word) : Int := if f32Sign a then -(f32Units a : Int) else f32Units a

/-- The magnitude `v * 2^-(149 + extra)` rounded to the nearest binary32, ties to even, as a pattern without its
sign. `sh` is how many low bits of `v` the result's significand has no room for. A carry out of the
significand moves into the exponent by the addition; at or past the largest exponent the result is infinity. -/
def f32Round (v extra : Nat) : Nat :=
  let sh := max (v.log2 - 23) extra
  min f32Infinity ((sh - extra) * 2 ^ 23 + (rndShr .halfEven v sh).toNat)

/-- A NaN result; its sign and its fraction are free values (R178, U8). -/
def f32NaN (op : F32Op) (a b : Word) : Word :=
  f32Pack (Config.nanSign op a b)
    (f32Infinity + max 1 (Config.nanFraction op a b).toNat)

/-- The IEEE 754 sum of two patterns, `nan` where it is a NaN. An exact zero sum of two values of unlike sign is `+0`
under round to nearest. -/
def f32Sum (nan a b : Word) : Word :=
  if f32IsNaN a || f32IsNaN b then nan
  else if f32IsInf a then
    if f32IsInf b && f32Sign a != f32Sign b then nan else a
  else if f32IsInf b then b
  else if f32Value a + f32Value b = 0 then f32Pack (f32Sign a && f32Sign b) 0
  else f32Pack (decide (f32Value a + f32Value b < 0))
    (f32Round (f32Value a + f32Value b).natAbs 0)

/-- IEEE 754 addition. -/
def ieeeAdd (a b : Word) : Word := f32Sum (f32NaN .add a b) a b

/-- The operand with its sign flipped. -/
def f32Neg (a : Word) : Word := a ^^^ 0x80000000#32

/-- IEEE 754 subtraction: the sum with the sign of the second operand flipped. -/
def ieeeSub (a b : Word) : Word := f32Sum (f32NaN .sub a b) a (f32Neg b)

/-- IEEE 754 multiplication: the exact product is a multiple of 2^-298, rounded once. -/
def ieeeMul (a b : Word) : Word :=
  if f32IsNaN a || f32IsNaN b then f32NaN .mul a b
  else if f32IsInf a || f32IsInf b then
    if f32Magnitude a = 0 ∨ f32Magnitude b = 0 then f32NaN .mul a b
    else f32Pack (f32Sign a != f32Sign b) f32Infinity
  else f32Pack (f32Sign a != f32Sign b) (f32Round (f32Units a * f32Units b) 149)

/-- True exactly when the value is not a NaN and below zero; false for `-0` (R178). -/
def ieeeLt0 (a : Word) : Bool := f32Sign a && !f32IsNaN a && decide (f32Magnitude a ≠ 0)

/-- The spec's default numerics (R178). -/
def ieeeF32 : F32Ops := ⟨ieeeAdd, ieeeSub, ieeeMul, ieeeLt0⟩

/-- Any other numerics (R178, OPEN). -/
def configuredF32 : F32Ops := ⟨Config.f32Add, Config.f32Sub, Config.f32Mul, Config.f32Lt0⟩

/-- The numerics the platform is configured with (R178). -/
def numericsOf : Numerics → F32Ops
  | .ieeeDefault => ieeeF32
  | .configured => configuredF32

end Sys2Proof.Machine
end

