-- ==== Sys2Proof/Machine/Approx.lean ====
section
/-! DEFINITION. The fast approximators (R170 to R187): `CMAG`, the complex magnitude by a fast inverse square root, and
`ATAN2`, the four-quadrant arctangent by a ten-coefficient polynomial. -/

namespace Sys2Proof.Machine

/-- The iteration count of element `i` of `n` (R172). -/
def magIters (lanes i n : Nat) : Nat := if i < n - n % lanes then 3 else 2

/-- The seed (R174): the one wrapping subtraction of the spec. -/
def magSeed (magic sum : Word) : Word := magic - (sum >>> 1)

/-- One Newton-Raphson refinement, left to right, one rounding per operation (R175). -/
def magRefine (f : F32Ops) (sum y : Word) : Word :=
  f.mul y (f.sub 0x3FC00000#32 (f.mul (f.mul (f.mul 0x3F000000#32 sum) y) y))

/-- Step 4: a negative estimate becomes `+0` (R176). -/
def magClamp (f : F32Ops) (y : Word) : Word := if f.lt0 y then 0#32 else y

/-- Step 1: `re * re + im * im` (R173). -/
def magSum (f : F32Ops) (re im : Word) : Word := f.add (f.mul re re) (f.mul im im)

/-- `mag(re, im, k)` (R173). -/
def mag (f : F32Ops) (magic re im : Word) (k : Nat) : Word :=
  f.mul (magSum f re im)
    (magClamp f (forUp k (fun _ y => magRefine f (magSum f re im) y) (magSeed magic (magSum f re im))))

/-- The source array of `CMAG`, `n` complex samples (R43). -/
def cmagSource (src n : Nat) : Buffer := ⟨src, 8 * n⟩

/-- The destination array of `CMAG`, `n` values (R43). -/
def cmagDest (dst n : Nat) : Buffer := ⟨dst, 4 * n⟩

/-- The contract of `CMAG` (R171). -/
def cmagStop (s : State) (src dst n : Nat) : Option Stop :=
  firstStop
    [ s.bufferStop 4 (cmagSource src n),
      s.bufferStop 4 (cmagDest dst n),
      overlapStop (cmagSource src n) [cmagDest dst n] ]

/-- `CMAG`'s writes (R171). -/
def cmagMem (f : F32Ops) (magic : Word) (lanes src dst n : Nat) (m : Memory) : Memory :=
  forUp n
    (fun i m => m.write (dst + 4 * i) 4
      (mag f magic (BitVec.ofNat 32 (m.read (src + 8 * i) 4))
        (BitVec.ofNat 32 (m.read (src + 8 * i + 4) 4)) (magIters lanes i n)).toNat) m

/-- `CMAG xsrc, xdst, xn` (R171). -/
def execCmag (rs1 rs2 rs3 : Reg) (s : State) : Result :=
  unlessStop (cmagStop s (s.low32 rs1) (s.low32 rs2) (s.low32 rs3))
    (.next (s.finishMem (cmagMem (numericsOf s.plat.numerics) s.isqrtMagic s.plat.magLanes.toNat
      (s.low32 rs1) (s.low32 rs2) (s.low32 rs3) s.mem)))

/-- `PI_Q13` (R6, R179). -/
def piQ13 : Int := 25736

/-- `PIHALF_Q13` (R6, R179). -/
def piHalfQ13 : Int := 12868

/-- `bitlen(q)`, the number of bits of `q` (R184). -/
def bitlen (q : Nat) : Nat := if q = 0 then 0 else q.log2 + 1

/-- `div_norm(num, den)`: a normalized mantissa and a shift amount (R184). -/
def divNorm (num den : Nat) : Nat × Nat :=
  let q := num * 2 ^ 15 / den
  let s := bitlen q - 15
  (q / 2 ^ s, s)

/-- The re-aligned ratio, `sat_16(mant * 2^s)` (R184). -/
def atanRatio (num den : Nat) : Int :=
  sat 16 (((divNorm num den).1 * 2 ^ (divNorm num den).2 : Nat) : Int)

/-- `c[i]`, the coefficient as a signed Q15 value (R32). -/
def atanCoefOf (c : Vector (BitVec 16) 10) (i : Nat) : Int := (c.getD i 0#16).toInt

/-- `atan_poly(ratio)`: Horner from `c[9]` down, then the shift by 2 (R185). Pass `k` adds `c[8 - k]`. -/
def atanPoly (r : Rounding) (c : Vector (BitVec 16) 10) (ratio : Int) : Int :=
  sat 16 (rndShr r
    (forUp 9 (fun k res => rndShr r (ratio * res) 15 + atanCoefOf c (8 - k)) (atanCoefOf c 9)) 2)

/-- The magnitude of an operand: the negation saturates (R180, R181). -/
def atanAbs (v : Int) : Int := if v < 0 then sat 16 (-v) else v

/-- The first-octant angle with the swap correction (R180, R181, R186): the roles of `x` and `y` are swapped when
`|y| > |x|`. -/
def atanOctant (r : Rounding) (c : Vector (BitVec 16) 10) (ay ax : Int) : Int :=
  if ay > ax then sat 16 (piHalfQ13 - atanPoly r c (atanRatio ax.toNat ay.toNat))
  else atanPoly r c (atanRatio ay.toNat ax.toNat)

/-- Undoing the reduction: one negation for each set flag, then plus or minus `PI_Q13` when `x < 0` (R180, R186). -/
def atanUnreduce (y x a : Int) : Int :=
  let b := if y < 0 then sat 16 (-a) else a
  let c := if x < 0 then sat 16 (-b) else b
  if x < 0 then (if y > 0 then sat 16 (c + piQ13) else sat 16 (c - piQ13)) else c

/-- The angle, or none where the input is undefined (R180, R182, R183). -/
def atan2Angle (r : Rounding) (c : Vector (BitVec 16) 10) (y x : Int) : Option Int :=
  if x = 0 ∧ y = 0 then none
  else if x = 0 then some (if y > 0 then piHalfQ13 else -piHalfQ13)
  else if y = 0 ∧ x < 0 then some piQ13
  else some (atanUnreduce y x (atanOctant r c (atanAbs y) (atanAbs x)))

/-- `ATAN2 xd, xy, xx` (R180); at the origin it raises `NaNInf` and writes no register (R182). -/
def execAtan2 (rd rs1 rs2 : Reg) (s : State) : Result :=
  match atan2Angle s.rnd s.atanCoef (s.operand 16 rs1) (s.operand 16 rs2) with
  | none => .next (s.raise .naNInf)
  | some a => .next (s.finishX rd a)

end Sys2Proof.Machine
end

