-- ==== Sys2Proof/Machine/Fir.lean ====
section
/-! DEFINITION. The decimating FIR filter engine (R150 to R154): `FIRINIT` and `FIRPROC` on the FilterInstance record
of R35 and the state buffer of R36, both in memory. -/

namespace Sys2Proof.Machine

/-- The words of a FilterInstance record that a rule reads (R35). -/
structure FirRecord where
  coef : Nat
  state : Nat
  taps : Nat
  decim : Nat
  block : Nat
  fmt : Nat
deriving DecidableEq, Repr

/-- Reading the record at `d` (R35). -/
def firRecord (m : Memory) (d : Nat) : FirRecord where
  coef := m.word d 0x00
  state := m.word d 0x04
  taps := m.word d 0x08
  decim := m.word d 0x0C
  block := m.word d 0x10
  fmt := m.word d 0x14

/-- `B`, the element size in bytes, from `FMT.WSEL` (R35, R151). -/
def FirRecord.bytes (f : FirRecord) : Nat := 2 ^ (f.fmt % 4)

/-- `W = 8 * B` (R152). -/
def FirRecord.bits (f : FirRecord) : Nat := 8 * f.bytes

/-- `F`, bits 13:8 of `FMT` (R35). -/
def FirRecord.frac (f : FirRecord) : Nat := f.fmt / 256 % 64

/-- The contract of `FMT`: `WSEL` not 3, every bit outside `WSEL` and `F` 0 (R35). -/
def FirRecord.fmtOk (f : FirRecord) : Bool :=
  decide (f.fmt % 4 ≠ 3 ∧ f.fmt = f.fmt % 4 + 256 * f.frac)

/-- The state buffer, `N - 1 + L` samples (R36). -/
def FirRecord.stateBuffer (f : FirRecord) : Buffer := ⟨f.state, (f.taps - 1 + f.block) * f.bytes⟩

/-- The coefficient array, `N` elements (R35). -/
def FirRecord.coefBuffer (f : FirRecord) : Buffer := ⟨f.coef, f.taps * f.bytes⟩

/-- The input block, `L` samples (R152). -/
def FirRecord.inBuffer (f : FirRecord) (inp : Nat) : Buffer := ⟨inp, f.block * f.bytes⟩

/-- The output block, `L / M` samples (R152). -/
def FirRecord.outBuffer (f : FirRecord) (out : Nat) : Buffer := ⟨out, f.block / f.decim * f.bytes⟩

/-- The contract of `FIRINIT` (R151). Of the record it touches the words `STATE_PTR`, `NUM_TAPS`, `BLOCK`, `FMT` and
`PHASE` only, and those must exist. -/
def firinitStop (s : State) (d : Nat) : Option Stop :=
  firstStop
    [ s.bufferStop 4 ⟨d + 0x04, 8⟩,
      s.bufferStop 4 ⟨d + 0x10, 12⟩,
      require (decide (1 ≤ (firRecord s.mem d).taps)) .firContract,
      require (decide (1 ≤ (firRecord s.mem d).block)) .firContract,
      require (firRecord s.mem d).fmtOk .firContract,
      s.bufferStop (firRecord s.mem d).bytes (firRecord s.mem d).stateBuffer,
      overlapStop (firRecord s.mem d).stateBuffer [⟨d, 32⟩] ]

/-- `FIRINIT`'s writes: the state buffer zeroed, `PHASE <- Idle` (R151, R37). -/
def firinitMem (f : FirRecord) (d : Nat) (m : Memory) : Memory :=
  (forUp (f.taps - 1 + f.block) (fun k m => m.write (f.state + k * f.bytes) f.bytes 0) m).write
    (d + 0x18) 4 0

/-- `FIRINIT xdesc` (R151). -/
def execFirinit (rs1 : Reg) (s : State) : Result :=
  unlessStop (firinitStop s (s.low32 rs1))
    (.next (s.finishMem (firinitMem (firRecord s.mem (s.low32 rs1)) (s.low32 rs1) s.mem)))

/-- `fir_dot(coef, win, N, B)`: the saturating 64-bit accumulation in ascending `j` (R153). -/
def firDot (m : Memory) (coef win n b : Nat) : Int :=
  forUp n
    (fun j acc => sat Config.accBits (acc + m.readS (coef + j * b) b * m.readS (win + j * b) b)) 0

/-- Step 1 of `FIRPROC`: the input block goes to the tail of the state buffer (R152). -/
def firAppend (f : FirRecord) (inp : Nat) (m : Memory) : Memory :=
  forUp f.block
    (fun k m => m.write (f.state + (f.taps - 1 + k) * f.bytes) f.bytes
      (m.read (inp + k * f.bytes) f.bytes)) m

/-- Step 2 of `FIRPROC`: one dot product per output, narrowed once (R152). -/
def firOutputs (r : Rounding) (f : FirRecord) (out : Nat) (m : Memory) : Memory :=
  forUp (f.block / f.decim)
    (fun i m => m.writeS (out + i * f.bytes) f.bytes
      (sat f.bits (rndShr r
        (firDot m f.coef (f.state + i * f.decim * f.bytes) f.taps f.bytes) f.frac))) m

/-- Step 3 of `FIRPROC`: the last `N - 1` samples become the next call's history (R152). -/
def firHistory (f : FirRecord) (m : Memory) : Memory :=
  forUp (f.taps - 1)
    (fun k m => m.write (f.state + k * f.bytes) f.bytes
      (m.read (f.state + (f.block + k) * f.bytes) f.bytes)) m

/-- `FIRPROC`'s writes in order, `PHASE <- Streaming` last (R152, R37). -/
def firprocMem (r : Rounding) (f : FirRecord) (d inp out : Nat) (m : Memory) : Memory :=
  (firHistory f (firOutputs r f out (firAppend f inp m))).write (d + 0x18) 4 1

/-- The contract of `FIRPROC` (R152): the record, the coefficient array, the state buffer, the input and the output
block exist, are aligned, and no two of them overlap. How large a buffer the host set aside is in no state, so a state
buffer is too small (R290, U1) here only where the `N - 1 + L` samples of the record as it now stands do not exist or
overlap another buffer: DESIGN CHOICE (unsafe; notes/assumptions/19.md). -/
def firprocStop (s : State) (d inp out : Nat) : Option Stop :=
  firstStop
    [ s.bufferStop 4 ⟨d, 32⟩,
      require (decide (1 ≤ (firRecord s.mem d).taps)) .firContract,
      require (decide (1 ≤ (firRecord s.mem d).decim)) .firContract,
      require (decide (1 ≤ (firRecord s.mem d).block)) .firContract,
      require (decide ((firRecord s.mem d).block % (firRecord s.mem d).decim = 0)) .firContract,
      require (firRecord s.mem d).fmtOk .firContract,
      s.bufferStop (firRecord s.mem d).bytes (firRecord s.mem d).coefBuffer,
      s.bufferStop (firRecord s.mem d).bytes (firRecord s.mem d).stateBuffer,
      s.bufferStop (firRecord s.mem d).bytes ((firRecord s.mem d).inBuffer inp),
      s.bufferStop (firRecord s.mem d).bytes ((firRecord s.mem d).outBuffer out),
      overlapStop ⟨d, 32⟩
        [(firRecord s.mem d).coefBuffer, (firRecord s.mem d).stateBuffer,
         (firRecord s.mem d).inBuffer inp, (firRecord s.mem d).outBuffer out],
      overlapStop (firRecord s.mem d).coefBuffer
        [(firRecord s.mem d).stateBuffer, (firRecord s.mem d).inBuffer inp,
         (firRecord s.mem d).outBuffer out],
      overlapStop (firRecord s.mem d).stateBuffer
        [(firRecord s.mem d).inBuffer inp, (firRecord s.mem d).outBuffer out],
      overlapStop ((firRecord s.mem d).inBuffer inp) [(firRecord s.mem d).outBuffer out] ]

/-- `FIRPROC xdesc, xin, xout` (R152). It reads neither `PHASE` nor any trace of `FIRINIT` (R291). -/
def execFirproc (rs1 rs2 rs3 : Reg) (s : State) : Result :=
  unlessStop (firprocStop s (s.low32 rs1) (s.low32 rs2) (s.low32 rs3))
    (.next (s.finishMem (firprocMem s.rnd (firRecord s.mem (s.low32 rs1))
      (s.low32 rs1) (s.low32 rs2) (s.low32 rs3) s.mem)))

end Sys2Proof.Machine
end

