-- ==== Sys2Proof/Machine/Tensor.lean ====
section
/-! DEFINITION. The quantized tensor kernels (R200 to R225): `DWCONV`, `MAXPOOL`, `RELU`, `UNPACK4`, `PACK4`. -/

namespace Sys2Proof.Machine

/-- `at(P, H, Wd, C, E; b, y, x, c)`: row-major, channel-last (R38, R200). -/
def tensorAt (p h wd ch e b y x c : Nat) : Nat := p + (((b * h + y) * wd + x) * ch + c) * e

/-- `sext_4` of the nibble `i` of a byte: bits 3:0 when `i` is even, 7:4 when it is odd (R202). -/
def nibbleOf (v i : Nat) : Int := sext 4 (if i % 2 = 0 then v % 16 else v / 16)

/-- `nib(P, i)`, value `i` of the packed stream at `P` (R39, R202). -/
def nib (m : Memory) (p i : Nat) : Int := nibbleOf (m.read (p + i / 2) 1) i

/-- The 22 fields of a `DWCONV` descriptor (R41). -/
structure DwDesc where
  inPtr : Nat
  wgtPtr : Nat
  biasPtr : Nat
  multPtr : Nat
  shiftPtr : Nat
  outPtr : Nat
  batch : Int
  inH : Nat
  inW : Nat
  ch : Nat
  kH : Nat
  kW : Nat
  strideH : Nat
  strideW : Nat
  padH : Int
  padW : Int
  outH : Nat
  outW : Nat
  inOffset : Int
  outOffset : Int
  actMin : Int
  actMax : Int
deriving DecidableEq, Repr

/-- Reading the descriptor at `d` (R41). -/
def dwDesc (m : Memory) (d : Nat) : DwDesc where
  inPtr := m.word d 0x00
  wgtPtr := m.word d 0x04
  biasPtr := m.word d 0x08
  multPtr := m.word d 0x0C
  shiftPtr := m.word d 0x10
  outPtr := m.word d 0x14
  batch := m.wordS d 0x18
  inH := m.word d 0x1C
  inW := m.word d 0x20
  ch := m.word d 0x24
  kH := m.word d 0x28
  kW := m.word d 0x2C
  strideH := m.word d 0x30
  strideW := m.word d 0x34
  padH := m.wordS d 0x38
  padW := m.wordS d 0x3C
  outH := m.word d 0x40
  outW := m.word d 0x44
  inOffset := m.wordS d 0x48
  outOffset := m.wordS d 0x4C
  actMin := m.wordS d 0x50
  actMax := m.wordS d 0x54

/-- The descriptor, 88 bytes (R41). -/
def dwDescBuffer (d : Nat) : Buffer := ⟨d, 88⟩

/-- The input tensor (R41). -/
def DwDesc.inBuffer (q : DwDesc) : Buffer := ⟨q.inPtr, q.batch.toNat * q.inH * q.inW * q.ch⟩

/-- The packed weights, `ceil(K_H * K_W * CH / 2)` bytes (R39, R41). -/
def DwDesc.wgtBuffer (q : DwDesc) : Buffer := ⟨q.wgtPtr, (q.kH * q.kW * q.ch + 1) / 2⟩

/-- `BIAS[0..CH-1]` (R40). -/
def DwDesc.biasBuffer (q : DwDesc) : Buffer := ⟨q.biasPtr, 4 * q.ch⟩

/-- `MULT[0..CH-1]` (R40). -/
def DwDesc.multBuffer (q : DwDesc) : Buffer := ⟨q.multPtr, 4 * q.ch⟩

/-- `SHIFT[0..CH-1]` (R40). -/
def DwDesc.shiftBuffer (q : DwDesc) : Buffer := ⟨q.shiftPtr, 4 * q.ch⟩

/-- The output tensor (R41). -/
def DwDesc.outBuffer (q : DwDesc) : Buffer := ⟨q.outPtr, q.batch.toNat * q.outH * q.outW * q.ch⟩

/-- Every field marked `>= 1` in R41 is so. -/
def DwDesc.fieldsOk (q : DwDesc) : Bool :=
  decide (1 ≤ q.inH ∧ 1 ≤ q.inW ∧ 1 ≤ q.ch ∧ 1 ≤ q.kH ∧ 1 ≤ q.kW ∧ 1 ≤ q.strideH ∧ 1 ≤ q.strideW ∧
    1 ≤ q.outH ∧ 1 ≤ q.outW)

/-- The contract of `DWCONV` past the batch check (R205): the fields, the six arrays, and an output that overlaps
nothing the command reads. -/
def dwconvStop (s : State) (d : Nat) (q : DwDesc) : Option Stop :=
  firstStop
    [ require q.fieldsOk .dwconvContract,
      require (decide (q.actMin ≤ q.actMax)) .activationBounds,
      s.bufferStop 1 q.inBuffer,
      s.bufferStop 1 q.wgtBuffer,
      s.bufferStop 4 q.biasBuffer,
      s.bufferStop 4 q.multBuffer,
      s.bufferStop 4 q.shiftBuffer,
      s.bufferStop 1 q.outBuffer,
      overlapStop q.outBuffer
        [dwDescBuffer d, q.inBuffer, q.wgtBuffer, q.biasBuffer, q.multBuffer, q.shiftBuffer] ]

/-- The input row or column that kernel row or column `k` of output row or column `o` meets (R205). -/
def windowPos (o stride : Nat) (pad : Int) (k : Nat) : Int := (o * stride : Nat) - pad + k

/-- One kernel position's step of the accumulation; a position outside the input is skipped (R205, R207). -/
def dwTap (m : Memory) (q : DwDesc) (b oy ox c ky kx : Nat) (acc : Int) : Int :=
  let y := windowPos oy q.strideH q.padH ky
  let x := windowPos ox q.strideW q.padW kx
  if 0 ≤ y ∧ y < q.inH ∧ 0 ≤ x ∧ x < q.inW then
    sat Config.accBits (acc +
      (m.readS (tensorAt q.inPtr q.inH q.inW q.ch 1 b y.toNat x.toNat c) 1 + q.inOffset) *
        nib m q.wgtPtr ((ky * q.kW + kx) * q.ch + c))
  else acc

/-- The accumulator of one output element, from the bias, in the order `ky` then `kx` (R205, R207). -/
def dwAcc (m : Memory) (q : DwDesc) (b oy ox c : Nat) : Int :=
  forUp q.kH (fun ky acc => forUp q.kW (fun kx acc => dwTap m q b oy ox c ky kx acc) acc)
    (m.readS (q.biasPtr + 4 * c) 4)

/-- The post-processing: requantize, add the output offset, clamp, narrow (R208). -/
def dwPost (r : Rounding) (m : Memory) (q : DwDesc) (c : Nat) (acc : Int) : Int :=
  sat 8 (clamp
    (requantize r acc (m.readS (q.multPtr + 4 * c) 4) (m.read (q.shiftPtr + 4 * c) 4) 8 + q.outOffset)
    q.actMin q.actMax)

/-- `DWCONV`'s writes, in the order `b`, `oy`, `ox`, `c` (R205). -/
def dwconvMem (r : Rounding) (q : DwDesc) (m : Memory) : Memory :=
  forUp q.batch.toNat (fun b m =>
    forUp q.outH (fun oy m =>
      forUp q.outW (fun ox m =>
        forUp q.ch (fun c m =>
          m.writeS (tensorAt q.outPtr q.outH q.outW q.ch 1 b oy ox c) 1
            (dwPost r m q c (dwAcc m q b oy ox c))) m) m) m) m

/-- `DWCONV xdesc` (R205): first the capability, before anything is read; then the batch count (R206, R253). -/
def execDwconv (rs1 : Reg) (s : State) : Result :=
  if s.plat.hasVec then
    unlessStop (s.bufferStop 4 (dwDescBuffer (s.low32 rs1)))
      (if (dwDesc s.mem (s.low32 rs1)).batch ≤ 0 then .next (s.raise .argumentError)
       else
        unlessStop (dwconvStop s (s.low32 rs1) (dwDesc s.mem (s.low32 rs1)))
          (.next (s.finishMem (dwconvMem s.rnd (dwDesc s.mem (s.low32 rs1)) s.mem))))
  else .next (s.raise .noImplementation)

/-- The 16 fields of a `MAXPOOL` descriptor (R42). -/
structure PoolDesc where
  inPtr : Nat
  outPtr : Nat
  batch : Int
  inH : Nat
  inW : Nat
  ch : Nat
  kH : Nat
  kW : Nat
  strideH : Nat
  strideW : Nat
  padH : Int
  padW : Int
  outH : Nat
  outW : Nat
  actMin : Int
  actMax : Int
deriving DecidableEq, Repr

/-- Reading the descriptor at `d` (R42). -/
def poolDesc (m : Memory) (d : Nat) : PoolDesc where
  inPtr := m.word d 0x00
  outPtr := m.word d 0x04
  batch := m.wordS d 0x08
  inH := m.word d 0x0C
  inW := m.word d 0x10
  ch := m.word d 0x14
  kH := m.word d 0x18
  kW := m.word d 0x1C
  strideH := m.word d 0x20
  strideW := m.word d 0x24
  padH := m.wordS d 0x28
  padW := m.wordS d 0x2C
  outH := m.word d 0x30
  outW := m.word d 0x34
  actMin := m.wordS d 0x38
  actMax := m.wordS d 0x3C

/-- The descriptor, 64 bytes (R42). -/
def poolDescBuffer (d : Nat) : Buffer := ⟨d, 64⟩

/-- The input tensor, elements of `e` bytes (R42). -/
def PoolDesc.inBuffer (q : PoolDesc) (e : Nat) : Buffer :=
  ⟨q.inPtr, q.batch.toNat * q.inH * q.inW * q.ch * e⟩

/-- The output tensor, elements of `e` bytes (R42). -/
def PoolDesc.outBuffer (q : PoolDesc) (e : Nat) : Buffer :=
  ⟨q.outPtr, q.batch.toNat * q.outH * q.outW * q.ch * e⟩

/-- Every field marked `>= 1` in R42 is so. -/
def PoolDesc.fieldsOk (q : PoolDesc) : Bool :=
  decide (1 ≤ q.inH ∧ 1 ≤ q.inW ∧ 1 ≤ q.ch ∧ 1 ≤ q.kH ∧ 1 ≤ q.kW ∧ 1 ≤ q.strideH ∧ 1 ≤ q.strideW ∧
    1 ≤ q.outH ∧ 1 ≤ q.outW)

/-- The contract of `MAXPOOL` past the batch check (R212). -/
def maxpoolStop (s : State) (d e : Nat) (q : PoolDesc) : Option Stop :=
  firstStop
    [ require q.fieldsOk .maxpoolContract,
      require (decide (q.actMin ≤ q.actMax)) .activationBounds,
      s.bufferStop e (q.inBuffer e),
      s.bufferStop e (q.outBuffer e),
      overlapStop (q.inBuffer e) [q.outBuffer e, poolDescBuffer d],
      overlapStop (q.outBuffer e) [poolDescBuffer d] ]

/-- `ys` or `xs`: the start of a window, clamped to the input (R211). -/
def windowStart (o stride : Nat) (pad : Int) : Nat := (windowPos o stride pad 0).toNat

/-- `ye` or `xe`: the end of a window, clamped to the input (R211); 0 when it ends before the input begins. -/
def windowEnd (o stride : Nat) (pad : Int) (k n : Nat) : Nat :=
  (min (n : Int) (windowPos o stride pad k)).toNat

/-- Where element `(b, y, x, c)` of the input stands (R38). -/
def PoolDesc.inAt (q : PoolDesc) (e b y x c : Nat) : Nat := tensorAt q.inPtr q.inH q.inW q.ch e b y x c

/-- Where element `(b, oy, ox, c)` of the output stands (R38). -/
def PoolDesc.outAt (q : PoolDesc) (e b oy ox c : Nat) : Nat :=
  tensorAt q.outPtr q.outH q.outW q.ch e b oy ox c

/-- One window position of pass 1, all channels: the first is copied, the others are merged by `max`; there is no
sentinel (R212). -/
def poolVisit (q : PoolDesc) (e b oy ox y x : Nat) (first : Bool) (m : Memory) : Memory :=
  forUp q.ch (fun c m =>
    if first then m.writeS (q.outAt e b oy ox c) e (m.readS (q.inAt e b y x c) e)
    else m.writeS (q.outAt e b oy ox c) e
      (max (m.readS (q.outAt e b oy ox c) e) (m.readS (q.inAt e b y x c) e))) m

/-- The window of one output position, rows then columns; an empty window writes nothing (R211, R212, R214). -/
def poolWindow (q : PoolDesc) (e b oy ox : Nat) (m : Memory) : Memory :=
  let ys := windowStart oy q.strideH q.padH
  let ye := windowEnd oy q.strideH q.padH q.kH q.inH
  let xs := windowStart ox q.strideW q.padW
  let xe := windowEnd ox q.strideW q.padW q.kW q.inW
  forUp (ye - ys) (fun dy m =>
    forUp (xe - xs) (fun dx m =>
      poolVisit q e b oy ox (ys + dy) (xs + dx) (dy == 0 && dx == 0) m) m) m

/-- Pass 1 of one batch: all its windows (R212). -/
def poolPass1 (q : PoolDesc) (e b : Nat) (m : Memory) : Memory :=
  forUp q.outH (fun oy m => forUp q.outW (fun ox m => poolWindow q e b oy ox m) m) m

/-- Pass 2 of one batch: its whole output block is clamped (R212). -/
def poolPass2 (q : PoolDesc) (e b : Nat) (m : Memory) : Memory :=
  forUp (q.outH * q.outW * q.ch) (fun k m =>
    m.writeS (q.outAt e b 0 0 0 + k * e) e
      (sat (8 * e) (clamp (m.readS (q.outAt e b 0 0 0 + k * e) e) q.actMin q.actMax))) m

/-- `MAXPOOL`'s writes (R212). -/
def maxpoolMem (q : PoolDesc) (e : Nat) (m : Memory) : Memory :=
  forUp q.batch.toNat (fun b m => poolPass2 q e b (poolPass1 q e b m)) m

/-- `MAXPOOL.W xdesc` (R212). The width 32 is no encoding of it and raises `IllegalCommand` (R96). -/
def execMaxpool (rs1 : Reg) (w : Width) (s : State) : Result :=
  if w.narrow then
    unlessStop (s.bufferStop 4 (poolDescBuffer (s.low32 rs1)))
      (if (poolDesc s.mem (s.low32 rs1)).batch ≤ 0 then .next (s.raise .argumentError)
       else
        unlessStop (maxpoolStop s (s.low32 rs1) (bytesOf w) (poolDesc s.mem (s.low32 rs1)))
          (.next (s.finishMem (maxpoolMem (poolDesc s.mem (s.low32 rs1)) (bytesOf w) s.mem))))
  else .next (s.raise .illegalCommand)

/-- `RELU`'s writes: `max(0, v)` in place (R219). -/
def reluMem (p e n : Nat) (m : Memory) : Memory :=
  forUp n (fun i m => m.writeS (p + i * e) e (max 0 (m.readS (p + i * e) e))) m

/-- `RELU.W xptr, xn` (R219). The width 32 is no encoding of it and raises `IllegalCommand` (R96). -/
def execRelu (rs1 rs2 : Reg) (w : Width) (s : State) : Result :=
  if w.narrow then
    unlessStop (s.bufferStop (bytesOf w) ⟨s.low32 rs1, s.low32 rs2 * bytesOf w⟩)
      (.next (s.finishMem (reluMem (s.low32 rs1) (bytesOf w) (s.low32 rs2) s.mem)))
  else .next (s.raise .illegalCommand)

/-- The packed stream of `n` 4-bit values, `ceil(n / 2)` bytes (R39). -/
def packedBuffer (p n : Nat) : Buffer := ⟨p, (n + 1) / 2⟩

/-- `n` bytes (R223, R224). -/
def bytesBuffer (p n : Nat) : Buffer := ⟨p, n⟩

/-- The contract of `UNPACK4` and of `PACK4` (R223, R224): both buffers exist and do not overlap. -/
def packStop (s : State) (src dst : Buffer) : Option Stop :=
  firstStop [s.bufferStop 1 src, s.bufferStop 1 dst, overlapStop src [dst]]

/-- `UNPACK4`'s writes (R223). -/
def unpackMem (src dst n : Nat) (m : Memory) : Memory :=
  forUp n (fun i m => m.writeS (dst + i) 1 (nib m src i)) m

/-- `UNPACK4 xsrc, xdst, xn` (R223). -/
def execUnpack4 (rs1 rs2 rs3 : Reg) (s : State) : Result :=
  unlessStop
    (packStop s (packedBuffer (s.low32 rs1) (s.low32 rs3)) (bytesBuffer (s.low32 rs2) (s.low32 rs3)))
    (.next (s.finishMem (unpackMem (s.low32 rs1) (s.low32 rs2) (s.low32 rs3) s.mem)))

/-- The two's-complement nibble of a value that is saturated to 4 bits (R224). -/
def packNibble (v : Int) : Nat := (BitVec.ofInt 4 (sat 4 v)).toNat

/-- `PACK4`'s writes; with an odd count the pad nibble is 0 (R224). -/
def packMem (src dst n : Nat) (m : Memory) : Memory :=
  forUp ((n + 1) / 2)
    (fun j m => m.write (dst + j) 1
      ((if 2 * j + 1 < n then packNibble (m.readS (src + 2 * j + 1) 1) else 0) * 16 +
        packNibble (m.readS (src + 2 * j) 1))) m

/-- `PACK4 xsrc, xdst, xn` (R224). -/
def execPack4 (rs1 rs2 rs3 : Reg) (s : State) : Result :=
  unlessStop
    (packStop s (bytesBuffer (s.low32 rs1) (s.low32 rs3)) (packedBuffer (s.low32 rs2) (s.low32 rs3)))
    (.next (s.finishMem (packMem (s.low32 rs1) (s.low32 rs2) (s.low32 rs3) s.mem)))

end Sys2Proof.Machine
end

