-- ==== Sys2Proof/Machine/Dispatch.lean ====
section
/-! DEFINITION. One command's meaning, by constructor. -/

namespace Sys2Proof.Machine

def exec (i : Instr) (s : State) : Host.Outcome State Fault Refusal :=
  match i with
  | .sat rd rs1 imm6 => Sys2Proof.Machine.execSat rd rs1 imm6 s
  | .sadd rd rs1 rs2 w => Sys2Proof.Machine.execSadd rd rs1 rs2 w s
  | .ssub rd rs1 rs2 w => Sys2Proof.Machine.execSsub rd rs1 rs2 w s
  | .smul rd rs1 rs2 w imm6 => Sys2Proof.Machine.execSmul rd rs1 rs2 w imm6 s
  | .sshl rd rs1 rs2 w => Sys2Proof.Machine.execSshl rd rs1 rs2 w s
  | .sshr rd rs1 rs2 w => Sys2Proof.Machine.execSshr rd rs1 rs2 w s
  | .requant rd rs1 rs2 rs3 w => Sys2Proof.Machine.execRequant rd rs1 rs2 rs3 w s
  | .firinit rs1 => Sys2Proof.Machine.execFirinit rs1 s
  | .firproc rs1 rs2 rs3 => Sys2Proof.Machine.execFirproc rs1 rs2 rs3 s
  | .cmag rs1 rs2 rs3 => Sys2Proof.Machine.execCmag rs1 rs2 rs3 s
  | .atan2 rd rs1 rs2 => Sys2Proof.Machine.execAtan2 rd rs1 rs2 s
  | .dwconv rs1 => Sys2Proof.Machine.execDwconv rs1 s
  | .maxpool rs1 w => Sys2Proof.Machine.execMaxpool rs1 w s
  | .relu rs1 rs2 w => Sys2Proof.Machine.execRelu rs1 rs2 w s
  | .unpack4 rs1 rs2 rs3 => Sys2Proof.Machine.execUnpack4 rs1 rs2 rs3 s
  | .pack4 rs1 rs2 rs3 => Sys2Proof.Machine.execPack4 rs1 rs2 rs3 s

end Sys2Proof.Machine
end

