-- ==== Sys2Proof/Machine/Flags.lean ====
section
/-! DEFINITION. There are no condition codes, no carry, overflow or saturation flags and no predicates (R23). The only
status-like state is `STATUS.CODE`; this file gives the words the host reads for it and for the other control
registers with fields: `STATUS` (R26), `CTRL` (R29), `CAP` (R30). -/

namespace Sys2Proof.Machine

/-- The number of a status code (R26, R250). -/
def Status.code : Status → BitVec 3
  | .success => 0#3
  | .argumentError => 1#3
  | .noImplementation => 2#3
  | .naNInf => 3#3
  | .illegalCommand => 4#3

/-- `STATUS`: `CODE` in bits 2:0, the rest reads as 0 (R26). -/
def State.statusWord (s : State) : Word := 0#29 ++ s.status.code

/-- `CTRL.RND` as the bit the host sees (R29). -/
def Rounding.bit : Rounding → BitVec 1
  | .halfUp => 0#1
  | .halfEven => 1#1

/-- `CTRL.RND` from the bit the host writes (R29). -/
def Rounding.ofBit (b : BitVec 1) : Rounding :=
  if b = 1#1 then .halfEven else .halfUp

/-- `CTRL`: `RND` in bit 0, the rest reads as 0 (R29). -/
def State.ctrlWord (s : State) : Word := 0#31 ++ s.rnd.bit

/-- `CAP`: `VEC` in bit 0, `LANES` in bits 15:8, the rest 0 (R30). -/
def State.capWord (s : State) : Word :=
  0#16 ++ s.plat.magLanes ++ 0#7 ++ BitVec.ofBool s.plat.hasVec

end Sys2Proof.Machine
end

