-- ==== Sys2Proof/Machine/HostPort.lean ====
section
/-! DEFINITION. The host port (R24, R25, R261, R262): the transactions the host performs between commands, the issue of
a command by a write to `CMD`, and the offsets of the host register map. -/

namespace Sys2Proof.Machine

/-- Issuing the command word `w`: it is decoded and executed as one atomic step (R25, R262); a word that does not
decode raises `IllegalCommand` and does nothing else (R94, R252). -/
def issue (w : Word) (s : State) : Result :=
  match decode w with
  | .ok i => exec i s
  | .error _ => .next (s.raise .illegalCommand)

/-- `ATAN_COEF[i] <- v[15:0]` (R32, R262); a number past 9 names no coefficient. -/
def State.setCoef (s : State) (i : Nat) (v : Word) : State :=
  { s with atanCoef := s.atanCoef.setIfInBounds i (v.setWidth 16) }

/-- `HostWriteCsr(n, v)` for every `n` but 0 (R24, R262): `CTRL.RND`, `ISQRT_MAGIC`, `ATAN_COEF[i]`; a write to any
other number, and to a reserved bit, is ignored. -/
def State.writeCsr (s : State) (n : BitVec 6) (v : Word) : State :=
  if n = 2#6 then { s with rnd := Rounding.ofBit (v.extractLsb' 0 1) }
  else if n = 4#6 then { s with isqrtMagic := v }
  else if 8 ≤ n.toNat ∧ n.toNat ≤ 17 then s.setCoef (n.toNat - 8) v
  else s

/-- `HostReadCsr(n)` (R24, R262): `CMD` and the reserved numbers read as 0. -/
def State.readCsr (s : State) (n : BitVec 6) : Word :=
  if n = 1#6 then s.statusWord
  else if n = 2#6 then s.ctrlWord
  else if n = 3#6 then s.capWord
  else if n = 4#6 then s.isqrtMagic
  else if 8 ≤ n.toNat ∧ n.toNat ≤ 17 then (s.atanCoef.getD (n.toNat - 8) 0#16).setWidth 32
  else 0#32

/-- The state with the host's answer. -/
def State.withReply (s : State) (r : HostReply) : State := { s with reply := r }

/-- One transaction (R262), or the platform's reset (R280). The host's own memory accesses have no alignment rule;
their bytes must exist (R61, R65; notes/assumptions/7.md). -/
def hostStep (t : HostTxn) (s : State) : Result :=
  match t with
  | .writeReg i v => .next ((s.setX i v).withReply .done)
  | .readReg i => .next (s.withReply (.reg (s.getX i)))
  | .writeCsr n v =>
    if n = 0#6 then issue v (s.withReply .done) else .next ((s.writeCsr n v).withReply .done)
  | .readCsr n => .next (s.withReply (.csr (s.readCsr n)))
  | .memWrite a n v =>
    unlessStop (s.existStop ⟨a.toNat, n⟩)
      (.next ({ s with mem := s.mem.write a.toNat n v }.withReply .done))
  | .memRead a n =>
    unlessStop (s.existStop ⟨a.toNat, n⟩) (.next (s.withReply (.mem (s.mem.read a.toNat n))))
  | .reset => .next (s.platformReset.withReply .done)

/-- What an offset of the host register map names (R261). -/
inductive MapEntry where
  /-- Byte `k` of general register `i`, byte 0 the lowest. -/
  | xByte (i : Reg) (k : Nat)
  /-- Byte `k` of control register number `n`. -/
  | csrByte (n : BitVec 6) (k : Nat)
  /-- Reads as 0, writes are ignored. -/
  | reserved
deriving DecidableEq, Repr

/-- The host register map (R261): `x[i]` at `0x000 + 8 * i`, control register `n` at `0x100 + 4 * n`, between them
reserved; the window is 512 bytes. -/
def mapEntry (off : Nat) : Option MapEntry :=
  if off < 0x080 then some (.xByte (BitVec.ofNat 4 (off / 8)) (off % 8))
  else if off < 0x100 then some .reserved
  else if off < 0x200 then some (.csrByte (BitVec.ofNat 6 ((off - 0x100) / 4)) (off % 4))
  else none

/-- Byte `k` of a word, byte 0 the lowest (R62). -/
def byteOf (v k : Nat) : Byte := BitVec.ofNat 8 (v / 256 ^ k)

/-- The byte the host sees at an offset of the register window (R261): the low word of `x[i]` at the lower offset,
reserved offsets and numbers 0. -/
def State.mapByte (s : State) (off : Nat) : Option Byte :=
  match mapEntry off with
  | none => none
  | some (.xByte i k) => some (byteOf (s.getX i).toNat k)
  | some (.csrByte n k) => some (byteOf (s.readCsr n).toNat k)
  | some .reserved => some 0#8

end Sys2Proof.Machine
end

