-- ==== Sys2Proof/Machine/Step.lean ====
section
/-! DEFINITION. One step of the machine: the next event at its boundary. There is no program counter and no fetch
(R22); the ENGINE has no step of its own between commands (R14), so with no event waiting nothing changes. -/

namespace Sys2Proof.Machine

/-- The state as the next event takes effect: the event has left the queue. -/
def State.popped (s : State) : State := { s with queue := s.queue.tail }

/-- One step: the transaction at the head of the queue (R262); idle when there is none (R14, R280). -/
def step (s : State) : Host.Outcome State Fault Refusal :=
  match s.queue with
  | [] => .next s
  | t :: _ => hostStep t s.popped

/-- The state in which the host's next transaction is the write of the command word to `CMD` (R25). -/
def State.withFetchWord (s : State) (nbits w : Nat) : State :=
  { s with queue := .writeCsr 0#6 (BitVec.ofNat 32 (w % 2 ^ nbits)) :: s.queue }

end Sys2Proof.Machine
end

