-- ==== Sys2Proof/Safety.lean ====
section
/-! DEFINITION. The terms the claims use: which addresses exist, what a caller contract asks (R13, R63, R65, R73), what a
command may write, the machine's invariant, and the arithmetic of R9 and R10 said without the model's functions. -/

namespace Sys2Proof.Machine

/-! ## Buffers and contracts -/

/-- The byte address exists: below 2^32 (R60) and in an admitted region (R65). -/
def State.Exists (s : State) (a : Nat) : Prop :=
  a < Config.spaceBytes ∧ ∃ r ∈ s.plat.regions, r.contains a

/-- The address is one of the buffer's bytes. -/
def Buffer.Holds (b : Buffer) (a : Nat) : Prop := b.base ≤ a ∧ a < b.base + b.size

/-- The command may access the buffer as elements of `align` bytes: naturally aligned (R63), every byte exists (R61,
R65); a buffer of no bytes is never accessed. -/
def State.Usable (s : State) (align : Nat) (b : Buffer) : Prop :=
  b.size = 0 ∨ (b.base % align = 0 ∧ ∀ a, b.Holds a → s.Exists a)

/-- Two buffers share no byte (R73). -/
def Buffer.Apart (b c : Buffer) : Prop := ∀ a, b.Holds a → ¬ c.Holds a

/-- The contract of `FMT` (R35). -/
def FirRecord.FmtLegal (f : FirRecord) : Prop :=
  f.fmt % 4 ≠ 3 ∧ f.fmt = f.fmt % 4 + 256 * (f.fmt / 256 % 64)

/-- The contract of `FIRINIT` on the record at `d` (R151). -/
structure FirinitContract (s : State) (d : Nat) : Prop where
  head : s.Usable 4 ⟨d + 0x04, 8⟩
  rest : s.Usable 4 ⟨d + 0x10, 12⟩
  taps : 1 ≤ (firRecord s.mem d).taps
  block : 1 ≤ (firRecord s.mem d).block
  fmt : (firRecord s.mem d).FmtLegal
  state : s.Usable (firRecord s.mem d).bytes (firRecord s.mem d).stateBuffer
  apart : (firRecord s.mem d).stateBuffer.Apart ⟨d, 32⟩

/-- The contract of `FIRPROC` on the record at `d`, the input block at `inp` and the output block at `out` (R152). -/
structure FirprocContract (s : State) (d inp out : Nat) : Prop where
  record : s.Usable 4 ⟨d, 32⟩
  taps : 1 ≤ (firRecord s.mem d).taps
  decim : 1 ≤ (firRecord s.mem d).decim
  block : 1 ≤ (firRecord s.mem d).block
  multiple : (firRecord s.mem d).decim ∣ (firRecord s.mem d).block
  fmt : (firRecord s.mem d).FmtLegal
  coef : s.Usable (firRecord s.mem d).bytes (firRecord s.mem d).coefBuffer
  state : s.Usable (firRecord s.mem d).bytes (firRecord s.mem d).stateBuffer
  input : s.Usable (firRecord s.mem d).bytes ((firRecord s.mem d).inBuffer inp)
  output : s.Usable (firRecord s.mem d).bytes ((firRecord s.mem d).outBuffer out)
  recordCoef : Buffer.Apart ⟨d, 32⟩ (firRecord s.mem d).coefBuffer
  recordState : Buffer.Apart ⟨d, 32⟩ (firRecord s.mem d).stateBuffer
  recordInput : Buffer.Apart ⟨d, 32⟩ ((firRecord s.mem d).inBuffer inp)
  recordOutput : Buffer.Apart ⟨d, 32⟩ ((firRecord s.mem d).outBuffer out)
  coefState : (firRecord s.mem d).coefBuffer.Apart (firRecord s.mem d).stateBuffer
  coefInput : (firRecord s.mem d).coefBuffer.Apart ((firRecord s.mem d).inBuffer inp)
  coefOutput : (firRecord s.mem d).coefBuffer.Apart ((firRecord s.mem d).outBuffer out)
  stateInput : (firRecord s.mem d).stateBuffer.Apart ((firRecord s.mem d).inBuffer inp)
  stateOutput : (firRecord s.mem d).stateBuffer.Apart ((firRecord s.mem d).outBuffer out)
  inputOutput : ((firRecord s.mem d).inBuffer inp).Apart ((firRecord s.mem d).outBuffer out)

/-- The contract of `CMAG` (R171). -/
structure CmagContract (s : State) (src dst n : Nat) : Prop where
  source : s.Usable 4 ⟨src, 8 * n⟩
  dest : s.Usable 4 ⟨dst, 4 * n⟩
  apart : Buffer.Apart ⟨src, 8 * n⟩ ⟨dst, 4 * n⟩

/-- The contract of `DWCONV` with the descriptor at `d`, past the two checks of R206 (R205). -/
structure DwconvContract (s : State) (d : Nat) : Prop where
  desc : s.Usable 4 ⟨d, 88⟩
  batch : 0 < (dwDesc s.mem d).batch
  inH : 1 ≤ (dwDesc s.mem d).inH
  inW : 1 ≤ (dwDesc s.mem d).inW
  ch : 1 ≤ (dwDesc s.mem d).ch
  kH : 1 ≤ (dwDesc s.mem d).kH
  kW : 1 ≤ (dwDesc s.mem d).kW
  strideH : 1 ≤ (dwDesc s.mem d).strideH
  strideW : 1 ≤ (dwDesc s.mem d).strideW
  outH : 1 ≤ (dwDesc s.mem d).outH
  outW : 1 ≤ (dwDesc s.mem d).outW
  bounds : (dwDesc s.mem d).actMin ≤ (dwDesc s.mem d).actMax
  input : s.Usable 1 (dwDesc s.mem d).inBuffer
  weights : s.Usable 1 (dwDesc s.mem d).wgtBuffer
  bias : s.Usable 4 (dwDesc s.mem d).biasBuffer
  mult : s.Usable 4 (dwDesc s.mem d).multBuffer
  shift : s.Usable 4 (dwDesc s.mem d).shiftBuffer
  output : s.Usable 1 (dwDesc s.mem d).outBuffer
  outDesc : (dwDesc s.mem d).outBuffer.Apart ⟨d, 88⟩
  outInput : (dwDesc s.mem d).outBuffer.Apart (dwDesc s.mem d).inBuffer
  outWeights : (dwDesc s.mem d).outBuffer.Apart (dwDesc s.mem d).wgtBuffer
  outBias : (dwDesc s.mem d).outBuffer.Apart (dwDesc s.mem d).biasBuffer
  outMult : (dwDesc s.mem d).outBuffer.Apart (dwDesc s.mem d).multBuffer
  outShift : (dwDesc s.mem d).outBuffer.Apart (dwDesc s.mem d).shiftBuffer

/-- The contract of `MAXPOOL` with the descriptor at `d` and elements of `e` bytes, past the check of R213 (R212). -/
structure MaxpoolContract (s : State) (d e : Nat) : Prop where
  desc : s.Usable 4 ⟨d, 64⟩
  batch : 0 < (poolDesc s.mem d).batch
  inH : 1 ≤ (poolDesc s.mem d).inH
  inW : 1 ≤ (poolDesc s.mem d).inW
  ch : 1 ≤ (poolDesc s.mem d).ch
  kH : 1 ≤ (poolDesc s.mem d).kH
  kW : 1 ≤ (poolDesc s.mem d).kW
  strideH : 1 ≤ (poolDesc s.mem d).strideH
  strideW : 1 ≤ (poolDesc s.mem d).strideW
  outH : 1 ≤ (poolDesc s.mem d).outH
  outW : 1 ≤ (poolDesc s.mem d).outW
  bounds : (poolDesc s.mem d).actMin ≤ (poolDesc s.mem d).actMax
  input : s.Usable e ((poolDesc s.mem d).inBuffer e)
  output : s.Usable e ((poolDesc s.mem d).outBuffer e)
  inOut : ((poolDesc s.mem d).inBuffer e).Apart ((poolDesc s.mem d).outBuffer e)
  inDesc : ((poolDesc s.mem d).inBuffer e).Apart ⟨d, 64⟩
  outDesc : ((poolDesc s.mem d).outBuffer e).Apart ⟨d, 64⟩

/-- The contract of `RELU` (R219). -/
def ReluContract (s : State) (p e n : Nat) : Prop := s.Usable e ⟨p, n * e⟩

/-- The contract of `UNPACK4` (R223). -/
structure UnpackContract (s : State) (src dst n : Nat) : Prop where
  source : s.Usable 1 ⟨src, (n + 1) / 2⟩
  dest : s.Usable 1 ⟨dst, n⟩
  apart : Buffer.Apart ⟨src, (n + 1) / 2⟩ ⟨dst, n⟩

/-- The contract of `PACK4` (R224). -/
structure PackContract (s : State) (src dst n : Nat) : Prop where
  source : s.Usable 1 ⟨src, n⟩
  dest : s.Usable 1 ⟨dst, (n + 1) / 2⟩
  apart : Buffer.Apart ⟨src, n⟩ ⟨dst, (n + 1) / 2⟩

/-- Every field marked `>= 1` in R41 is so. -/
def DwDesc.FieldsLegal (q : DwDesc) : Prop :=
  1 ≤ q.inH ∧ 1 ≤ q.inW ∧ 1 ≤ q.ch ∧ 1 ≤ q.kH ∧ 1 ≤ q.kW ∧ 1 ≤ q.strideH ∧ 1 ≤ q.strideW ∧ 1 ≤ q.outH ∧
    1 ≤ q.outW

/-- Every field marked `>= 1` in R42 is so. -/
def PoolDesc.FieldsLegal (q : PoolDesc) : Prop :=
  1 ≤ q.inH ∧ 1 ≤ q.inW ∧ 1 ≤ q.ch ∧ 1 ≤ q.kH ∧ 1 ≤ q.kW ∧ 1 ≤ q.strideH ∧ 1 ≤ q.strideW ∧ 1 ≤ q.outH ∧
    1 ≤ q.outW

/-! ## What a command may change -/

/-- The one register a command writes (R21). -/
def destOf : Instr → Option Reg
  | .sat rd _ _ => some rd
  | .sadd rd _ _ _ => some rd
  | .ssub rd _ _ _ => some rd
  | .smul rd _ _ _ _ => some rd
  | .sshl rd _ _ _ => some rd
  | .sshr rd _ _ _ => some rd
  | .requant rd _ _ _ _ => some rd
  | .atan2 rd _ _ => some rd
  | .firinit _ => none
  | .firproc _ _ _ => none
  | .cmag _ _ _ => none
  | .dwconv _ => none
  | .maxpool _ _ => none
  | .relu _ _ _ => none
  | .unpack4 _ _ _ => none
  | .pack4 _ _ _ => none

/-- A block command's end: memory and `STATUS` may have changed, nothing else. -/
def OnlyMemory (s t : State) : Prop := t = { s with mem := t.mem, status := .success }

/-- Every byte outside the buffers reads as before. -/
def SameOutside (s t : State) (bs : List Buffer) : Prop :=
  ∀ a, (∀ b ∈ bs, ¬ b.Holds a) → t.mem.readByte a = s.mem.readByte a

/-! ## The invariant -/

/-- The memory has its canonical form and lists addresses below 2^32 only, and the parameters are legal. -/
structure Inv (s : State) : Prop where
  wf : s.mem.wf
  space : ∀ c ∈ s.mem, c.1 < Config.spaceBytes
  legal : s.plat.legal

end Sys2Proof.Machine

namespace Sys2Proof.Spec

open Sys2Proof.Machine

/-! ## The arithmetic of the rules, said without the model's functions -/

/-- The low `n` bits of a register as a signed integer (R7, R120). -/
def low (n : Nat) (v : XWord) : Int := (v.setWidth n).toInt

/-- `sat_N(v)` as a clamp between the least and the greatest `n`-bit value (R8, R9). -/
def clip (n : Nat) (v : Int) : Int := max (-(2 ^ (n - 1))) (min (2 ^ (n - 1) - 1) v)

/-- `q` is `v / 2^s` rounded (R10): half-up, the integer `q` with `q - 1/2 <= v / 2^s < q + 1/2`; half-even, a nearest
integer, and an even one when two are equally near. -/
def RoundsTo (r : Rounding) (v : Int) (s : Nat) (q : Int) : Prop :=
  match r with
  | .halfUp => 2 * q * 2 ^ s ≤ 2 * v + 2 ^ s ∧ 2 * v + 2 ^ s < 2 * (q + 1) * 2 ^ s
  | .halfEven => |2 * (v - q * 2 ^ s)| ≤ 2 ^ s ∧ (|2 * (v - q * 2 ^ s)| = 2 ^ s → 0 < s → q % 2 = 0)

/-! ## Binary32 (R43, R178), said without the model's functions -/

/-- A finite binary32 pattern: exponent not all ones (R43). -/
def Finite (a : Word) : Prop := a.toNat % 2 ^ 31 < 0x7F800000

/-- An infinity: exponent all ones, fraction zero (R43). -/
def Infinite (a : Word) : Prop := a.toNat % 2 ^ 31 = 0x7F800000

/-- A NaN: exponent all ones, fraction not zero (R43). -/
def NaN (a : Word) : Prop := 0x7F800000 < a.toNat % 2 ^ 31

/-- Bit 31, the sign (R43). -/
def negative (a : Word) : Bool := a.getLsbD 31

/-- The value of a finite pattern as a multiple of 2^-149, from the sign, the exponent and the fraction (R43). -/
def value (a : Word) : Int :=
  let e := a.toNat / 2 ^ 23 % 256
  let f := a.toNat % 2 ^ 23
  (if negative a then -1 else 1) * (if e = 0 then f else (2 ^ 23 + f) * 2 ^ (e - 1) : Nat)

/-- `r` is the exact value `v * 2^-(149 + e)` rounded to nearest, ties to even (R178), its sign apart: in magnitude
below half-way past the largest finite value it is finite, nearest among all finite values, and has an even fraction
where another value is as near; from there on it is an infinity. -/
def Nearest (v : Int) (e : Nat) (r : Word) : Prop :=
  (|v| < (2 ^ 25 - 1) * 2 ^ (252 + e) → Finite r ∧
    ∀ c, Finite c →
      |value r * 2 ^ e - v| ≤ |value c * 2 ^ e - v| ∧
      (|value r * 2 ^ e - v| = |value c * 2 ^ e - v| → value c ≠ value r → r.getLsbD 0 = false)) ∧
  ((2 ^ 25 - 1) * 2 ^ (252 + e) ≤ |v| → Infinite r)

/-- `r` is the sum of `a` and `b` under the default numerics (R178): the exact sum of finite values rounded once, with its
sign, an exact zero positive unless both operands are negative; an infinite operand is the sum, but for infinities of
unlike sign; these and a NaN operand give a NaN. -/
def IsSum (a b r : Word) : Prop :=
  (Finite a → Finite b →
    Nearest (value a + value b) 0 r ∧
    (value a + value b ≠ 0 → negative r = decide (value a + value b < 0)) ∧
    (value a + value b = 0 → r = if negative a && negative b then 0x80000000#32 else 0x00000000#32)) ∧
  (Infinite a → Finite b ∨ b = a → r = a) ∧
  (Infinite b → Finite a → r = b) ∧
  (NaN a ∨ NaN b ∨ (Infinite a ∧ Infinite b ∧ negative a ≠ negative b) → NaN r)

/-- `r` is the product of `a` and `b` under the default numerics (R178): the exact product of finite values rounded once;
an infinite operand gives an infinity; the sign is negative where one operand's alone is; infinity times zero and a
NaN operand give a NaN. -/
def IsProduct (a b r : Word) : Prop :=
  (Finite a → Finite b → Nearest (value a * value b) 149 r ∧ negative r = (negative a != negative b)) ∧
  ((Infinite a ∧ ¬ NaN b ∧ b.toNat % 2 ^ 31 ≠ 0) ∨ (Infinite b ∧ ¬ NaN a ∧ a.toNat % 2 ^ 31 ≠ 0) →
    Infinite r ∧ negative r = (negative a != negative b)) ∧
  (NaN a ∨ NaN b ∨ (Infinite a ∧ b.toNat % 2 ^ 31 = 0) ∨ (Infinite b ∧ a.toNat % 2 ^ 31 = 0) → NaN r)

/-! ## The approximators, written out over the functions they are given -/

/-- `mag(re, im, k)` (R173) over four functions: the seed by a logical shift and a subtraction that wraps at 32 bits
(R174), `k` refinements left to right with the patterns of 0.5 and 1.5 (R175), the clamp of a negative estimate and
the last product (R176). -/
def magWith (add sub mul : Word → Word → Word) (lt0 : Word → Bool) (magic re im : Word) (k : Nat) : Word :=
  let sum := add (mul re re) (mul im im)
  let seed : Word := BitVec.ofNat 32 ((magic.toNat + (2 ^ 32 - sum.toNat / 2)) % 2 ^ 32)
  let newton : Word → Word := fun y =>
    let t1 := mul 0x3F000000#32 sum
    let t2 := mul t1 y
    let t3 := mul t2 y
    mul y (sub 0x3FC00000#32 t3)
  let y := newton^[k] seed
  mul sum (if lt0 y then 0x00000000#32 else y)

/-- `mag` under the numerics the platform is configured with (R178). -/
def mag (n : Numerics) (magic re im : Word) (k : Nat) : Word :=
  match n with
  | .ieeeDefault => magWith ieeeAdd ieeeSub ieeeMul ieeeLt0 magic re im k
  | .configured => magWith Config.f32Add Config.f32Sub Config.f32Mul Config.f32Lt0 magic re im k

/-- `c[i]`, the coefficient as a signed value (R32). -/
def coef (c : Vector (BitVec 16) 10) (i : Nat) : Int := if h : i < 10 then (c.get ⟨i, h⟩).toInt else 0

/-- `res 0`, ..., `res 9` are the partial results of the Horner evaluation of R185: from `c[9]` down, each pass the
product with the ratio over 2^15, rounded, plus the next coefficient. -/
def Horner (r : Rounding) (c : Vector (BitVec 16) 10) (ratio : Int) (res : Nat → Int) : Prop :=
  res 0 = coef c 9 ∧
  ∀ k, k < 9 → RoundsTo r (ratio * res k) 15 (res (k + 1) - coef c (8 - k))

/-- `v` is the value of the polynomial (R185): the last partial result over 4, rounded, saturated to 16 bits. -/
def AtanPoly (r : Rounding) (c : Vector (BitVec 16) 10) (ratio v : Int) : Prop :=
  ∃ res, Horner r c ratio res ∧ ∃ q, RoundsTo r (res 9) 2 q ∧ v = clip 16 q

/-- The angle of R180 from the value `p` of the polynomial, each step saturating to 16 bits: the swap correction, one
negation for each set flag, then plus or minus `PI_Q13` where `x` is negative. -/
def angle (y x : Int) (swap : Prop) [Decidable swap] (p : Int) : Int :=
  let a1 := if swap then clip 16 (12868 - p) else p
  let a2 := if y < 0 then clip 16 (-a1) else a1
  let a3 := if x < 0 then clip 16 (-a2) else a2
  if x < 0 then (if y > 0 then clip 16 (a3 + 25736) else clip 16 (a3 - 25736)) else a3

/-! ## Ends of a command, and what the block commands compute -/

/-- The state with a register written and `Success` reported: a scalar command's end (R120, R27). -/
def wrote (s : State) (rd : Reg) (v : Int) : State :=
  { s with x := s.x.set rd.toNat (BitVec.ofInt 64 v) rd.isLt, status := .success }

/-- The word raises `IllegalCommand` in every state and changes nothing else (R94, R252). -/
def Illegal (w : Word) : Prop := ∀ s : State, issue w s = .next { s with status := .illegalCommand }

/-- Sample `k` of what `FIRPROC` filters: the head of the state buffer, then the input block (R36, R152). -/
def firSample (m : Memory) (f : FirRecord) (inp k : Nat) : Int :=
  if k < f.taps - 1 then m.readS (f.state + k * f.bytes) f.bytes
  else m.readS (inp + (k - (f.taps - 1)) * f.bytes) f.bytes

/-- The saturating 64-bit accumulation of R153 for output `i`, in ascending `j`. -/
def firAcc (m : Memory) (f : FirRecord) (inp i : Nat) : Int :=
  (List.range f.taps).foldl
    (fun acc j => clip 64
      (acc + m.readS (f.coef + j * f.bytes) f.bytes * firSample m f inp (i * f.decim + j))) 0

/-- The accumulator of one `DWCONV` output over the memory `m` (R205, R207): from the bias, over the kernel positions in
the order `ky` then `kx`, positions outside the input skipped, each addition saturating to 64 bits. -/
def dwAccumulate (m : Memory) (q : DwDesc) (b oy ox c : Nat) : Int :=
  (List.range (q.kH * q.kW)).foldl
    (fun acc p =>
      let y : Int := (oy : Int) * q.strideH - q.padH + (p / q.kW : Nat)
      let x : Int := (ox : Int) * q.strideW - q.padW + (p % q.kW : Nat)
      if 0 ≤ y ∧ y < q.inH ∧ 0 ≤ x ∧ x < q.inW then
        clip 64 (acc +
          (m.readS (q.inPtr + (((b * q.inH + y.toNat) * q.inW + x.toNat) * q.ch + c)) 1 + q.inOffset) *
            nib m q.wgtPtr (p * q.ch + c))
      else acc)
    (m.readS (q.biasPtr + 4 * c) 4)

/-- The input position `(y, x)` lies in the window of output position `(oy, ox)` (R211). -/
def InWindow (q : PoolDesc) (oy ox y x : Nat) : Prop :=
  y < q.inH ∧ x < q.inW ∧
  (oy : Int) * q.strideH - q.padH ≤ y ∧ (y : Int) < (oy : Int) * q.strideH - q.padH + q.kH ∧
  (ox : Int) * q.strideW - q.padW ≤ x ∧ (x : Int) < (ox : Int) * q.strideW - q.padW + q.kW

end Sys2Proof.Spec
end

