-- ==== Sys2Proof/Certificates/Slice0/Obligations.lean ====
section
/-! DEFINITION. The statements for the provers. Each says in its docstring which rule of spec/ it formalises. A block
command's statement takes the command's contract as its hypothesis (`Sys2Proof/Safety.lean`) and concludes that
`exec` answers a next state with the rule's effect; reads of memory are through the model's read of one byte or of
one element. -/

open Sys2Proof Sys2Proof.Machine

/-! ## Encoding -/

/-- Decoding an encoded well-formed command gives it back, every field at every value (R91, R94, R95). -/
def Obligations.DecodeInvertsEncode : Prop :=
  ∀ i : Instr, i.wf = true → decode (encode i) = .ok i

/-- A word that decodes is the encoding of what it decodes to, which is well formed: no two words are one command and
no bit of a word is dropped (R94). -/
def Obligations.EncodeInvertsDecode : Prop :=
  ∀ (w : Word) (i : Instr), decode w = .ok i → i.wf = true ∧ encode i = w

/-- R94: a word is a legal command exactly when it matches a row of R95 under the row's mask and, for the six rows
that use `WSEL` with three values, `WSEL` is not 3; any other word raises `IllegalCommand` and changes nothing else. -/
def Obligations.LegalWordIffTableRow : Prop :=
  (∀ w : Word,
    (∃ i, decode w = .ok i) ↔
      w &&& 0xFF00FFC0#32 = 0x01000000#32 ∨
      (w &&& 0xFF000F3F#32 = 0x02000000#32 ∧ fieldWsel w ≠ 3#2) ∨
      (w &&& 0xFF000F3F#32 = 0x03000000#32 ∧ fieldWsel w ≠ 3#2) ∨
      (w &&& 0xFF000F00#32 = 0x04000000#32 ∧ fieldWsel w ≠ 3#2) ∨
      (w &&& 0xFF000F3F#32 = 0x05000000#32 ∧ fieldWsel w ≠ 3#2) ∨
      (w &&& 0xFF000F3F#32 = 0x06000000#32 ∧ fieldWsel w ≠ 3#2) ∨
      (w &&& 0xFF00003F#32 = 0x07000000#32 ∧ fieldWsel w ≠ 3#2) ∨
      w &&& 0xFFF0FFFF#32 = 0x10000000#32 ∨
      w &&& 0xFFF000FF#32 = 0x11000000#32 ∨
      w &&& 0xFFF000FF#32 = 0x20000000#32 ∨
      w &&& 0xFF000FFF#32 = 0x21000000#32 ∨
      w &&& 0xFFF0FFFF#32 = 0x30000000#32 ∨
      w &&& 0xFFF0FFBF#32 = 0x31000000#32 ∨
      w &&& 0xFFF00FBF#32 = 0x32000000#32 ∨
      w &&& 0xFFF000FF#32 = 0x33000000#32 ∨
      w &&& 0xFFF000FF#32 = 0x34000000#32) ∧
  (∀ w : Word, (¬ ∃ i, decode w = .ok i) → Spec.Illegal w)

/-- R96: the reserved opcodes, a non-zero bit in a field the row does not use, `WSEL = 3` in any command, `WSEL = 2` in
`MAXPOOL` and `RELU`, the all-zero and the all-ones word: each raises `IllegalCommand` and changes nothing else. -/
def Obligations.ReservedWordsRaiseIllegalCommand : Prop :=
  (∀ w : Word,
    (fieldOp w = 0x00#8 ∨ (0x08#8 ≤ fieldOp w ∧ fieldOp w ≤ 0x0F#8) ∨
      (0x12#8 ≤ fieldOp w ∧ fieldOp w ≤ 0x1F#8) ∨ (0x22#8 ≤ fieldOp w ∧ fieldOp w ≤ 0x2F#8) ∨
      (0x35#8 ≤ fieldOp w ∧ fieldOp w ≤ 0xFF#8)) → Spec.Illegal w) ∧
  (∀ (w : Word) (o : Opcode), fieldOp w = o.byte → w &&& (o.mask &&& 0x00FFFFFF#32) ≠ 0#32 →
    Spec.Illegal w) ∧
  (∀ w : Word, fieldWsel w = 3#2 → Spec.Illegal w) ∧
  (∀ w : Word, (fieldOp w = 0x31#8 ∨ fieldOp w = 0x32#8) → fieldWsel w = 2#2 → Spec.Illegal w) ∧
  Spec.Illegal 0x00000000#32 ∧ Spec.Illegal 0xFFFFFFFF#32

/-- Words written out from the spec's encodings (V18) decode to the commands they stand for, one of each family. -/
def Obligations.SpecWordsDecode : Prop :=
  decode 0x01A9000F#32 = .ok (.sat 10#4 9#4 15#6) ∧
  decode 0x0431204F#32 = .ok (.smul 3#4 1#4 2#4 .w16 15#6) ∧
  decode 0x07D9BC00#32 = .ok (.requant 13#4 9#4 11#4 12#4 .w8) ∧
  decode 0x11012300#32 = .ok (.firproc 1#4 2#4 3#4) ∧
  decode 0x21412000#32 = .ok (.atan2 4#4 1#4 2#4) ∧
  decode 0x31010040#32 = .ok (.maxpool 1#4 .w16)

/-! ## The step and the host port -/

/-- When the host's next transaction writes to `CMD` a word that decodes to `i`, the step is `exec` of `i`, the
transaction having left the queue and answered that it is done (R25, R262). The queue is the model's form of what the
host is going to do (its own choice: notes/assumptions/3.md). -/
def Obligations.StepRunsDecodedCommand : Prop :=
  ∀ (s : State) (w : Word) (i : Instr) (q : List HostTxn),
    s.queue = .writeCsr 0#6 w :: q → decode w = .ok i →
    step s = exec i { s with queue := q, reply := .done }

/-- A word that does not decode executes as `STATUS.CODE <- IllegalCommand` and changes nothing else of the CORE; the next
`CMD` write is decoded afresh (R252). The step also takes the transaction off the queue and sets the reply to done: these
two fields are the model's own (its choice: notes/assumptions/3.md). -/
def Obligations.IllegalWordChangesOnlyStatus : Prop :=
  ∀ (s : State) (w : Word) (q : List HostTxn),
    s.queue = .writeCsr 0#6 w :: q → (∀ i, decode w ≠ .ok i) →
    step s = .next { s with status := .illegalCommand, queue := q, reply := .done } ∧
    ∀ (w' : Word) (i : Instr) (q' : List HostTxn), q = .writeCsr 0#6 w' :: q' → decode w' = .ok i →
      step { s with status := .illegalCommand, queue := q, reply := .done } =
        exec i { s with status := .illegalCommand, queue := q', reply := .done }

/-- The ENGINE has no step of its own: with no transaction waiting nothing changes (R14, R280; the queue is the model's
own choice: notes/assumptions/3.md). -/
def Obligations.IdleStepChangesNothing : Prop :=
  ∀ s : State, s.queue = [] → step s = .next s

/-- `HostWriteReg(i, v)` then `HostReadReg(j)` (R262): the written register reads as `v`, every other as before, and
nothing but `x[i]`, the queue and the reply changes. That a register nothing has written can be read is the model's
choice (notes/assumptions/1.md). -/
def Obligations.HostRegisterReadBack : Prop :=
  ∀ (s : State) (i j : Reg) (v : XWord) (q : List HostTxn),
    s.queue = .writeReg i v :: .readReg j :: q →
    ∃ t, step s = .next t ∧
      t = { s with x := t.x, queue := .readReg j :: q, reply := .done } ∧
      step t = .next { t with queue := q, reply := .reg (if j = i then v else s.getX j) }

/-- `HostWriteCsr(n, v)` for `n` other than `CMD`, then `HostReadCsr(k)` (R24, R26, R29 to R32, R262): each writable
register reads as its writable bits of what was written, each other register as before; `CMD` and the reserved
numbers read as 0; the writes change no register but the one named, no memory and no `STATUS`. That a register nothing
has written can be read is the model's choice (notes/assumptions/1.md). -/
def Obligations.ControlRegisterReadBack : Prop :=
  ∀ (s : State) (n k : BitVec 6) (v : Word) (q : List HostTxn),
    n ≠ 0#6 → s.queue = .writeCsr n v :: .readCsr k :: q →
    ∃ t, step s = .next t ∧
      t.x = s.x ∧ t.status = s.status ∧ t.mem = s.mem ∧ t.plat = s.plat ∧
      ∃ r : Word, step t = .next { t with queue := q, reply := .csr r } ∧
        (k = 1#6 → r.toNat = s.status.code.toNat) ∧
        (k = 2#6 → n = 2#6 → r = v &&& 1#32) ∧
        (k = 2#6 → n ≠ 2#6 → r.toNat = if s.rnd = .halfEven then 1 else 0) ∧
        (k = 3#6 → r.toNat = 256 * s.plat.magLanes.toNat + if s.plat.hasVec then 1 else 0) ∧
        (k = 4#6 → r = if n = 4#6 then v else s.isqrtMagic) ∧
        (∀ i : Fin 10, k.toNat = 8 + i.val →
          r.toNat = if n = k then v.toNat % 2 ^ 16 else (s.atanCoef[i]).toNat) ∧
        ((k = 0#6 ∨ (5 ≤ k.toNat ∧ k.toNat ≤ 7) ∨ 18 ≤ k.toNat) → r = 0#32)

/-- `HostMemWrite(a, n, v)` then `HostMemRead(a, n)` where the bytes exist (R262, R62): the low `8n` bits of `v` come back,
every other byte of memory is as before, and no register changes. Which accesses the host may make is the model's
reading (notes/assumptions/7.md). -/
def Obligations.HostMemoryReadBack : Prop :=
  ∀ (s : State) (a : Word) (n v : Nat) (q : List HostTxn),
    (∀ b, (⟨a.toNat, n⟩ : Buffer).Holds b → s.Exists b) →
    s.queue = .memWrite a n v :: .memRead a n :: q →
    ∃ t, step s = .next t ∧
      t = { s with mem := t.mem, queue := .memRead a n :: q, reply := .done } ∧
      SameOutside s t [⟨a.toNat, n⟩] ∧
      step t = .next { t with queue := q, reply := .mem (v % 256 ^ n) }

/-- The host register map (R261): the sixteen general registers from offset 0, the low word at the lower offset; then
reserved offsets that read as 0; then the control registers from 0x100; nothing past 512 bytes. The map as a function
of the state is the model's choice (notes/assumptions/16.md). -/
def Obligations.HostMapReadsRegisters : Prop :=
  ∀ (s : State) (k : Nat),
    (∀ i : Reg, k < 8 → s.mapByte (8 * i.toNat + k) = some ((s.getX i).extractLsb' (8 * k) 8)) ∧
    (0x80 ≤ k → k < 0x100 → s.mapByte k = some 0#8) ∧
    (∀ n : BitVec 6, k < 4 →
      s.mapByte (0x100 + 4 * n.toNat + k) = some ((s.readCsr n).extractLsb' (8 * k) 8)) ∧
    (512 ≤ k → s.mapByte k = none)

/-! ## Reset and the invariant -/

/-- What power-on leaves, for every choice of the parameters (R44, R280): `STATUS.CODE` 0, `CTRL.RND` 0, `CAP` at its
parameters, the ENGINE idle; `State.reset` is power-on with the default parameters, the model's own choice
(notes/assumptions/2.md). -/
def Obligations.PowerOnState : Prop :=
  (∀ p : Platform,
    (State.powerOn p).readCsr 1#6 = 0#32 ∧ (State.powerOn p).readCsr 2#6 = 0#32 ∧
    ((State.powerOn p).readCsr 3#6).toNat = 256 * p.magLanes.toNat + (if p.hasVec then 1 else 0) ∧
    step (State.powerOn p) = .next (State.powerOn p)) ∧
  State.reset = State.powerOn Platform.default

/-- A reset of the CORE between commands leaves every byte of memory and the parameters as they were, sets `STATUS` and
`CTRL.RND` to 0, and so a filter that was streaming goes on: with the operand registers and the rounding mode
restored by the host, `FIRPROC` leaves the memory it would have left without the reset (R44, R280, R282). That a reset
is a step is the model's choice (notes/assumptions/13.md). -/
def Obligations.PlatformResetKeepsMemory : Prop :=
  ∀ (s : State) (q : List HostTxn), s.queue = .reset :: q →
    ∃ t, step s = .next t ∧ t.mem = s.mem ∧ t.plat = s.plat ∧ t.status = .success ∧ t.rnd = .halfUp ∧
      ∀ (a b c : Reg) (u : State), exec (.firproc a b c) s = .next u →
        ∃ v, exec (.firproc a b c) { t with x := s.x, rnd := s.rnd } = .next v ∧ v.mem = u.mem

/-- The invariant holds after power-on with legal parameters, and at `State.reset`. That the memory is then the empty list,
in its canonical form, is the model's own choice (notes/assumptions/4.md), and so are the parameters of `State.reset`
(notes/assumptions/2.md). -/
def Obligations.InvariantHoldsAtReset : Prop :=
  (∀ p : Platform, p.legal → Inv (State.powerOn p)) ∧ Inv State.reset

/-- Every step keeps the invariant: the memory keeps its canonical form and lists addresses below 2^32 only (R60), and
the parameters stay legal (R30). The canonical form is the model's own (notes/assumptions/4.md). -/
def Obligations.StepKeepsInvariant : Prop :=
  ∀ s t : State, Inv s → step s = .next t → Inv t

/-- No step changes a byte of memory that does not exist: outside the admitted regions, or at or above 2^32 (R61, R65).
It asks for no invariant. -/
def Obligations.StepWritesExistingBytesOnly : Prop :=
  ∀ (s t : State) (a : Nat), step s = .next t → ¬ s.Exists a →
    t.mem.readByte a = s.mem.readByte a

/-- Every step leaves the parameters: `CAP` is constant for the life of the hardware (R30). It takes one transaction off the
queue, which is the model's own choice of form (notes/assumptions/3.md). -/
def Obligations.StepKeepsParameters : Prop :=
  ∀ s t : State, step s = .next t → t.plat = s.plat ∧ t.queue = s.queue.tail ∧ t.readCsr 3#6 = s.readCsr 3#6

/-! ## All commands -/

/-- R251: when an issued word ends with a code other than `Success`, no general register, no control register but
`STATUS` and no byte of memory has changed; the state is the state before with the new code. -/
def Obligations.RaiseChangesOnlyStatus : Prop :=
  ∀ (w : Word) (s t : State), issue w s = .next t → t.status ≠ .success → t = { s with status := t.status }

/-- R28: which command can write which code. -/
def Obligations.StatusCodesByCommand : Prop :=
  ∀ (w : Word) (s t : State), issue w s = .next t →
    (t.status = .illegalCommand ↔ ∀ i, decode w ≠ .ok i) ∧
    (t.status = .naNInf → ∃ rd rs1 rs2, decode w = .ok (.atan2 rd rs1 rs2)) ∧
    (t.status = .noImplementation → ∃ rs1, decode w = .ok (.dwconv rs1)) ∧
    (t.status = .argumentError →
      (∃ rs1, decode w = .ok (.dwconv rs1)) ∨ ∃ rs1 v, decode w = .ok (.maxpool rs1 v))

/-- What no command changes, and what some do not: a command writes no register but `RD` (R21); only the block commands
write memory (R60); no command writes a control register but `STATUS`, the parameters or the host's side (R265). -/
def Obligations.CommandFrame : Prop :=
  ∀ (i : Instr) (s t : State), exec i s = .next t →
    (∀ r : Reg, destOf i ≠ some r → t.getX r = s.getX r) ∧
    (destOf i ≠ none → ∀ a, t.mem.readByte a = s.mem.readByte a) ∧
    t.rnd = s.rnd ∧ t.isqrtMagic = s.isqrtMagic ∧ t.atanCoef = s.atanCoef ∧ t.plat = s.plat ∧
    t.queue = s.queue ∧ t.reply = s.reply

/-- `STATUS` is never read by a command: what a command does, and the code it leaves, are the same whatever code the
command before it left (R27: the field is not sticky). -/
def Obligations.StatusIsNeverRead : Prop :=
  ∀ (i : Instr) (s : State) (c : Status), exec i { s with status := c } = exec i s

/-! ## The fixed-point ALU -/

/-- R9: `sat_N(v)` for `1 <= N <= 64` is the clamp to the range of `N` bits, and `clamp(v, lo, hi)` with `lo <= hi` is
`min(max(v, lo), hi)`. -/
def Obligations.SaturationClamps : Prop :=
  (∀ (n : Nat) (v : Int), 1 ≤ n → n ≤ 64 →
    (v < -(2 ^ (n - 1)) → sat n v = -(2 ^ (n - 1))) ∧
    (v > 2 ^ (n - 1) - 1 → sat n v = 2 ^ (n - 1) - 1) ∧
    (-(2 ^ (n - 1)) ≤ v → v ≤ 2 ^ (n - 1) - 1 → sat n v = v)) ∧
  ∀ v lo hi : Int, lo ≤ hi → clamp v lo hi = min (max v lo) hi

/-- R10: `rnd_shr(v, s)` is `v / 2^s` rounded, ties toward plus infinity under half-up and to the even value under
half-to-even, `v` itself for `s = 0`; and it is the only such integer. -/
def Obligations.RoundingShiftIsNearest : Prop :=
  ∀ (r : Rounding) (v : Int) (s : Nat),
    Spec.RoundsTo r v s (rndShr r v s) ∧
    (∀ q : Int, Spec.RoundsTo r v s q → q = rndShr r v s) ∧ rndShr r v 0 = v

/-- R121: `SAT` writes the register's 64-bit value clamped to `bits = IMM6 + 1` bits, and reports `Success`; nothing else
changes. -/
def Obligations.SatResult : Prop :=
  ∀ (rd rs1 : Reg) (imm6 : BitVec 6) (s : State),
    exec (.sat rd rs1 imm6) s =
      .next (Spec.wrote s rd (Spec.clip (imm6.toNat + 1) (s.getX rs1).toInt))

/-- R122: `SADD.W` writes the exact sum of the two `W`-bit operands, clamped. -/
def Obligations.SaddResult : Prop :=
  ∀ (rd rs1 rs2 : Reg) (w : Width) (s : State),
    exec (.sadd rd rs1 rs2 w) s =
      .next (Spec.wrote s rd (Spec.clip (bitsOf w)
        (Spec.low (bitsOf w) (s.getX rs1) + Spec.low (bitsOf w) (s.getX rs2))))

/-- R123: `SSUB.W` writes the exact difference of the two `W`-bit operands, clamped. -/
def Obligations.SsubResult : Prop :=
  ∀ (rd rs1 rs2 : Reg) (w : Width) (s : State),
    exec (.ssub rd rs1 rs2 w) s =
      .next (Spec.wrote s rd (Spec.clip (bitsOf w)
        (Spec.low (bitsOf w) (s.getX rs1) - Spec.low (bitsOf w) (s.getX rs2))))

/-- R124: `SMUL.W` writes the exact product of the two operands over `2^F`, rounded by `CTRL.RND` and clamped. -/
def Obligations.SmulResult : Prop :=
  ∀ (rd rs1 rs2 : Reg) (w : Width) (imm6 : BitVec 6) (s : State),
    ∃ q : Int,
      Spec.RoundsTo s.rnd (Spec.low (bitsOf w) (s.getX rs1) * Spec.low (bitsOf w) (s.getX rs2))
        imm6.toNat q ∧
      exec (.smul rd rs1 rs2 w imm6) s = .next (Spec.wrote s rd (Spec.clip (bitsOf w) q))

/-- R125: `SSHL.W` writes `a * 2^n` clamped, for every amount `n` the 64-bit register can hold. -/
def Obligations.SshlResult : Prop :=
  ∀ (rd rs1 rs2 : Reg) (w : Width) (s : State),
    exec (.sshl rd rs1 rs2 w) s =
      .next (Spec.wrote s rd (Spec.clip (bitsOf w)
        (Spec.low (bitsOf w) (s.getX rs1) * 2 ^ (s.getX rs2).toNat)))

/-- R126: `SSHR.W` writes `a / 2^n` rounded by `CTRL.RND`, for every amount `n` the 64-bit register can hold; the clamp
never acts, and for `n >= W` the result is 0. -/
def Obligations.SshrResult : Prop :=
  ∀ (rd rs1 rs2 : Reg) (w : Width) (s : State),
    ∃ q : Int,
      Spec.RoundsTo s.rnd (Spec.low (bitsOf w) (s.getX rs1)) (s.getX rs2).toNat q ∧
      Spec.clip (bitsOf w) q = q ∧
      (bitsOf w ≤ (s.getX rs2).toNat → q = 0) ∧
      exec (.sshr rd rs1 rs2 w) s = .next (Spec.wrote s rd q)

/-- R127: `REQUANT.W` writes `acc * mult / 2^shift` rounded by `CTRL.RND` and clamped: the accumulator is the whole register,
the multiplier its low 32 bits signed, the shift the whole register unsigned; a shift of 96 or more gives 0. -/
def Obligations.RequantResult : Prop :=
  ∀ (rd rs1 rs2 rs3 : Reg) (w : Width) (s : State),
    ∃ q : Int,
      Spec.RoundsTo s.rnd ((s.getX rs1).toInt * Spec.low 32 (s.getX rs2)) (s.getX rs3).toNat q ∧
      (96 ≤ (s.getX rs3).toNat → q = 0) ∧
      exec (.requant rd rs1 rs2 rs3 w) s = .next (Spec.wrote s rd (Spec.clip (bitsOf w) q))

/-! ## The approximators -/

/-- R182: `ATAN2` with both 16-bit operands zero raises `NaNInf`: `x[RD]` keeps its value and nothing else changes. -/
def Obligations.Atan2OriginRaisesNaNInf : Prop :=
  ∀ (rd rs1 rs2 : Reg) (s : State),
    Spec.low 16 (s.getX rs1) = 0 → Spec.low 16 (s.getX rs2) = 0 →
    exec (.atan2 rd rs1 rs2) s = .next { s with status := .naNInf }

/-- R183: the axis cases, exact for every coefficient table: `x = 0` gives plus or minus `PIHALF_Q13` by the sign of `y`;
`x < 0, y = 0` gives `PI_Q13`; `x > 0, y = 0` gives `atan_poly(0)`. -/
def Obligations.Atan2Axes : Prop :=
  ∀ (rd rs1 rs2 : Reg) (s : State),
    let y := Spec.low 16 (s.getX rs1)
    let x := Spec.low 16 (s.getX rs2)
    (x = 0 → y > 0 → exec (.atan2 rd rs1 rs2) s = .next (Spec.wrote s rd 12868)) ∧
    (x = 0 → y < 0 → exec (.atan2 rd rs1 rs2) s = .next (Spec.wrote s rd (-12868))) ∧
    (x < 0 → y = 0 → exec (.atan2 rd rs1 rs2) s = .next (Spec.wrote s rd 25736)) ∧
    (x > 0 → y = 0 →
      exec (.atan2 rd rs1 rs2) s = .next (Spec.wrote s rd (atanPoly s.rnd s.atanCoef 0)))

/-- `ATAN2` off the origin completes for every coefficient table: some 16-bit value is written and `Success` reported
(R180, R186: every step saturates to 16 bits). -/
def Obligations.Atan2CompletesOffOrigin : Prop :=
  ∀ (rd rs1 rs2 : Reg) (s : State),
    (Spec.low 16 (s.getX rs1) ≠ 0 ∨ Spec.low 16 (s.getX rs2) ≠ 0) →
    ∃ a : Int, -32768 ≤ a ∧ a ≤ 32767 ∧ exec (.atan2 rd rs1 rs2) s = .next (Spec.wrote s rd a)

/-- `ATAN2` off the axes it handles apart, for every coefficient table (R180, R181, R184 to R186): with the magnitudes
saturated to 32767 and the ratio `min(32767, floor(num * 2^15 / den))`, the angle is what the saturating steps of R180
make of the polynomial's value; where that value stays within `0 .. PIHALF_Q13` it is by quadrant `a0`, `-a0`,
`PI_Q13 - a0` or `a0 - PI_Q13`, `a0` being the value after the swap correction. -/
def Obligations.Atan2Quadrants : Prop :=
  ∀ (rd rs1 rs2 : Reg) (s : State),
    let y := Spec.low 16 (s.getX rs1)
    let x := Spec.low 16 (s.getX rs2)
    let ay := min 32767 y.natAbs
    let ax := min 32767 x.natAbs
    let ratio : Nat := min 32767 (if ax < ay then ax * 32768 / ay else ay * 32768 / ax)
    x ≠ 0 → (y ≠ 0 ∨ x > 0) →
    ∃ p : Int, Spec.AtanPoly s.rnd s.atanCoef ratio p ∧
      exec (.atan2 rd rs1 rs2) s = .next (Spec.wrote s rd (Spec.angle y x (ax < ay) p)) ∧
      (0 ≤ p → p ≤ 12868 →
        let a0 := if ax < ay then 12868 - p else p
        Spec.angle y x (ax < ay) p =
          if x > 0 then (if y < 0 then -a0 else a0) else (if y > 0 then 25736 - a0 else a0 - 25736))

/-- R184: the helper's mantissa fits a signed 16-bit value, its shift is 0 or 1, and the re-aligned ratio is
`min(32767, floor(num * 2^15 / den))`. -/
def Obligations.DivNormNetEffect : Prop :=
  ∀ num den : Nat, num ≤ den → 1 ≤ den → den ≤ 32767 →
    (divNorm num den).1 ≤ 32767 ∧ (divNorm num den).2 ≤ 1 ∧
    (divNorm num den).1 = num * 32768 / den / 2 ^ (divNorm num den).2 ∧
    (32768 ≤ num * 32768 / den ↔ (divNorm num den).2 = 1) ∧
    atanRatio num den = ((min 32767 (num * 32768 / den) : Nat) : Int)

/-- `atan_poly` for a ratio from 0 to 32767, every coefficient table and both rounding rules (R185): it is the last partial
result of the Horner evaluation, over 4, rounded and saturated to 16 bits; and every partial result stays below 2^19
in magnitude, so nothing is lost before that saturation. -/
def Obligations.AtanPolyPartialsBounded : Prop :=
  ∀ (r : Rounding) (c : Vector (BitVec 16) 10) (ratio : Int), 0 ≤ ratio → ratio ≤ 32767 →
    Spec.AtanPoly r c ratio (atanPoly r c ratio) ∧
    ∀ res : Nat → Int, Spec.Horner r c ratio res →
      (∀ k, k ≤ 9 → |res k| < 2 ^ 19) ∧
      ∀ q : Int, Spec.RoundsTo r (res 9) 2 q → atanPoly r c ratio = Spec.clip 16 q

/-- Under its contract `CMAG` completes and writes `mag(re, im, k)` of each sample, written out from R173 to R176 over the
numerics the platform has, with three iterations for the elements in whole groups of `CAP.LANES` and two for the rest
(R171, R172); no other byte and no register changes. -/
def Obligations.CmagCompletes : Prop :=
  ∀ (rs1 rs2 rs3 : Reg) (s : State),
    CmagContract s (s.low32 rs1) (s.low32 rs2) (s.low32 rs3) →
    ∃ t, exec (.cmag rs1 rs2 rs3) s = .next t ∧ OnlyMemory s t ∧
      SameOutside s t [⟨s.low32 rs2, 4 * s.low32 rs3⟩] ∧
      ∀ i, i < s.low32 rs3 →
        t.mem.read (s.low32 rs2 + 4 * i) 4 =
          (Spec.mag s.plat.numerics s.isqrtMagic
            (BitVec.ofNat 32 (s.mem.read (s.low32 rs1 + 8 * i) 4))
            (BitVec.ofNat 32 (s.mem.read (s.low32 rs1 + 8 * i + 4) 4))
            (if i < s.low32 rs3 - s.low32 rs3 % s.plat.magLanes.toNat then 3 else 2)).toNat

/-- The default `f32_mul` (R178, IEEE 754 round to nearest, ties to even) on every two patterns: the exact product of
finite values rounded once, an infinity exactly from half-way past the largest finite value on, and its sign; infinite
and NaN operands. The sign and payload of a NaN are free (notes/assumptions/5.md). -/
def Obligations.DefaultMulRoundsToNearestEven : Prop :=
  ∀ a b : Word, Spec.IsProduct a b (ieeeMul a b)

/-- The default `f32_add` (R178) on every two patterns: the exact sum of finite values rounded once, an infinity exactly
from half-way past the largest finite value on, its sign, `+0` for an exact zero sum of unlike signs; infinite and NaN
operands. The sign and payload of a NaN are free (notes/assumptions/5.md). -/
def Obligations.DefaultAddRoundsToNearestEven : Prop :=
  ∀ a b : Word, Spec.IsSum a b (ieeeAdd a b)

/-- The default `f32_sub` and `f32_lt0` (R178): the difference is the sum with the sign of the second operand flipped, so
on finite values the exact difference rounded once; `f32_lt0` holds exactly of the finite values below zero and of
minus infinity, not of `-0` and of no NaN. -/
def Obligations.DefaultSubAndSign : Prop :=
  (∀ a b : Word, Spec.IsSum a (b ^^^ 0x80000000#32) (ieeeSub a b) ∧
    (Spec.Finite a → Spec.Finite b → Spec.Nearest (Spec.value a - Spec.value b) 0 (ieeeSub a b))) ∧
  ∀ a : Word,
    (Spec.Finite a → (ieeeLt0 a = true ↔ Spec.value a < 0)) ∧
    (Spec.Infinite a → ieeeLt0 a = Spec.negative a) ∧
    (Spec.NaN a → ieeeLt0 a = false)

/-! ## The FIR engine -/

/-- R151: under its contract `FIRINIT` completes: the `N - 1 + L` samples of the state buffer and the word `PHASE` are 0,
and no other byte and no register changes. The contract asks for the words of the record that the command accesses, the
model's reading (notes/assumptions/9.md). -/
def Obligations.FirinitCompletes : Prop :=
  ∀ (rs1 : Reg) (s : State),
    let d := s.low32 rs1
    let f := firRecord s.mem d
    FirinitContract s d →
    ∃ t, exec (.firinit rs1) s = .next t ∧ OnlyMemory s t ∧
      (∀ k, k < f.taps - 1 + f.block → t.mem.read (f.state + k * f.bytes) f.bytes = 0) ∧
      t.mem.read (d + 0x18) 4 = 0 ∧
      SameOutside s t [⟨f.state, (f.taps - 1 + f.block) * f.bytes⟩, ⟨d + 0x18, 4⟩]

/-- R152, R153: under its contract `FIRPROC` completes: output `i` is the dot product of the window that starts at sample
`i * M`, accumulated with saturation, rounded by `CTRL.RND` over `2^F` and clamped to `W` bits; the head of the state
buffer holds the last `N - 1` samples, its tail the input block; `PHASE` is 1; no other byte and no register
changes. -/
def Obligations.FirprocCompletes : Prop :=
  ∀ (rs1 rs2 rs3 : Reg) (s : State),
    let d := s.low32 rs1
    let inp := s.low32 rs2
    let out := s.low32 rs3
    let f := firRecord s.mem d
    FirprocContract s d inp out →
    ∃ t, exec (.firproc rs1 rs2 rs3) s = .next t ∧ OnlyMemory s t ∧
      (∀ i, i < f.block / f.decim →
        ∃ q, Spec.RoundsTo s.rnd (Spec.firAcc s.mem f inp i) (f.fmt / 256 % 64) q ∧
          t.mem.readS (out + i * f.bytes) f.bytes = Spec.clip (8 * f.bytes) q) ∧
      (∀ k, k < f.taps - 1 →
        t.mem.readS (f.state + k * f.bytes) f.bytes = Spec.firSample s.mem f inp (f.block + k)) ∧
      (∀ k, k < f.block →
        t.mem.readS (f.state + (f.taps - 1 + k) * f.bytes) f.bytes =
          s.mem.readS (inp + k * f.bytes) f.bytes) ∧
      t.mem.read (d + 0x18) 4 = 1 ∧
      SameOutside s t
        [⟨f.state, (f.taps - 1 + f.block) * f.bytes⟩, ⟨out, f.block / f.decim * f.bytes⟩, ⟨d + 0x18, 4⟩]

/-- R154 (a): what `FIRPROC` writes depends only on the record, the coefficients, the head of the state buffer, the input
block and `CTRL.RND`: two states that agree on these give the same outputs and the same history, whatever else, and
wherever their buffers stand. -/
def Obligations.FirprocDependsOnItsBuffersOnly : Prop :=
  ∀ (a b c a' b' c' : Reg) (s s' t t' : State),
    let f := firRecord s.mem (s.low32 a)
    let f' := firRecord s'.mem (s'.low32 a')
    exec (.firproc a b c) s = .next t → exec (.firproc a' b' c') s' = .next t' →
    s'.rnd = s.rnd → f'.taps = f.taps → f'.decim = f.decim → f'.block = f.block → f'.fmt = f.fmt →
    (∀ j, j < f.taps → s'.mem.readS (f'.coef + j * f.bytes) f.bytes = s.mem.readS (f.coef + j * f.bytes) f.bytes) →
    (∀ k, k < f.taps - 1 →
      s'.mem.readS (f'.state + k * f.bytes) f.bytes = s.mem.readS (f.state + k * f.bytes) f.bytes) →
    (∀ k, k < f.block →
      s'.mem.readS (s'.low32 b' + k * f.bytes) f.bytes = s.mem.readS (s.low32 b + k * f.bytes) f.bytes) →
    (∀ i, i < f.block / f.decim →
      t'.mem.readS (s'.low32 c' + i * f.bytes) f.bytes = t.mem.readS (s.low32 c + i * f.bytes) f.bytes) ∧
    (∀ k, k < f.taps - 1 →
      t'.mem.readS (f'.state + k * f.bytes) f.bytes = t.mem.readS (f.state + k * f.bytes) f.bytes)

/-- R154 (b), streaming equivalence: one instance with `BLOCK = 2L` on one block, and one with `BLOCK = L` on its two
halves in order, both with the same taps, `M`, format, coefficients, rounding mode and history, give the same
`2L / M` outputs and end with the same history. The state `s3` is any state the second call of the small instance may
start from: its history is the one the first call left. -/
def Obligations.FirStreamingEquivalence : Prop :=
  ∀ (a1 b1 c1 a2 b2 c2 a3 b3 c3 : Reg) (s1 t1 s2 t2 s3 t3 : State),
    let f1 := firRecord s1.mem (s1.low32 a1)
    let f2 := firRecord s2.mem (s2.low32 a2)
    let f3 := firRecord s3.mem (s3.low32 a3)
    let w := f1.bytes
    exec (.firproc a1 b1 c1) s1 = .next t1 →
    exec (.firproc a2 b2 c2) s2 = .next t2 →
    exec (.firproc a3 b3 c3) s3 = .next t3 →
    s2.rnd = s1.rnd → s3.rnd = s1.rnd →
    f2.taps = f1.taps → f3.taps = f1.taps → f2.decim = f1.decim → f3.decim = f1.decim →
    f2.fmt = f1.fmt → f3.fmt = f1.fmt → f1.block = 2 * f2.block → f3.block = f2.block →
    (∀ j, j < f1.taps →
      s2.mem.readS (f2.coef + j * w) w = s1.mem.readS (f1.coef + j * w) w ∧
      s3.mem.readS (f3.coef + j * w) w = s1.mem.readS (f1.coef + j * w) w) →
    (∀ k, k < f1.taps - 1 →
      s2.mem.readS (f2.state + k * w) w = s1.mem.readS (f1.state + k * w) w ∧
      s3.mem.readS (f3.state + k * w) w = t2.mem.readS (f2.state + k * w) w) →
    (∀ k, k < f2.block →
      s2.mem.readS (s2.low32 b2 + k * w) w = s1.mem.readS (s1.low32 b1 + k * w) w ∧
      s3.mem.readS (s3.low32 b3 + k * w) w = s1.mem.readS (s1.low32 b1 + (f2.block + k) * w) w) →
    (∀ i, i < f2.block / f2.decim →
      t2.mem.readS (s2.low32 c2 + i * w) w = t1.mem.readS (s1.low32 c1 + i * w) w ∧
      t3.mem.readS (s3.low32 c3 + i * w) w =
        t1.mem.readS (s1.low32 c1 + (f2.block / f2.decim + i) * w) w) ∧
    (∀ k, k < f1.taps - 1 →
      t3.mem.readS (f3.state + k * w) w = t1.mem.readS (f1.state + k * w) w)

/-- `FIRINIT` and `FIRPROC` answer a next state exactly when their contracts hold: an undefined command is never given a
value (R13, R151, R152). That a broken contract stops the model is its own choice (notes/assumptions/8.md), and so
is the reading of the contracts in notes/assumptions/6.md, 9.md, 10.md and 19.md. -/
def Obligations.FirContractsDecide : Prop :=
  (∀ (rs1 : Reg) (s : State),
    (∃ t, exec (.firinit rs1) s = .next t) ↔ FirinitContract s (s.low32 rs1)) ∧
  ∀ (rs1 rs2 rs3 : Reg) (s : State),
    (∃ t, exec (.firproc rs1 rs2 rs3) s = .next t) ↔
      FirprocContract s (s.low32 rs1) (s.low32 rs2) (s.low32 rs3)

/-! ## The tensor kernels -/

/-- R206: with `CAP.VEC = 0` `DWCONV` raises `NoImplementation` and does nothing else, whatever its register holds; with
`CAP.VEC = 1` and a readable descriptor, `BATCH <= 0` as a signed word raises `ArgumentError` with no write to memory;
and no other field is checked: where the command completes, these two conditions alone decide between the codes. -/
def Obligations.DwconvChecks : Prop :=
  ∀ (rs1 : Reg) (s : State),
    (s.plat.hasVec = false → exec (.dwconv rs1) s = .next { s with status := .noImplementation }) ∧
    (s.plat.hasVec = true → s.Usable 4 ⟨s.low32 rs1, 88⟩ → s.mem.readS (s.low32 rs1 + 0x18) 4 ≤ 0 →
      exec (.dwconv rs1) s = .next { s with status := .argumentError }) ∧
    (∀ t, exec (.dwconv rs1) s = .next t →
      (t.status = .noImplementation ↔ s.plat.hasVec = false) ∧
      (t.status = .argumentError ↔ s.plat.hasVec = true ∧ s.mem.readS (s.low32 rs1 + 0x18) 4 ≤ 0))

/-- R205, R207, R208: under its contract and with `CAP.VEC = 1` `DWCONV` completes: every output element is its accumulator,
requantized by its channel's multiplier and shift, offset, clamped to the activation bounds and narrowed to 8 bits; no
other byte and no register changes. -/
def Obligations.DwconvCompletes : Prop :=
  ∀ (rs1 : Reg) (s : State),
    let d := s.low32 rs1
    let q := dwDesc s.mem d
    s.plat.hasVec = true → DwconvContract s d →
    ∃ t, exec (.dwconv rs1) s = .next t ∧ OnlyMemory s t ∧
      SameOutside s t [⟨q.outPtr, q.batch.toNat * q.outH * q.outW * q.ch⟩] ∧
      ∀ b oy ox c, b < q.batch.toNat → oy < q.outH → ox < q.outW → c < q.ch →
        ∃ z, Spec.RoundsTo s.rnd
            (Spec.dwAccumulate s.mem q b oy ox c * s.mem.readS (q.multPtr + 4 * c) 4)
            (s.mem.read (q.shiftPtr + 4 * c) 4) z ∧
          t.mem.readS (q.outPtr + (((b * q.outH + oy) * q.outW + ox) * q.ch + c)) 1 =
            Spec.clip 8 (max q.actMin (min (Spec.clip 8 z + q.outOffset) q.actMax))

/-- R209: with every weight zero, every output of channel `c` is the same constant, independent of the input and of the
position: the requantized, offset, clamped bias; and it is the clamped bias itself under the identity scale, a zero
offset and a bias that fits 8 bits. -/
def Obligations.DwconvZeroWeights : Prop :=
  ∀ (rs1 : Reg) (s : State),
    let d := s.low32 rs1
    let q := dwDesc s.mem d
    s.plat.hasVec = true → DwconvContract s d →
    (∀ i, i < q.kH * q.kW * q.ch → nib s.mem q.wgtPtr i = 0) →
    ∃ t, exec (.dwconv rs1) s = .next t ∧
      ∀ b oy ox c, b < q.batch.toNat → oy < q.outH → ox < q.outW → c < q.ch →
        let bias := s.mem.readS (q.biasPtr + 4 * c) 4
        let mult := s.mem.readS (q.multPtr + 4 * c) 4
        let shift := s.mem.read (q.shiftPtr + 4 * c) 4
        let v := t.mem.readS (q.outPtr + (((b * q.outH + oy) * q.outW + ox) * q.ch + c)) 1
        (∃ z, Spec.RoundsTo s.rnd (bias * mult) shift z ∧
          v = Spec.clip 8 (max q.actMin (min (Spec.clip 8 z + q.outOffset) q.actMax))) ∧
        (mult = 2 ^ shift → q.outOffset = 0 → -128 ≤ bias → bias ≤ 127 →
          v = Spec.clip 8 (max q.actMin (min bias q.actMax)))

/-- R213: `MAXPOOL` with `BATCH <= 0` as a signed word, and a readable descriptor, raises `ArgumentError` and writes nothing
to memory; no other field is checked: where the command completes, this condition alone decides the code. -/
def Obligations.MaxpoolBatchCheck : Prop :=
  ∀ (rs1 : Reg) (w : Width) (s : State), w ≠ .w32 →
    (s.Usable 4 ⟨s.low32 rs1, 64⟩ → s.mem.readS (s.low32 rs1 + 0x08) 4 ≤ 0 →
      exec (.maxpool rs1 w) s = .next { s with status := .argumentError }) ∧
    (∀ t, exec (.maxpool rs1 w) s = .next t →
      (t.status = .argumentError ↔ s.mem.readS (s.low32 rs1 + 0x08) 4 ≤ 0))

/-- R215, R212: under its contract `MAXPOOL` completes; for a non-empty window the output element is the maximum of the
window's input elements, clamped to the activation bounds and saturated to `W` bits; no byte outside the output tensor
and no register changes. -/
def Obligations.MaxpoolNonEmptyWindow : Prop :=
  ∀ (rs1 : Reg) (w : Width) (s : State),
    let d := s.low32 rs1
    let q := poolDesc s.mem d
    let e := bytesOf w
    w ≠ .w32 → MaxpoolContract s d e →
    ∃ t, exec (.maxpool rs1 w) s = .next t ∧ OnlyMemory s t ∧
      SameOutside s t [⟨q.outPtr, q.batch.toNat * q.outH * q.outW * q.ch * e⟩] ∧
      ∀ b oy ox c, b < q.batch.toNat → oy < q.outH → ox < q.outW → c < q.ch →
        (∃ y x, Spec.InWindow q oy ox y x) →
        ∃ v : Int,
          (∃ y x, Spec.InWindow q oy ox y x ∧
            s.mem.readS (q.inPtr + (((b * q.inH + y) * q.inW + x) * q.ch + c) * e) e = v) ∧
          (∀ y x, Spec.InWindow q oy ox y x →
            s.mem.readS (q.inPtr + (((b * q.inH + y) * q.inW + x) * q.ch + c) * e) e ≤ v) ∧
          t.mem.readS (q.outPtr + (((b * q.outH + oy) * q.outW + ox) * q.ch + c) * e) e =
            Spec.clip (8 * e) (max q.actMin (min v q.actMax))

/-- R214: an output element whose window is empty holds, after the command, what it held before, clamped. -/
def Obligations.MaxpoolEmptyWindow : Prop :=
  ∀ (rs1 : Reg) (w : Width) (s : State),
    let d := s.low32 rs1
    let q := poolDesc s.mem d
    let e := bytesOf w
    w ≠ .w32 → MaxpoolContract s d e →
    ∃ t, exec (.maxpool rs1 w) s = .next t ∧
      ∀ b oy ox c, b < q.batch.toNat → oy < q.outH → ox < q.outW → c < q.ch →
        (∀ y x, ¬ Spec.InWindow q oy ox y x) →
        t.mem.readS (q.outPtr + (((b * q.outH + oy) * q.outW + ox) * q.ch + c) * e) e =
          Spec.clip (8 * e) (max q.actMin
            (min (s.mem.readS (q.outPtr + (((b * q.outH + oy) * q.outW + ox) * q.ch + c) * e) e) q.actMax))

/-- R219: under its contract `RELU` completes: each of the `n` elements is `max(0, v)` of what it was, and no other byte and
no register changes. -/
def Obligations.ReluCompletes : Prop :=
  ∀ (rs1 rs2 : Reg) (w : Width) (s : State),
    let p := s.low32 rs1
    let n := s.low32 rs2
    let e := bytesOf w
    w ≠ .w32 → ReluContract s p e n →
    ∃ t, exec (.relu rs1 rs2 w) s = .next t ∧ OnlyMemory s t ∧ SameOutside s t [⟨p, n * e⟩] ∧
      ∀ i, i < n → t.mem.readS (p + i * e) e = max 0 (s.mem.readS (p + i * e) e)

/-- R220: issuing the same `RELU` twice leaves memory, and everything else, as after the first. -/
def Obligations.ReluIdempotent : Prop :=
  ∀ (rs1 rs2 : Reg) (w : Width) (s t : State),
    exec (.relu rs1 rs2 w) s = .next t →
    ∃ u, exec (.relu rs1 rs2 w) t = .next u ∧ u = { t with mem := u.mem } ∧
      ∀ a, u.mem.readByte a = t.mem.readByte a

/-- R223: under its contract `UNPACK4` completes: destination byte `i` is the signed nibble `i` of the packed stream, low
nibble first, and no other byte and no register changes. -/
def Obligations.Unpack4Completes : Prop :=
  ∀ (rs1 rs2 rs3 : Reg) (s : State),
    let src := s.low32 rs1
    let dst := s.low32 rs2
    let n := s.low32 rs3
    UnpackContract s src dst n →
    ∃ t, exec (.unpack4 rs1 rs2 rs3) s = .next t ∧ OnlyMemory s t ∧ SameOutside s t [⟨dst, n⟩] ∧
      ∀ i, i < n →
        t.mem.readS (dst + i) 1 =
          ((s.mem.readByte (src + i / 2)).extractLsb' (if i % 2 = 0 then 0 else 4) 4).toInt

/-- R224: under its contract `PACK4` completes: packed byte `j` holds value `2j` saturated to 4 bits in its low nibble and
value `2j + 1` in its high nibble, or 0 there past the count; no other byte and no register changes. -/
def Obligations.Pack4Completes : Prop :=
  ∀ (rs1 rs2 rs3 : Reg) (s : State),
    let src := s.low32 rs1
    let dst := s.low32 rs2
    let n := s.low32 rs3
    PackContract s src dst n →
    ∃ t, exec (.pack4 rs1 rs2 rs3) s = .next t ∧ OnlyMemory s t ∧
      SameOutside s t [⟨dst, (n + 1) / 2⟩] ∧
      ∀ j, j < (n + 1) / 2 →
        ((t.mem.readByte (dst + j)).extractLsb' 0 4).toInt = Spec.clip 4 (s.mem.readS (src + 2 * j) 1) ∧
        ((t.mem.readByte (dst + j)).extractLsb' 4 4).toInt =
          if 2 * j + 1 < n then Spec.clip 4 (s.mem.readS (src + 2 * j + 1) 1) else 0

/-- R225: `UNPACK4` then `PACK4` of the same count reproduces every packed byte, but that the pad nibble of an odd count
comes back as 0; `PACK4` then `UNPACK4` reproduces each value saturated to 4 bits. Between the two commands the host
may change registers (`u` is the state the second starts from) but not memory. -/
def Obligations.PackUnpackRoundTrip : Prop :=
  (∀ (a b c a' b' c' : Reg) (s t u v : State),
    exec (.unpack4 a b c) s = .next t → u.mem = t.mem → u.low32 a' = s.low32 b → u.low32 c' = s.low32 c →
    exec (.pack4 a' b' c') u = .next v →
    ∀ j, j < (s.low32 c + 1) / 2 →
      (v.mem.readByte (u.low32 b' + j)).toNat =
        if 2 * j + 1 < s.low32 c then (s.mem.readByte (s.low32 a + j)).toNat
        else (s.mem.readByte (s.low32 a + j)).toNat % 16) ∧
  (∀ (a b c a' b' c' : Reg) (s t u v : State),
    exec (.pack4 a b c) s = .next t → u.mem = t.mem → u.low32 a' = s.low32 b → u.low32 c' = s.low32 c →
    exec (.unpack4 a' b' c') u = .next v →
    ∀ i, i < s.low32 c →
      v.mem.readS (u.low32 b' + i) 1 = Spec.clip 4 (s.mem.readS (s.low32 a + i) 1))

/-- `CMAG`, `RELU`, `UNPACK4` and `PACK4` answer a next state exactly when their contracts hold (R13, R171, R219,
R223, R224). That a broken contract stops R223, R224), as the model reads them: `ISQRT_MAGIC` counts as written, its reset value being the model's choice
(notes/assumptions/1.md), a buffer of no bytes breaks no contract (notes/assumptions/6.md), and a broken contract stops
the model (its choice: notes/assumptions/8.md). -/
def Obligations.BlockContractsDecide : Prop :=
  (∀ (rs1 rs2 rs3 : Reg) (s : State),
    (∃ t, exec (.cmag rs1 rs2 rs3) s = .next t) ↔
      CmagContract s (s.low32 rs1) (s.low32 rs2) (s.low32 rs3)) ∧
  (∀ (rs1 rs2 : Reg) (w : Width) (s : State), w ≠ .w32 →
    ((∃ t, exec (.relu rs1 rs2 w) s = .next t) ↔
      ReluContract s (s.low32 rs1) (bytesOf w) (s.low32 rs2))) ∧
  (∀ (rs1 rs2 rs3 : Reg) (s : State),
    (∃ t, exec (.unpack4 rs1 rs2 rs3) s = .next t) ↔
      UnpackContract s (s.low32 rs1) (s.low32 rs2) (s.low32 rs3)) ∧
  (∀ (rs1 rs2 rs3 : Reg) (s : State),
    (∃ t, exec (.pack4 rs1 rs2 rs3) s = .next t) ↔
      PackContract s (s.low32 rs1) (s.low32 rs2) (s.low32 rs3))

/-- `DWCONV` and `MAXPOOL` answer a next state exactly when a check of theirs ends them or their contracts hold; a
descriptor that cannot be read is undefined even with `BATCH <= 0` (R13, R205, R212, R253). That a broken contract stops
the model is its own choice (notes/assumptions/8.md), and so is the reading of the contracts in 10.md and 17.md. -/
def Obligations.TensorContractsDecide : Prop :=
  (∀ (rs1 : Reg) (s : State),
    (∃ t, exec (.dwconv rs1) s = .next t) ↔
      s.plat.hasVec = false ∨
      (s.Usable 4 ⟨s.low32 rs1, 88⟩ ∧ (dwDesc s.mem (s.low32 rs1)).batch ≤ 0) ∨
      DwconvContract s (s.low32 rs1)) ∧
  (∀ (rs1 : Reg) (w : Width) (s : State), w ≠ .w32 →
    ((∃ t, exec (.maxpool rs1 w) s = .next t) ↔
      (s.Usable 4 ⟨s.low32 rs1, 64⟩ ∧ (poolDesc s.mem (s.low32 rs1)).batch ≤ 0) ∨
      MaxpoolContract s (s.low32 rs1) (bytesOf w)))

/-- Each stop of a broken contract by name, on commands that raise it: a misaligned array (R63), an array that runs past
2^32 (R61), a byte outside the admitted regions (R65), overlapping buffers (R73), a field of a filter's record (R151,
R152), a zero field of a `DWCONV` or `MAXPOOL` descriptor (R205, R212), activation bounds out of order (R201). The
stops, their names and their order are the model's choice (notes/assumptions/8.md). -/
def Obligations.StopsByName : Prop :=
  (∀ (rs1 rs2 : Reg) (s : State), s.low32 rs2 ≠ 0 → s.low32 rs1 % 2 = 1 →
    exec (.relu rs1 rs2 .w16) s = .refused .misalignedAccess) ∧
  (∀ (rs1 rs2 : Reg) (s : State), s.low32 rs2 ≠ 0 → 2 ^ 32 < s.low32 rs1 + s.low32 rs2 →
    exec (.relu rs1 rs2 .w8) s = .fault .addressOverflow) ∧
  (∀ (rs1 rs2 : Reg) (s : State) (a : Nat), s.low32 rs1 + s.low32 rs2 ≤ 2 ^ 32 →
    s.low32 rs1 ≤ a → a < s.low32 rs1 + s.low32 rs2 → (∀ r ∈ s.plat.regions, ¬ r.contains a) →
    exec (.relu rs1 rs2 .w8) s = .fault .bufferOutOfRange) ∧
  (∀ (rs1 rs2 rs3 : Reg) (s : State) (a : Nat),
    s.Usable 1 ⟨s.low32 rs1, (s.low32 rs3 + 1) / 2⟩ → s.Usable 1 ⟨s.low32 rs2, s.low32 rs3⟩ →
    s.low32 rs1 ≤ a → a < s.low32 rs1 + (s.low32 rs3 + 1) / 2 →
    s.low32 rs2 ≤ a → a < s.low32 rs2 + s.low32 rs3 →
    exec (.unpack4 rs1 rs2 rs3) s = .refused .overlappingBuffers) ∧
  (∀ (rs1 : Reg) (s : State),
    let f := firRecord s.mem (s.low32 rs1)
    s.Usable 4 ⟨s.low32 rs1 + 0x04, 8⟩ → s.Usable 4 ⟨s.low32 rs1 + 0x10, 12⟩ →
    f.taps = 0 ∨ f.block = 0 ∨ ¬ f.FmtLegal →
    exec (.firinit rs1) s = .refused .firContract) ∧
  (∀ (rs1 rs2 rs3 : Reg) (s : State),
    let f := firRecord s.mem (s.low32 rs1)
    s.Usable 4 ⟨s.low32 rs1, 32⟩ →
    f.taps = 0 ∨ f.decim = 0 ∨ f.block = 0 ∨ ¬ f.decim ∣ f.block ∨ ¬ f.FmtLegal →
    exec (.firproc rs1 rs2 rs3) s = .refused .firContract) ∧
  (∀ (rs1 : Reg) (s : State),
    let q := dwDesc s.mem (s.low32 rs1)
    s.plat.hasVec = true → s.Usable 4 ⟨s.low32 rs1, 88⟩ → 0 < q.batch →
    (¬ q.FieldsLegal → exec (.dwconv rs1) s = .refused .dwconvContract) ∧
    (q.FieldsLegal → q.actMax < q.actMin → exec (.dwconv rs1) s = .refused .activationBounds)) ∧
  (∀ (rs1 : Reg) (w : Width) (s : State),
    let q := poolDesc s.mem (s.low32 rs1)
    w ≠ .w32 → s.Usable 4 ⟨s.low32 rs1, 64⟩ → 0 < q.batch →
    (¬ q.FieldsLegal → exec (.maxpool rs1 w) s = .refused .maxpoolContract) ∧
    (q.FieldsLegal → q.actMax < q.actMin → exec (.maxpool rs1 w) s = .refused .activationBounds))
end

