-- ==== Sys2Proof/Laws/Contract.lean ====
section
/-! SUPPORT. The contract checks: when each of them finds nothing wrong, and what a guarded step can answer. -/

namespace Sys2Proof.Machine

/-- A guarded step answers a next state exactly when its contract holds and its body does. -/
theorem unlessStop_eq_next {c : Option Stop} {k : Result} {t : State} :
    unlessStop c k = .next t ↔ c = none ∧ k = .next t := by
  cases c with
  | none => simp [unlessStop]
  | some c => cases c <;> simp [unlessStop]

@[simp] theorem unlessStop_none (k : Result) : unlessStop none k = k := rfl

@[simp] theorem firstStop_nil : firstStop [] = none := rfl

/-- A list of checks finds nothing exactly when its first does and the rest do. -/
@[simp] theorem firstStop_cons (c : Option Stop) (cs : List (Option Stop)) :
    firstStop (c :: cs) = none ↔ c = none ∧ firstStop cs = none := by
  cases c <;> simp [firstStop]

@[simp] theorem require_eq_none (ok : Bool) (r : Refusal) : require ok r = none ↔ ok = true := by
  cases ok <;> simp [require]

/-- The sweep over the regions says that every byte of the interval lies in one of them (R65). -/
theorem covered_iff (rs : List Region) (a e : Nat) :
    covered rs a e = true ↔ ∀ x, a ≤ x → x < e → ∃ r ∈ rs, r.contains x := by
  induction rs generalizing a e with
  | nil =>
    simp only [covered, decide_eq_true_eq, List.not_mem_nil, false_and, exists_false]
    constructor
    · intro h x h1 h2; omega
    · intro h; by_contra hlt; exact h a (le_refl a) (by omega)
  | cons r rs ih =>
    simp only [covered, Bool.or_eq_true, Bool.and_eq_true, decide_eq_true_eq, ih, List.mem_cons,
      exists_eq_or_imp]
    constructor
    · rintro (h | ⟨h1, h2⟩) x hax hxe
      · omega
      · by_cases hb : x < r.base
        · exact Or.inr (h1 x hax (by omega))
        · by_cases he : x < r.base + r.size
          · exact Or.inl ⟨by omega, he⟩
          · exact Or.inr (h2 x (by omega) hxe)
    · intro h
      refine Or.inr ⟨fun x hax hxe => ?_, fun x hax hxe => ?_⟩
      · rcases h x hax (by omega) with hr | hr
        · exact absurd hr.1 (by omega)
        · exact hr
      · rcases h x (by omega) hxe with hr | hr
        · exact absurd hr.2 (by omega)
        · exact hr

/-- The bytes of a buffer exist exactly when the check finds nothing (R61, R65). -/
theorem State.existStop_eq_none (s : State) (b : Buffer) :
    s.existStop b = none ↔ ∀ a, b.Holds a → s.Exists a := by
  unfold State.existStop
  split
  · next h => simp only [Buffer.Holds, true_iff]; intro a ha; omega
  · next h =>
    split
    · next hlt =>
      simp only [reduceCtorEq, false_iff, not_forall]
      exact ⟨b.base + b.size - 1, ⟨by omega, by omega⟩, fun hx => absurd hx.1 (by omega)⟩
    · next hle =>
      split
      · next hc =>
        simp only [true_iff]
        intro a ha
        exact ⟨Nat.lt_of_lt_of_le ha.2 (Nat.not_lt.mp hle), (covered_iff _ _ _).mp hc a ha.1 ha.2⟩
      · next hc =>
        simp only [reduceCtorEq, false_iff]
        intro hall
        exact hc ((covered_iff _ _ _).mpr fun x h1 h2 => (hall x ⟨h1, h2⟩).2)

/-- A buffer is usable exactly when its check finds nothing (R63, R61, R65). -/
theorem State.bufferStop_eq_none (s : State) (align : Nat) (b : Buffer) :
    s.bufferStop align b = none ↔ s.Usable align b := by
  unfold State.bufferStop State.Usable
  split
  · next h => simp [h]
  · next h =>
    split
    · next ha => simp [h, ha]
    · next ha => simp [h, not_not.mp ha, State.existStop_eq_none]

/-- Two buffers pass the overlap check exactly when they share no byte (R73). -/
theorem Buffer.disjoint_iff (b c : Buffer) : b.disjoint c = true ↔ b.Apart c := by
  unfold Buffer.disjoint Buffer.Apart Buffer.Holds
  simp only [decide_eq_true_eq]
  constructor
  · intro h a ha hc; omega
  · intro h
    by_contra hn
    exact h (max b.base c.base) (by omega) (by omega)

/-- The overlap check of one buffer against others. -/
theorem overlapStop_eq_none (b : Buffer) (cs : List Buffer) :
    overlapStop b cs = none ↔ ∀ c ∈ cs, b.Apart c := by
  simp [overlapStop, Buffer.disjoint_iff]

/-- Sharing no byte, from the other side. -/
theorem Buffer.Apart.symm {b c : Buffer} (h : b.Apart c) : c.Apart b := fun a hc hb => h a hb hc

/-- The address of one element of a usable buffer exists. -/
theorem State.Usable.exists {s : State} {align : Nat} {b : Buffer} (h : s.Usable align b) {a : Nat}
    (ha : b.Holds a) : s.Exists a := by
  rcases h with h | h
  · exact absurd ha.2 (by have := ha.1; omega)
  · exact h.2 a ha

end Sys2Proof.Machine
end

