-- ==== Sys2Proof/Laws/Loop.lean ====
section
/-! SUPPORT. The laws of the counted loop `forUp`. -/

namespace Sys2Proof.Machine

variable {σ : Type}

@[simp] theorem forUp_zero (f : Nat → σ → σ) (s : σ) : forUp 0 f s = s := rfl

@[simp] theorem forUp_succ (n : Nat) (f : Nat → σ → σ) (s : σ) :
    forUp (n + 1) f s = f n (forUp n f s) := rfl

/-- The loop rule: what holds before the first pass and is carried from pass `k` to pass `k + 1` holds at the end. -/
theorem forUp_induct {P : Nat → σ → Prop} {f : Nat → σ → σ} {s : σ} (n : Nat) (h0 : P 0 s)
    (hs : ∀ k, k < n → ∀ t, P k t → P (k + 1) (f k t)) : P n (forUp n f s) := by
  induction n with
  | zero => exact h0
  | succ n ih => exact hs n (Nat.lt_succ_self n) _ (ih fun k hk => hs k (Nat.lt_succ_of_lt hk))

/-- A property every pass keeps is kept by the loop. -/
theorem forUp_keeps {P : σ → Prop} {f : Nat → σ → σ} {s : σ} (n : Nat) (h0 : P s)
    (hs : ∀ k, k < n → ∀ t, P t → P (f k t)) : P (forUp n f s) :=
  forUp_induct (P := fun _ => P) n h0 hs

/-- Loops whose bodies agree on every state they meet agree. -/
theorem forUp_congr {f g : Nat → σ → σ} (n : Nat) (s : σ) (h : ∀ k, k < n → ∀ t, f k t = g k t) :
    forUp n f s = forUp n g s := by
  induction n with
  | zero => rfl
  | succ n ih =>
    simp only [forUp_succ]
    rw [ih fun k hk => h k (Nat.lt_succ_of_lt hk), h n (Nat.lt_succ_self n)]

/-- A loop over a sum of two counts is one loop after the other. -/
theorem forUp_add (a b : Nat) (f : Nat → σ → σ) (s : σ) :
    forUp (a + b) f s = forUp b (fun k t => f (a + k) t) (forUp a f s) := by
  induction b with
  | zero => rfl
  | succ b ih => rw [← Nat.add_assoc, forUp_succ, ih, forUp_succ]

/-- The loop as a fold over the list of its counter's values. -/
theorem forUp_eq_foldl (n : Nat) (f : Nat → σ → σ) (s : σ) :
    forUp n f s = (List.range n).foldl (fun t k => f k t) s := by
  induction n with
  | zero => rfl
  | succ n ih => rw [forUp_succ, ih, List.range_succ, List.foldl_append]; rfl

end Sys2Proof.Machine
end

