-- ==== Sys2Proof/Laws/Memory.lean ====
section
/-! SUPPORT. The laws of the memory operations: what a byte reads as after a store, that stores keep the canonical
form, and that a read depends on the bytes it covers only. No law but those about the form asks for it. -/

namespace Sys2Proof.Machine

/-- Every listed address lies in the address space (R60). -/
abbrev Memory.inSpace (m : Memory) : Prop := ∀ c ∈ m, c.1 < Config.spaceBytes

theorem Memory.readByte_erase (m : Memory) (a x : Nat) :
    (m.erase a).readByte x = if x = a then Memory.unlisted else m.readByte x := by
  induction m with
  | nil => simp [Memory.erase, Memory.readByte]
  | cons c m ih =>
    unfold Memory.erase at ih ⊢
    by_cases hca : c.1 = a
    · subst hca
      simp only [bne_self_eq_false, Bool.false_eq_true, not_false_eq_true, List.filter_cons_of_neg, ih,
        Memory.readByte]
      by_cases hx : x = c.1
      · simp [hx]
      · simp [hx, Ne.symm hx]
    · have h1 : (c.1 != a) = true := by simp [hca]
      rw [List.filter_cons_of_pos (p := fun c : Host.Cell => c.1 != a) h1]
      simp only [Memory.readByte, ih]
      by_cases hcx : c.1 = x
      · have : x ≠ a := fun e => hca (hcx.trans e)
        simp [hcx, this]
      · simp [hcx]

theorem Memory.readByte_insert (m : Memory) (a x : Nat) (b : Byte) (h : ∀ c ∈ m, c.1 ≠ a) :
    (m.insert a b).readByte x = if x = a then b else m.readByte x := by
  induction m with
  | nil => simp [Memory.insert, Memory.readByte, eq_comm]
  | cons c m ih =>
    have ih := ih fun d hd => h d (List.mem_cons_of_mem _ hd)
    have hca := h c List.mem_cons_self
    unfold Memory.insert
    split
    · simp [Memory.readByte, eq_comm]
    · simp only [Memory.readByte, ih]
      by_cases hcx : c.1 = x
      · have : x ≠ a := fun e => hca (hcx.trans e)
        simp [hcx, this]
      · simp [hcx]

theorem Memory.mem_erase {m : Memory} {a : Nat} {c : Host.Cell} :
    c ∈ m.erase a ↔ c ∈ m ∧ c.1 ≠ a := by
  simp [Memory.erase]

theorem Memory.mem_insert {m : Memory} {a : Nat} {b : Byte} {c : Host.Cell} :
    c ∈ m.insert a b ↔ c = (a, b) ∨ c ∈ m := by
  induction m with
  | nil => simp [Memory.insert]
  | cons d m ih =>
    unfold Memory.insert
    split
    · simp
    · simp [ih]; tauto

/-- Reading a byte after a store of one byte: the byte stored, or what was there. -/
theorem Memory.readByte_writeByte (m : Memory) (a x : Nat) (b : Byte) :
    (m.writeByte a b).readByte x = if x = a then b else m.readByte x := by
  unfold Memory.writeByte
  split
  · next h => rw [Memory.readByte_erase, h]
  · rw [Memory.readByte_insert _ _ _ _ fun c hc => (Memory.mem_erase.mp hc).2, Memory.readByte_erase]
    by_cases hx : x = a <;> simp [hx]

theorem Memory.wf_erase {m : Memory} (h : m.wf) (a : Nat) : (m.erase a).wf :=
  ⟨h.1.filter _, fun c hc => h.2 c (Memory.mem_erase.mp hc).1⟩

theorem Memory.wf_insert {m : Memory} (h : m.wf) (a : Nat) (b : Byte) (ha : ∀ c ∈ m, c.1 ≠ a)
    (hb : b ≠ Memory.unlisted) : (m.insert a b).wf := by
  refine ⟨?_, fun c hc => ?_⟩
  · have hp := h.1
    clear h
    induction m with
    | nil => simp [Memory.insert]
    | cons d m ih =>
      have hp' := List.pairwise_cons.mp hp
      unfold Memory.insert
      split
      · next hlt =>
        refine List.pairwise_cons.mpr ⟨fun c hc => ?_, hp⟩
        rcases List.mem_cons.mp hc with rfl | hc
        · exact hlt
        · exact Nat.lt_trans hlt (hp'.1 c hc)
      · next hge =>
        refine List.pairwise_cons.mpr
          ⟨fun c hc => ?_, ih (fun c hc => ha c (List.mem_cons_of_mem _ hc)) hp'.2⟩
        rcases Memory.mem_insert.mp hc with rfl | hc
        · exact lt_of_le_of_ne (Nat.not_lt.mp hge) (ha d List.mem_cons_self)
        · exact hp'.1 c hc
  · rcases Memory.mem_insert.mp hc with rfl | hc
    · exact hb
    · exact h.2 c hc

/-- A store of one byte keeps the canonical form. -/
theorem Memory.wf_writeByte {m : Memory} (h : m.wf) (a : Nat) (b : Byte) : (m.writeByte a b).wf := by
  unfold Memory.writeByte
  split
  · exact Memory.wf_erase h a
  · next hb => exact Memory.wf_insert (Memory.wf_erase h a) a b (fun c hc => (Memory.mem_erase.mp hc).2) hb

/-- A store of one byte below 2^32 keeps the listed addresses in the address space. -/
theorem Memory.inSpace_writeByte {m : Memory} (h : m.inSpace) {a : Nat} (b : Byte)
    (ha : a < Config.spaceBytes) : (m.writeByte a b).inSpace := by
  intro c hc
  unfold Memory.writeByte at hc
  split at hc
  · exact h c (Memory.mem_erase.mp hc).1
  · rcases Memory.mem_insert.mp hc with rfl | hc
    · exact ha
    · exact h c (Memory.mem_erase.mp hc).1

/-- Reading a byte after a store of `n` bytes: the byte of the value that stands there, or what was there. -/
theorem Memory.readByte_write (m : Memory) (a n v x : Nat) :
    (m.write a n v).readByte x =
      if a ≤ x ∧ x < a + n then BitVec.ofNat 8 (v / 256 ^ (x - a)) else m.readByte x := by
  induction n generalizing m a v with
  | zero => rw [if_neg (by omega)]; rfl
  | succ n ih =>
    rw [Memory.write, ih, Memory.readByte_writeByte]
    by_cases hxa : x = a
    · subst hxa; simp
    · by_cases hlt : a + 1 ≤ x ∧ x < a + 1 + n
      · have h2 : a ≤ x ∧ x < a + (n + 1) := by omega
        have h3 : x - a = (x - (a + 1)) + 1 := by omega
        rw [if_pos hlt, if_pos h2, h3, Nat.pow_succ', Nat.div_div_eq_div_mul]
      · have h2 : ¬ (a ≤ x ∧ x < a + (n + 1)) := by omega
        rw [if_neg hlt, if_neg h2, if_neg hxa]

/-- A byte outside a store is as before. -/
theorem Memory.readByte_write_outside {m : Memory} {a n v x : Nat} (h : x < a ∨ a + n ≤ x) :
    (m.write a n v).readByte x = m.readByte x := by
  rw [Memory.readByte_write, if_neg (by omega)]

theorem Memory.readByte_writeS_outside {m : Memory} {a n x : Nat} {v : Int} (h : x < a ∨ a + n ≤ x) :
    (m.writeS a n v).readByte x = m.readByte x :=
  Memory.readByte_write_outside h

/-- A read depends on the bytes it covers only. -/
theorem Memory.read_congr {m m' : Memory} {a n : Nat}
    (h : ∀ x, a ≤ x → x < a + n → m.readByte x = m'.readByte x) : m.read a n = m'.read a n := by
  induction n generalizing a with
  | zero => rfl
  | succ n ih =>
    rw [Memory.read, Memory.read, h a (Nat.le_refl a) (by omega),
      ih fun x h1 h2 => h x (by omega) (by omega)]

theorem Memory.readS_congr {m m' : Memory} {a n : Nat}
    (h : ∀ x, a ≤ x → x < a + n → m.readByte x = m'.readByte x) : m.readS a n = m'.readS a n := by
  rw [Memory.readS, Memory.readS, Memory.read_congr h]

/-- A read of `n` bytes is below `256 ^ n`. -/
theorem Memory.read_lt (m : Memory) (a n : Nat) : m.read a n < 256 ^ n := by
  induction n generalizing a with
  | zero => simp [Memory.read]
  | succ n ih =>
    have h1 := ih (a + 1)
    have h2 := (m.readByte a).isLt
    rw [Memory.read, Nat.pow_succ']
    omega

/-- What `n` bytes read as when byte `k` of them is byte `k` of `v`. -/
theorem Memory.read_of_bytes {m : Memory} {a n v : Nat}
    (h : ∀ k, k < n → m.readByte (a + k) = BitVec.ofNat 8 (v / 256 ^ k)) :
    m.read a n = v % 256 ^ n := by
  induction n generalizing a v with
  | zero => simp [Memory.read, Nat.mod_one]
  | succ n ih =>
    have h0 := h 0 (by omega)
    have hs := ih (a := a + 1) (v := v / 256) fun k hk => by
      have := h (k + 1) (by omega)
      rw [Nat.div_div_eq_div_mul, ← Nat.pow_succ', Nat.add_assoc, Nat.add_comm 1 k]
      exact this
    simp only [Nat.add_zero, Nat.pow_zero, Nat.div_one] at h0
    rw [Memory.read, h0, hs, BitVec.toNat_ofNat, show (2 : Nat) ^ 8 = 256 from rfl, pow_succ' 256 n,
      Nat.mod_mul]

/-- Reading what was stored: the low bytes of the value. -/
theorem Memory.read_write_same (m : Memory) (a n v : Nat) : (m.write a n v).read a n = v % 256 ^ n :=
  Memory.read_of_bytes fun k hk => by
    rw [Memory.readByte_write, if_pos ⟨by omega, by omega⟩, Nat.add_sub_cancel_left]

/-- Reading bytes a store does not touch. -/
theorem Memory.read_write_disjoint {m : Memory} {a n v b k : Nat} (h : b + k ≤ a ∨ a + n ≤ b) :
    (m.write a n v).read b k = m.read b k :=
  Memory.read_congr fun x h1 h2 => Memory.readByte_write_outside (by omega)

/-- A value within the range of `8n` bits is read back as it was stored. -/
theorem Memory.readS_writeS_same (m : Memory) (a n : Nat) (v : Int) :
    (m.writeS a n v).readS a n = (BitVec.ofInt (8 * n) v).toInt := by
  unfold Memory.readS Memory.writeS sext
  rw [Memory.read_write_same]
  congr 1
  apply BitVec.eq_of_toNat_eq
  have h : (256 : Nat) ^ n = 2 ^ (8 * n) := by rw [Nat.pow_mul]
  rw [BitVec.toNat_ofNat, h, Nat.mod_mod, Nat.mod_eq_of_lt (BitVec.isLt _)]

theorem Memory.readS_writeS_disjoint {m : Memory} {a n b k : Nat} {v : Int} (h : b + k ≤ a ∨ a + n ≤ b) :
    (m.writeS a n v).readS b k = m.readS b k :=
  Memory.readS_congr fun x h1 h2 => Memory.readByte_writeS_outside (by omega)

/-- A store keeps the canonical form. -/
theorem Memory.wf_write {m : Memory} (h : m.wf) (a n v : Nat) : (m.write a n v).wf := by
  induction n generalizing m a v with
  | zero => exact h
  | succ n ih => exact ih (Memory.wf_writeByte h _ _) _ _

theorem Memory.wf_writeS {m : Memory} (h : m.wf) (a n : Nat) (v : Int) : (m.writeS a n v).wf :=
  Memory.wf_write h a n _

/-- A store below 2^32 keeps the listed addresses in the address space. -/
theorem Memory.inSpace_write {m : Memory} (h : m.inSpace) {a n : Nat} (v : Nat)
    (ha : a + n ≤ Config.spaceBytes) : (m.write a n v).inSpace := by
  induction n generalizing m a v with
  | zero => exact h
  | succ n ih => exact ih (Memory.inSpace_writeByte h _ (by omega)) _ (by omega)

theorem Memory.inSpace_writeS {m : Memory} (h : m.inSpace) {a n : Nat} (v : Int)
    (ha : a + n ≤ Config.spaceBytes) : (m.writeS a n v).inSpace :=
  Memory.inSpace_write h _ ha

/-- The empty memory, as after power-on, has the canonical form. -/
theorem Memory.wf_nil : Memory.wf [] := ⟨List.Pairwise.nil, by simp⟩

end Sys2Proof.Machine
end

