-- ==== Sys2Proof/Laws/Effects.lean ====
section
/-! SUPPORT. What a block command's writes can touch: `WritesIn p g` says that the memory operation `g` changes bytes at
addresses with `p` only, keeps the canonical form, and keeps the listed addresses in the address space. One lemma
for each shared operation, then one for each command's effect. -/

namespace Sys2Proof.Machine

/-- The operation changes bytes at addresses with `p` only, and keeps the memory's form. -/
structure WritesIn (p : Nat → Prop) (g : Memory → Memory) : Prop where
  bytes : ∀ m x, ¬ p x → (g m).readByte x = m.readByte x
  wf : ∀ m, m.wf → (g m).wf
  space : (∀ x, p x → x < Config.spaceBytes) → ∀ m, m.inSpace → (g m).inSpace

namespace WritesIn

variable {p q : Nat → Prop} {g h : Memory → Memory}

theorem mono (hg : WritesIn p g) (hpq : ∀ x, p x → q x) : WritesIn q g where
  bytes m x hx := hg.bytes m x fun hp => hx (hpq x hp)
  wf := hg.wf
  space hs := hg.space fun x hp => hs x (hpq x hp)

/-- Doing nothing. -/
theorem skip : WritesIn p (fun m => m) where
  bytes _ _ _ := rfl
  wf _ hm := hm
  space _ _ hm := hm

/-- One operation after another. -/
theorem comp (hg : WritesIn p g) (hh : WritesIn p h) : WritesIn p (fun m => h (g m)) where
  bytes m x hx := (hh.bytes _ x hx).trans (hg.bytes m x hx)
  wf m hm := hh.wf _ (hg.wf m hm)
  space hs m hm := hh.space hs _ (hg.space hs m hm)

/-- A loop whose every pass stays within the addresses. -/
theorem loop {n : Nat} {f : Nat → Memory → Memory} (hf : ∀ k, k < n → WritesIn p (f k)) :
    WritesIn p (fun m => forUp n f m) where
  bytes m x hx := forUp_keeps (P := fun t => t.readByte x = m.readByte x) n rfl
    fun k hk t ht => ((hf k hk).bytes t x hx).trans ht
  wf _ hm := forUp_keeps (P := fun t : Memory => t.wf) n hm fun k hk t ht => (hf k hk).wf t ht
  space hs _ hm := forUp_keeps (P := fun t : Memory => t.inSpace) n hm
    fun k hk t ht => (hf k hk).space hs t ht

/-- A store of `n` bytes, the value taken from the memory it is done on. -/
theorem write {a n : Nat} (v : Memory → Nat) (hp : ∀ x, a ≤ x → x < a + n → p x) :
    WritesIn p (fun m => m.write a n (v m)) where
  bytes m x hx := Memory.readByte_write_outside (by
    by_contra hn
    exact hx (hp x (by omega) (by omega)))
  wf _ hm := Memory.wf_write hm _ _ _
  space hs _ hm := by
    by_cases h0 : n = 0
    · subst h0; exact hm
    · exact Memory.inSpace_write hm _ (by
        have := hs (a + n - 1) (hp _ (by omega) (by omega))
        omega)

theorem writeS {a n : Nat} (v : Memory → Int) (hp : ∀ x, a ≤ x → x < a + n → p x) :
    WritesIn p (fun m => m.writeS a n (v m)) :=
  WritesIn.write (fun m => (BitVec.ofInt (8 * n) (v m)).toNat) hp

end WritesIn

/-- Element `k` of `n` elements of `b` bytes lies within their buffer. -/
theorem element_in {base b k n x : Nat} (hk : k < n) (h1 : base + k * b ≤ x) (h2 : x < base + k * b + b) :
    (⟨base, n * b⟩ : Buffer).Holds x := by
  have : (k + 1) * b ≤ n * b := Nat.mul_le_mul_right b hk
  have : (k + 1) * b = k * b + b := Nat.succ_mul k b
  exact ⟨by simp only; omega, by simp only; omega⟩

/-- Element `(b, y, x, c)` lies within its tensor (R38). -/
theorem tensor_element_lt {bn h wd ch b y x c : Nat} (hb : b < bn) (hy : y < h) (hx : x < wd) (hc : c < ch) :
    ((b * h + y) * wd + x) * ch + c < bn * h * wd * ch := by
  have h1 : b * h + y + 1 ≤ bn * h :=
    calc b * h + y + 1 ≤ b * h + h := by omega
      _ = (b + 1) * h := (Nat.succ_mul b h).symm
      _ ≤ bn * h := Nat.mul_le_mul_right h hb
  have h2 : (b * h + y) * wd + x + 1 ≤ bn * h * wd :=
    calc (b * h + y) * wd + x + 1 ≤ (b * h + y) * wd + wd := by omega
      _ = (b * h + y + 1) * wd := (Nat.succ_mul _ wd).symm
      _ ≤ bn * h * wd := Nat.mul_le_mul_right wd h1
  calc ((b * h + y) * wd + x) * ch + c < ((b * h + y) * wd + x) * ch + ch := by omega
    _ = ((b * h + y) * wd + x + 1) * ch := (Nat.succ_mul _ ch).symm
    _ ≤ bn * h * wd * ch := Nat.mul_le_mul_right ch h2

/-- The bytes of element `(b, y, x, c)` lie within its tensor (R38). -/
theorem tensorAt_in {p bn h wd ch e b y x c z : Nat} (hb : b < bn) (hy : y < h) (hx : x < wd) (hc : c < ch)
    (h1 : tensorAt p h wd ch e b y x c ≤ z) (h2 : z < tensorAt p h wd ch e b y x c + e) :
    (⟨p, bn * h * wd * ch * e⟩ : Buffer).Holds z :=
  element_in (tensor_element_lt hb hy hx hc) h1 h2

/-- `FIRINIT` writes the state buffer and the word `PHASE` (R151). -/
theorem firinitMem_writes (f : FirRecord) (d : Nat) :
    WritesIn (fun x => f.stateBuffer.Holds x ∨ (⟨d + 0x18, 4⟩ : Buffer).Holds x) (firinitMem f d) :=
  WritesIn.comp (h := fun m => m.write (d + 0x18) 4 0)
    (WritesIn.loop fun _ hk => WritesIn.write (fun _ => 0) fun _ h1 h2 => Or.inl (element_in hk h1 h2))
    (WritesIn.write (fun _ => 0) fun _ h1 h2 => Or.inr ⟨h1, h2⟩)

/-- `FIRPROC` writes the state buffer, the output block and the word `PHASE` (R152). -/
theorem firprocMem_writes (r : Rounding) (f : FirRecord) (d inp out : Nat) :
    WritesIn
      (fun x => f.stateBuffer.Holds x ∨ (f.outBuffer out).Holds x ∨ (⟨d + 0x18, 4⟩ : Buffer).Holds x)
      (firprocMem r f d inp out) :=
  WritesIn.comp (h := fun m => m.write (d + 0x18) 4 1)
    (WritesIn.comp
      (WritesIn.comp
        (WritesIn.loop fun _ hk => WritesIn.write _ fun _ h1 h2 =>
          Or.inl (element_in (by omega) h1 h2))
        (WritesIn.loop fun _ hk => WritesIn.writeS _ fun _ h1 h2 =>
          Or.inr (Or.inl (element_in hk h1 h2))))
      (WritesIn.loop fun _ hk => WritesIn.write _ fun _ h1 h2 => Or.inl (element_in (by omega) h1 h2)))
    (WritesIn.write (fun _ => 1) fun _ h1 h2 => Or.inr (Or.inr ⟨h1, h2⟩))

/-- `CMAG` writes the destination array (R171). -/
theorem cmagMem_writes (f : F32Ops) (magic : Word) (lanes src dst n : Nat) :
    WritesIn (cmagDest dst n).Holds (cmagMem f magic lanes src dst n) :=
  WritesIn.loop fun _ hk => WritesIn.write _ fun x h1 h2 => ⟨by simp only [cmagDest]; omega,
    by simp only [cmagDest]; omega⟩

/-- `DWCONV` writes the output tensor (R205). -/
theorem dwconvMem_writes (r : Rounding) (q : DwDesc) : WritesIn q.outBuffer.Holds (dwconvMem r q) :=
  WritesIn.loop fun b hb => WritesIn.loop fun oy hy => WritesIn.loop fun ox hx => WritesIn.loop fun c hc =>
    WritesIn.writeS _ fun x h1 h2 => by
      have := tensorAt_in hb hy hx hc h1 h2
      rwa [Nat.mul_one] at this

theorem poolVisit_writes (q : PoolDesc) (e : Nat) {b oy ox : Nat} (y x : Nat) (first : Bool)
    (hb : b < q.batch.toNat) (hy : oy < q.outH) (hx : ox < q.outW) :
    WritesIn (q.outBuffer e).Holds (poolVisit q e b oy ox y x first) :=
  WritesIn.loop fun c hc => by
    cases first
    · exact WritesIn.writeS _ fun z h1 h2 => tensorAt_in hb hy hx hc h1 h2
    · exact WritesIn.writeS _ fun z h1 h2 => tensorAt_in hb hy hx hc h1 h2

theorem poolPass1_writes (q : PoolDesc) (e : Nat) {b : Nat} (hb : b < q.batch.toNat) :
    WritesIn (q.outBuffer e).Holds (poolPass1 q e b) :=
  WritesIn.loop fun _ hy => WritesIn.loop fun _ hx => WritesIn.loop fun _ _ => WritesIn.loop fun _ _ =>
    poolVisit_writes q e _ _ _ hb hy hx

theorem poolPass2_writes (q : PoolDesc) (e : Nat) {b : Nat} (hb : b < q.batch.toNat) :
    WritesIn (q.outBuffer e).Holds (poolPass2 q e b) :=
  WritesIn.loop fun k hk => WritesIn.writeS _ fun z h1 h2 => by
    have he : q.outAt e b 0 0 0 + k * e = q.outPtr + (b * (q.outH * q.outW * q.ch) + k) * e := by
      simp only [PoolDesc.outAt, tensorAt]; ring
    rw [he] at h1 h2
    have hlt : b * (q.outH * q.outW * q.ch) + k < q.batch.toNat * q.outH * q.outW * q.ch :=
      calc b * (q.outH * q.outW * q.ch) + k
          < b * (q.outH * q.outW * q.ch) + q.outH * q.outW * q.ch := by omega
        _ = (b + 1) * (q.outH * q.outW * q.ch) := (Nat.succ_mul _ _).symm
        _ ≤ q.batch.toNat * (q.outH * q.outW * q.ch) := Nat.mul_le_mul_right _ hb
        _ = q.batch.toNat * q.outH * q.outW * q.ch := by ring
    exact element_in hlt h1 h2

/-- `MAXPOOL` writes the output tensor (R212). -/
theorem maxpoolMem_writes (q : PoolDesc) (e : Nat) : WritesIn (q.outBuffer e).Holds (maxpoolMem q e) :=
  WritesIn.loop fun _ hb => WritesIn.comp (poolPass1_writes q e hb) (poolPass2_writes q e hb)

/-- `RELU` writes its array (R219). -/
theorem reluMem_writes (p e n : Nat) : WritesIn (⟨p, n * e⟩ : Buffer).Holds (reluMem p e n) :=
  WritesIn.loop fun _ hk => WritesIn.writeS _ fun _ h1 h2 => element_in hk h1 h2

/-- `UNPACK4` writes its destination (R223). -/
theorem unpackMem_writes (src dst n : Nat) : WritesIn (bytesBuffer dst n).Holds (unpackMem src dst n) :=
  WritesIn.loop fun _ hk => WritesIn.writeS _ fun x h1 h2 =>
    ⟨by simp only [bytesBuffer]; omega, by simp only [bytesBuffer]; omega⟩

/-- `PACK4` writes its destination (R224). -/
theorem packMem_writes (src dst n : Nat) : WritesIn (packedBuffer dst n).Holds (packMem src dst n) :=
  WritesIn.loop fun _ hk => WritesIn.write _ fun x h1 h2 =>
    ⟨by simp only [packedBuffer]; omega, by simp only [packedBuffer]; omega⟩

end Sys2Proof.Machine
end

