-- ==== Sys2Proof/Laws/Encoding.lean ====
section
/-! SUPPORT. The command word as a number and field by field: what each field of an encoded word is (R91). -/

namespace Sys2Proof

/-- Concatenation as arithmetic. -/
theorem toNat_append_eq {n m : Nat} (x : BitVec n) (y : BitVec m) :
    (x ++ y).toNat = x.toNat * 2 ^ m + y.toNat := by
  rw [BitVec.toNat_append, ← Nat.shiftLeft_add_eq_or_of_lt y.isLt, Nat.shiftLeft_eq]

/-- The bitwise and of two concatenations of the same shape. -/
theorem append_and_append {n m : Nat} (x x' : BitVec n) (y y' : BitVec m) :
    (x ++ y) &&& (x' ++ y') = (x &&& x') ++ (y &&& y') := by
  ext i hi
  simp only [BitVec.getElem_and, BitVec.getElem_append]
  split <;> simp

section
variable (op op' : BitVec 8) (rd rd' rs1 rs1' rs2 rs2' rs3 rs3' : Reg) (ws ws' : BitVec 2) (im im' : BitVec 6)

/-- The word of format `C` as a number (R91). -/
theorem formatC_toNat :
    (formatC op rd rs1 rs2 rs3 ws im).toNat =
      (((((op.toNat * 16 + rd.toNat) * 16 + rs1.toNat) * 16 + rs2.toNat) * 16 + rs3.toNat) * 4 + ws.toNat)
        * 64 + im.toNat := by
  simp only [formatC, toNat_append_eq]
  omega

/-- The bounds of the seven fields. -/
theorem field_bounds : op.toNat < 256 ∧ rd.toNat < 16 ∧ rs1.toNat < 16 ∧ rs2.toNat < 16 ∧ rs3.toNat < 16 ∧
    ws.toNat < 4 ∧ im.toNat < 64 :=
  ⟨op.isLt, rd.isLt, rs1.isLt, rs2.isLt, rs3.isLt, ws.isLt, im.isLt⟩

@[simp] theorem fieldOp_formatC : fieldOp (formatC op rd rs1 rs2 rs3 ws im) = op := by
  have h := field_bounds op rd rs1 rs2 rs3 ws im
  apply BitVec.eq_of_toNat_eq
  simp only [fieldOp, BitVec.extractLsb'_toNat, formatC_toNat, Nat.shiftRight_eq_div_pow]
  omega

@[simp] theorem fieldRd_formatC : fieldRd (formatC op rd rs1 rs2 rs3 ws im) = rd := by
  have h := field_bounds op rd rs1 rs2 rs3 ws im
  apply BitVec.eq_of_toNat_eq
  simp only [fieldRd, BitVec.extractLsb'_toNat, formatC_toNat, Nat.shiftRight_eq_div_pow]
  omega

@[simp] theorem fieldRs1_formatC : fieldRs1 (formatC op rd rs1 rs2 rs3 ws im) = rs1 := by
  have h := field_bounds op rd rs1 rs2 rs3 ws im
  apply BitVec.eq_of_toNat_eq
  simp only [fieldRs1, BitVec.extractLsb'_toNat, formatC_toNat, Nat.shiftRight_eq_div_pow]
  omega

@[simp] theorem fieldRs2_formatC : fieldRs2 (formatC op rd rs1 rs2 rs3 ws im) = rs2 := by
  have h := field_bounds op rd rs1 rs2 rs3 ws im
  apply BitVec.eq_of_toNat_eq
  simp only [fieldRs2, BitVec.extractLsb'_toNat, formatC_toNat, Nat.shiftRight_eq_div_pow]
  omega

@[simp] theorem fieldRs3_formatC : fieldRs3 (formatC op rd rs1 rs2 rs3 ws im) = rs3 := by
  have h := field_bounds op rd rs1 rs2 rs3 ws im
  apply BitVec.eq_of_toNat_eq
  simp only [fieldRs3, BitVec.extractLsb'_toNat, formatC_toNat, Nat.shiftRight_eq_div_pow]
  omega

@[simp] theorem fieldWsel_formatC : fieldWsel (formatC op rd rs1 rs2 rs3 ws im) = ws := by
  have h := field_bounds op rd rs1 rs2 rs3 ws im
  apply BitVec.eq_of_toNat_eq
  simp only [fieldWsel, BitVec.extractLsb'_toNat, formatC_toNat, Nat.shiftRight_eq_div_pow]
  omega

@[simp] theorem fieldImm6_formatC : fieldImm6 (formatC op rd rs1 rs2 rs3 ws im) = im := by
  have h := field_bounds op rd rs1 rs2 rs3 ws im
  apply BitVec.eq_of_toNat_eq
  simp only [fieldImm6, BitVec.extractLsb'_toNat, formatC_toNat, Nat.shiftRight_eq_div_pow]
  omega

/-- Masking a word of format `C` masks its fields. -/
theorem formatC_and :
    formatC op rd rs1 rs2 rs3 ws im &&& formatC op' rd' rs1' rs2' rs3' ws' im' =
      formatC (op &&& op') (rd &&& rd') (rs1 &&& rs1') (rs2 &&& rs2') (rs3 &&& rs3') (ws &&& ws')
        (im &&& im') := by
  simp only [formatC]
  rw [append_and_append, append_and_append, append_and_append, append_and_append, append_and_append,
    append_and_append]

/-- Every word is the format `C` word of its fields (R91). -/
theorem formatC_fields (w : Word) :
    formatC (fieldOp w) (fieldRd w) (fieldRs1 w) (fieldRs2 w) (fieldRs3 w) (fieldWsel w) (fieldImm6 w) = w := by
  apply BitVec.eq_of_toNat_eq
  have h := w.isLt
  simp only [formatC_toNat, fieldOp, fieldRd, fieldRs1, fieldRs2, fieldRs3, fieldWsel, fieldImm6,
    BitVec.extractLsb'_toNat, Nat.shiftRight_eq_div_pow]
  omega

end

/-- `WSEL` names the width it was made from (R92). -/
@[simp] theorem Width.ofSel_sel (w : Width) : Width.ofSel w.sel = some w := by cases w <;> rfl

/-- The row of an opcode byte is the row itself: no two rows share `OP` (R94, R95). -/
@[simp] theorem Opcode.ofByte_byte (o : Opcode) : Opcode.ofByte o.byte = some o := by cases o <;> decide

end Sys2Proof
end

