-- ==== Sys2Proof/Laws/State.lean ====
section
/-! SUPPORT. The small lemmas of the state's updates: one per field per update, true by definition, so that no later
proof unfolds a record update; and what reading a register gives after writing one. -/

namespace Sys2Proof.Machine

@[simp] theorem State.raise_x (s : State) (c : Status) : (s.raise c).x = s.x := rfl

@[simp] theorem State.raise_status (s : State) (c : Status) : (s.raise c).status = c := rfl

@[simp] theorem State.raise_rnd (s : State) (c : Status) : (s.raise c).rnd = s.rnd := rfl

@[simp] theorem State.raise_isqrtMagic (s : State) (c : Status) : (s.raise c).isqrtMagic = s.isqrtMagic := rfl

@[simp] theorem State.raise_atanCoef (s : State) (c : Status) : (s.raise c).atanCoef = s.atanCoef := rfl

@[simp] theorem State.raise_mem (s : State) (c : Status) : (s.raise c).mem = s.mem := rfl

@[simp] theorem State.raise_plat (s : State) (c : Status) : (s.raise c).plat = s.plat := rfl

@[simp] theorem State.raise_queue (s : State) (c : Status) : (s.raise c).queue = s.queue := rfl

@[simp] theorem State.raise_reply (s : State) (c : Status) : (s.raise c).reply = s.reply := rfl

@[simp] theorem State.succeed_x (s : State) : (s.succeed).x = s.x := rfl

@[simp] theorem State.succeed_status (s : State) : (s.succeed).status = Status.success := rfl

@[simp] theorem State.succeed_rnd (s : State) : (s.succeed).rnd = s.rnd := rfl

@[simp] theorem State.succeed_isqrtMagic (s : State) : (s.succeed).isqrtMagic = s.isqrtMagic := rfl

@[simp] theorem State.succeed_atanCoef (s : State) : (s.succeed).atanCoef = s.atanCoef := rfl

@[simp] theorem State.succeed_mem (s : State) : (s.succeed).mem = s.mem := rfl

@[simp] theorem State.succeed_plat (s : State) : (s.succeed).plat = s.plat := rfl

@[simp] theorem State.succeed_queue (s : State) : (s.succeed).queue = s.queue := rfl

@[simp] theorem State.succeed_reply (s : State) : (s.succeed).reply = s.reply := rfl

@[simp] theorem State.finishMem_x (s : State) (m : Memory) : (s.finishMem m).x = s.x := rfl

@[simp] theorem State.finishMem_status (s : State) (m : Memory) : (s.finishMem m).status = Status.success := rfl

@[simp] theorem State.finishMem_rnd (s : State) (m : Memory) : (s.finishMem m).rnd = s.rnd := rfl

@[simp] theorem State.finishMem_isqrtMagic (s : State) (m : Memory) : (s.finishMem m).isqrtMagic = s.isqrtMagic := rfl

@[simp] theorem State.finishMem_atanCoef (s : State) (m : Memory) : (s.finishMem m).atanCoef = s.atanCoef := rfl

@[simp] theorem State.finishMem_mem (s : State) (m : Memory) : (s.finishMem m).mem = m := rfl

@[simp] theorem State.finishMem_plat (s : State) (m : Memory) : (s.finishMem m).plat = s.plat := rfl

@[simp] theorem State.finishMem_queue (s : State) (m : Memory) : (s.finishMem m).queue = s.queue := rfl

@[simp] theorem State.finishMem_reply (s : State) (m : Memory) : (s.finishMem m).reply = s.reply := rfl

@[simp] theorem State.setX_x (s : State) (i : Reg) (v : XWord) : (s.setX i v).x = s.x.set i.toNat v i.isLt := rfl

@[simp] theorem State.setX_status (s : State) (i : Reg) (v : XWord) : (s.setX i v).status = s.status := rfl

@[simp] theorem State.setX_rnd (s : State) (i : Reg) (v : XWord) : (s.setX i v).rnd = s.rnd := rfl

@[simp] theorem State.setX_isqrtMagic (s : State) (i : Reg) (v : XWord) : (s.setX i v).isqrtMagic = s.isqrtMagic := rfl

@[simp] theorem State.setX_atanCoef (s : State) (i : Reg) (v : XWord) : (s.setX i v).atanCoef = s.atanCoef := rfl

@[simp] theorem State.setX_mem (s : State) (i : Reg) (v : XWord) : (s.setX i v).mem = s.mem := rfl

@[simp] theorem State.setX_plat (s : State) (i : Reg) (v : XWord) : (s.setX i v).plat = s.plat := rfl

@[simp] theorem State.setX_queue (s : State) (i : Reg) (v : XWord) : (s.setX i v).queue = s.queue := rfl

@[simp] theorem State.setX_reply (s : State) (i : Reg) (v : XWord) : (s.setX i v).reply = s.reply := rfl

@[simp] theorem State.finishX_x (s : State) (rd : Reg) (v : Int) : (s.finishX rd v).x = s.x.set rd.toNat (BitVec.ofInt 64 v) rd.isLt := rfl

@[simp] theorem State.finishX_status (s : State) (rd : Reg) (v : Int) : (s.finishX rd v).status = Status.success := rfl

@[simp] theorem State.finishX_rnd (s : State) (rd : Reg) (v : Int) : (s.finishX rd v).rnd = s.rnd := rfl

@[simp] theorem State.finishX_isqrtMagic (s : State) (rd : Reg) (v : Int) : (s.finishX rd v).isqrtMagic = s.isqrtMagic := rfl

@[simp] theorem State.finishX_atanCoef (s : State) (rd : Reg) (v : Int) : (s.finishX rd v).atanCoef = s.atanCoef := rfl

@[simp] theorem State.finishX_mem (s : State) (rd : Reg) (v : Int) : (s.finishX rd v).mem = s.mem := rfl

@[simp] theorem State.finishX_plat (s : State) (rd : Reg) (v : Int) : (s.finishX rd v).plat = s.plat := rfl

@[simp] theorem State.finishX_queue (s : State) (rd : Reg) (v : Int) : (s.finishX rd v).queue = s.queue := rfl

@[simp] theorem State.finishX_reply (s : State) (rd : Reg) (v : Int) : (s.finishX rd v).reply = s.reply := rfl

@[simp] theorem State.withReply_x (s : State) (r : HostReply) : (s.withReply r).x = s.x := rfl

@[simp] theorem State.withReply_status (s : State) (r : HostReply) : (s.withReply r).status = s.status := rfl

@[simp] theorem State.withReply_rnd (s : State) (r : HostReply) : (s.withReply r).rnd = s.rnd := rfl

@[simp] theorem State.withReply_isqrtMagic (s : State) (r : HostReply) : (s.withReply r).isqrtMagic = s.isqrtMagic := rfl

@[simp] theorem State.withReply_atanCoef (s : State) (r : HostReply) : (s.withReply r).atanCoef = s.atanCoef := rfl

@[simp] theorem State.withReply_mem (s : State) (r : HostReply) : (s.withReply r).mem = s.mem := rfl

@[simp] theorem State.withReply_plat (s : State) (r : HostReply) : (s.withReply r).plat = s.plat := rfl

@[simp] theorem State.withReply_queue (s : State) (r : HostReply) : (s.withReply r).queue = s.queue := rfl

@[simp] theorem State.withReply_reply (s : State) (r : HostReply) : (s.withReply r).reply = r := rfl

@[simp] theorem State.popped_x (s : State) : (s.popped).x = s.x := rfl

@[simp] theorem State.popped_status (s : State) : (s.popped).status = s.status := rfl

@[simp] theorem State.popped_rnd (s : State) : (s.popped).rnd = s.rnd := rfl

@[simp] theorem State.popped_isqrtMagic (s : State) : (s.popped).isqrtMagic = s.isqrtMagic := rfl

@[simp] theorem State.popped_atanCoef (s : State) : (s.popped).atanCoef = s.atanCoef := rfl

@[simp] theorem State.popped_mem (s : State) : (s.popped).mem = s.mem := rfl

@[simp] theorem State.popped_plat (s : State) : (s.popped).plat = s.plat := rfl

@[simp] theorem State.popped_queue (s : State) : (s.popped).queue = s.queue.tail := rfl

@[simp] theorem State.popped_reply (s : State) : (s.popped).reply = s.reply := rfl

@[simp] theorem State.setCoef_x (s : State) (i : Nat) (v : Word) : (s.setCoef i v).x = s.x := rfl

@[simp] theorem State.setCoef_status (s : State) (i : Nat) (v : Word) : (s.setCoef i v).status = s.status := rfl

@[simp] theorem State.setCoef_rnd (s : State) (i : Nat) (v : Word) : (s.setCoef i v).rnd = s.rnd := rfl

@[simp] theorem State.setCoef_isqrtMagic (s : State) (i : Nat) (v : Word) : (s.setCoef i v).isqrtMagic = s.isqrtMagic := rfl

@[simp] theorem State.setCoef_atanCoef (s : State) (i : Nat) (v : Word) : (s.setCoef i v).atanCoef = s.atanCoef.setIfInBounds i (v.setWidth 16) := rfl

@[simp] theorem State.setCoef_mem (s : State) (i : Nat) (v : Word) : (s.setCoef i v).mem = s.mem := rfl

@[simp] theorem State.setCoef_plat (s : State) (i : Nat) (v : Word) : (s.setCoef i v).plat = s.plat := rfl

@[simp] theorem State.setCoef_queue (s : State) (i : Nat) (v : Word) : (s.setCoef i v).queue = s.queue := rfl

@[simp] theorem State.setCoef_reply (s : State) (i : Nat) (v : Word) : (s.setCoef i v).reply = s.reply := rfl

@[simp] theorem State.platformReset_x (s : State) : (s.platformReset).x = Vector.replicate 16 0#64 := rfl

@[simp] theorem State.platformReset_status (s : State) : (s.platformReset).status = Status.success := rfl

@[simp] theorem State.platformReset_rnd (s : State) : (s.platformReset).rnd = Rounding.halfUp := rfl

@[simp] theorem State.platformReset_isqrtMagic (s : State) : (s.platformReset).isqrtMagic = 0#32 := rfl

@[simp] theorem State.platformReset_atanCoef (s : State) : (s.platformReset).atanCoef = Vector.replicate 10 0#16 := rfl

@[simp] theorem State.platformReset_mem (s : State) : (s.platformReset).mem = s.mem := rfl

@[simp] theorem State.platformReset_plat (s : State) : (s.platformReset).plat = s.plat := rfl

@[simp] theorem State.platformReset_queue (s : State) : (s.platformReset).queue = s.queue := rfl

@[simp] theorem State.platformReset_reply (s : State) : (s.platformReset).reply = s.reply := rfl

@[simp] theorem State.powerOn_x (p : Platform) : (State.powerOn p).x = Vector.replicate 16 0#64 := rfl

@[simp] theorem State.powerOn_status (p : Platform) : (State.powerOn p).status = Status.success := rfl

@[simp] theorem State.powerOn_rnd (p : Platform) : (State.powerOn p).rnd = Rounding.halfUp := rfl

@[simp] theorem State.powerOn_isqrtMagic (p : Platform) : (State.powerOn p).isqrtMagic = 0#32 := rfl

@[simp] theorem State.powerOn_atanCoef (p : Platform) : (State.powerOn p).atanCoef = Vector.replicate 10 0#16 := rfl

@[simp] theorem State.powerOn_mem (p : Platform) : (State.powerOn p).mem = [] := rfl

@[simp] theorem State.powerOn_plat (p : Platform) : (State.powerOn p).plat = p := rfl

@[simp] theorem State.powerOn_queue (p : Platform) : (State.powerOn p).queue = [] := rfl

@[simp] theorem State.powerOn_reply (p : Platform) : (State.powerOn p).reply = HostReply.none := rfl

/-- Reading the register that was written. -/
@[simp] theorem State.getX_setX_same (s : State) (i : Reg) (v : XWord) : (s.setX i v).getX i = v := by
  simp [State.getX, State.setX]

/-- Reading another register. -/
theorem State.getX_setX_ne (s : State) {i j : Reg} (v : XWord) (h : j ≠ i) :
    (s.setX i v).getX j = s.getX j := by
  have hne : i.toNat ≠ j.toNat := fun e => h (BitVec.eq_of_toNat_eq e).symm
  simp [State.getX, State.setX, Vector.getElem_set_ne, hne]

/-- A register is read from `x` alone. -/
theorem State.getX_congr {s t : State} (h : s.x = t.x) (i : Reg) : s.getX i = t.getX i := by
  simp [State.getX, h]

/-- Writing a control register touches the three writable ones only. -/
theorem State.writeCsr_frame (s : State) (n : BitVec 6) (v : Word) :
    (s.writeCsr n v).x = s.x ∧ (s.writeCsr n v).status = s.status ∧ (s.writeCsr n v).mem = s.mem ∧
      (s.writeCsr n v).plat = s.plat ∧ (s.writeCsr n v).queue = s.queue ∧
      (s.writeCsr n v).reply = s.reply := by
  unfold State.writeCsr
  split
  · exact ⟨rfl, rfl, rfl, rfl, rfl, rfl⟩
  · split
    · exact ⟨rfl, rfl, rfl, rfl, rfl, rfl⟩
    · split <;> exact ⟨rfl, rfl, rfl, rfl, rfl, rfl⟩

end Sys2Proof.Machine
end

