-- ==== Sys2Proof/Laws/Exec.lean ====
section
/-! SUPPORT. What each meaning can answer when it answers a next state, said once: its contract held and the state is
the command's effect, or it ended by a `raise`. And when a contract's checks find nothing. -/

namespace Sys2Proof.Machine

/-- `FIRINIT`'s checks find nothing exactly when its contract holds (R151). -/
theorem firinitStop_eq_none (s : State) (d : Nat) : firinitStop s d = none ↔ FirinitContract s d := by
  simp only [firinitStop, firstStop_cons, firstStop_nil, State.bufferStop_eq_none, require_eq_none,
    decide_eq_true_eq, overlapStop_eq_none, List.mem_singleton, forall_eq, and_true, FirRecord.fmtOk]
  exact ⟨fun ⟨h1, h2, h3, h4, h5, h6, h7⟩ => ⟨h1, h2, h3, h4, h5, h6, h7⟩,
    fun h => ⟨h.head, h.rest, h.taps, h.block, h.fmt, h.state, h.apart⟩⟩

/-- `FIRPROC`'s checks find nothing exactly when its contract holds (R152). -/
theorem firprocStop_eq_none (s : State) (d inp out : Nat) :
    firprocStop s d inp out = none ↔ FirprocContract s d inp out := by
  simp only [firprocStop, firstStop_cons, firstStop_nil, State.bufferStop_eq_none, require_eq_none,
    decide_eq_true_eq, overlapStop_eq_none, List.mem_cons, List.not_mem_nil, or_false, forall_eq_or_imp,
    forall_eq, and_true, FirRecord.fmtOk, ← Nat.dvd_iff_mod_eq_zero]
  constructor
  · rintro ⟨h1, h2, h3, h4, h5, h6, h7, h8, h9, h10, ⟨h11, h12, h13, h14⟩, ⟨h15, h16, h17⟩, ⟨h18, h19⟩, h20⟩
    exact ⟨h1, h2, h3, h4, h5, h6, h7, h8, h9, h10, h11, h12, h13, h14, h15, h16, h17, h18, h19, h20⟩
  · intro h
    exact ⟨h.record, h.taps, h.decim, h.block, h.multiple, h.fmt, h.coef, h.state, h.input, h.output,
      ⟨h.recordCoef, h.recordState, h.recordInput, h.recordOutput⟩,
      ⟨h.coefState, h.coefInput, h.coefOutput⟩, ⟨h.stateInput, h.stateOutput⟩, h.inputOutput⟩

/-- `CMAG`'s checks find nothing exactly when its contract holds (R171). -/
theorem cmagStop_eq_none (s : State) (src dst n : Nat) :
    cmagStop s src dst n = none ↔ CmagContract s src dst n := by
  simp only [cmagStop, firstStop_cons, firstStop_nil, State.bufferStop_eq_none, overlapStop_eq_none,
    List.mem_singleton, forall_eq, and_true]
  exact ⟨fun ⟨h1, h2, h3⟩ => ⟨h1, h2, h3⟩, fun h => ⟨h.source, h.dest, h.apart⟩⟩

/-- `DWCONV`'s checks find nothing exactly when its contract holds (R205). -/
theorem dwconvStop_eq_none {s : State} {d : Nat} (hd : s.Usable 4 ⟨d, 88⟩)
    (hb : 0 < (dwDesc s.mem d).batch) :
    dwconvStop s d (dwDesc s.mem d) = none ↔ DwconvContract s d := by
  simp only [dwconvStop, firstStop_cons, firstStop_nil, State.bufferStop_eq_none, require_eq_none,
    decide_eq_true_eq, overlapStop_eq_none, List.mem_cons, List.not_mem_nil, or_false, forall_eq_or_imp,
    forall_eq, and_true, DwDesc.fieldsOk]
  constructor
  · rintro ⟨⟨f1, f2, f3, f4, f5, f6, f7, f8, f9⟩, h2, h3, h4, h5, h6, h7, h8, h9, h10, h11, h12, h13, h14⟩
    exact ⟨hd, hb, f1, f2, f3, f4, f5, f6, f7, f8, f9, h2, h3, h4, h5, h6, h7, h8, h9, h10, h11, h12, h13,
      h14⟩
  · intro h
    exact ⟨⟨h.inH, h.inW, h.ch, h.kH, h.kW, h.strideH, h.strideW, h.outH, h.outW⟩, h.bounds, h.input,
      h.weights, h.bias, h.mult, h.shift, h.output, h.outDesc, h.outInput, h.outWeights, h.outBias,
      h.outMult, h.outShift⟩

/-- `MAXPOOL`'s checks find nothing exactly when its contract holds (R212). -/
theorem maxpoolStop_eq_none {s : State} {d : Nat} (e : Nat) (hd : s.Usable 4 ⟨d, 64⟩)
    (hb : 0 < (poolDesc s.mem d).batch) :
    maxpoolStop s d e (poolDesc s.mem d) = none ↔ MaxpoolContract s d e := by
  simp only [maxpoolStop, firstStop_cons, firstStop_nil, State.bufferStop_eq_none, require_eq_none,
    decide_eq_true_eq, overlapStop_eq_none, List.mem_cons, List.not_mem_nil, or_false, forall_eq_or_imp,
    forall_eq, and_true, PoolDesc.fieldsOk]
  constructor
  · rintro ⟨⟨f1, f2, f3, f4, f5, f6, f7, f8, f9⟩, h2, h3, h4, ⟨h5, h6⟩, h7⟩
    exact ⟨hd, hb, f1, f2, f3, f4, f5, f6, f7, f8, f9, h2, h3, h4, h5, h6, h7⟩
  · intro h
    exact ⟨⟨h.inH, h.inW, h.ch, h.kH, h.kW, h.strideH, h.strideW, h.outH, h.outW⟩, h.bounds, h.input,
      h.output, ⟨h.inOut, h.inDesc⟩, h.outDesc⟩

/-- The checks of `UNPACK4` and `PACK4` find nothing exactly when their contract holds (R223, R224). -/
theorem packStop_eq_none (s : State) (src dst : Buffer) :
    packStop s src dst = none ↔ s.Usable 1 src ∧ s.Usable 1 dst ∧ src.Apart dst := by
  simp only [packStop, firstStop_cons, firstStop_nil, State.bufferStop_eq_none, overlapStop_eq_none,
    List.mem_singleton, forall_eq, and_true]

theorem execFirinit_eq_next {rs1 : Reg} {s t : State} :
    execFirinit rs1 s = .next t ↔
      FirinitContract s (s.low32 rs1) ∧
        s.finishMem (firinitMem (firRecord s.mem (s.low32 rs1)) (s.low32 rs1) s.mem) = t := by
  rw [execFirinit, unlessStop_eq_next, firinitStop_eq_none, Host.Outcome.next.injEq]

theorem execFirproc_eq_next {rs1 rs2 rs3 : Reg} {s t : State} :
    execFirproc rs1 rs2 rs3 s = .next t ↔
      FirprocContract s (s.low32 rs1) (s.low32 rs2) (s.low32 rs3) ∧
        s.finishMem (firprocMem s.rnd (firRecord s.mem (s.low32 rs1)) (s.low32 rs1) (s.low32 rs2)
          (s.low32 rs3) s.mem) = t := by
  rw [execFirproc, unlessStop_eq_next, firprocStop_eq_none, Host.Outcome.next.injEq]

theorem execCmag_eq_next {rs1 rs2 rs3 : Reg} {s t : State} :
    execCmag rs1 rs2 rs3 s = .next t ↔
      CmagContract s (s.low32 rs1) (s.low32 rs2) (s.low32 rs3) ∧
        s.finishMem (cmagMem (numericsOf s.plat.numerics) s.isqrtMagic s.plat.magLanes.toNat
          (s.low32 rs1) (s.low32 rs2) (s.low32 rs3) s.mem) = t := by
  rw [execCmag, unlessStop_eq_next, cmagStop_eq_none, Host.Outcome.next.injEq]

theorem execAtan2_eq_next {rd rs1 rs2 : Reg} {s t : State} :
    execAtan2 rd rs1 rs2 s = .next t ↔
      (atan2Angle s.rnd s.atanCoef (s.operand 16 rs1) (s.operand 16 rs2) = none ∧ s.raise .naNInf = t) ∨
      ∃ a, atan2Angle s.rnd s.atanCoef (s.operand 16 rs1) (s.operand 16 rs2) = some a ∧
        s.finishX rd a = t := by
  unfold execAtan2
  split <;> next h => simp [h]

theorem execDwconv_eq_next {rs1 : Reg} {s t : State} :
    execDwconv rs1 s = .next t ↔
      (s.plat.hasVec = false ∧ s.raise .noImplementation = t) ∨
      (s.plat.hasVec = true ∧ s.Usable 4 ⟨s.low32 rs1, 88⟩ ∧ (dwDesc s.mem (s.low32 rs1)).batch ≤ 0 ∧
        s.raise .argumentError = t) ∨
      (s.plat.hasVec = true ∧ DwconvContract s (s.low32 rs1) ∧
        s.finishMem (dwconvMem s.rnd (dwDesc s.mem (s.low32 rs1)) s.mem) = t) := by
  unfold execDwconv
  cases hv : s.plat.hasVec
  · simp
  · simp only [if_true, unlessStop_eq_next, State.bufferStop_eq_none, dwDescBuffer, reduceCtorEq, false_and,
      true_and, false_or]
    by_cases hb : (dwDesc s.mem (s.low32 rs1)).batch ≤ 0
    · simp only [hb, if_true, Host.Outcome.next.injEq, true_and]
      exact ⟨fun h => Or.inl h, fun h => h.elim id fun h => absurd h.1.batch (by omega)⟩
    · simp only [hb, if_false, unlessStop_eq_next, Host.Outcome.next.injEq, false_and, and_false, false_or]
      constructor
      · rintro ⟨hd, hc, ht⟩
        exact ⟨(dwconvStop_eq_none hd (by omega)).mp hc, ht⟩
      · rintro ⟨hc, ht⟩
        exact ⟨hc.desc, (dwconvStop_eq_none hc.desc hc.batch).mpr hc, ht⟩

theorem execMaxpool_eq_next {rs1 : Reg} {w : Width} {s t : State} :
    execMaxpool rs1 w s = .next t ↔
      (w.narrow = false ∧ s.raise .illegalCommand = t) ∨
      (w.narrow = true ∧ s.Usable 4 ⟨s.low32 rs1, 64⟩ ∧ (poolDesc s.mem (s.low32 rs1)).batch ≤ 0 ∧
        s.raise .argumentError = t) ∨
      (w.narrow = true ∧ MaxpoolContract s (s.low32 rs1) (bytesOf w) ∧
        s.finishMem (maxpoolMem (poolDesc s.mem (s.low32 rs1)) (bytesOf w) s.mem) = t) := by
  unfold execMaxpool
  cases hv : w.narrow
  · simp
  · simp only [if_true, unlessStop_eq_next, State.bufferStop_eq_none, poolDescBuffer, reduceCtorEq, false_and,
      true_and, false_or]
    by_cases hb : (poolDesc s.mem (s.low32 rs1)).batch ≤ 0
    · simp only [hb, if_true, Host.Outcome.next.injEq, true_and]
      exact ⟨fun h => Or.inl h, fun h => h.elim id fun h => absurd h.1.batch (by omega)⟩
    · simp only [hb, if_false, unlessStop_eq_next, Host.Outcome.next.injEq, false_and, and_false, false_or]
      constructor
      · rintro ⟨hd, hc, ht⟩
        exact ⟨(maxpoolStop_eq_none _ hd (by omega)).mp hc, ht⟩
      · rintro ⟨hc, ht⟩
        exact ⟨hc.desc, (maxpoolStop_eq_none _ hc.desc hc.batch).mpr hc, ht⟩

theorem execRelu_eq_next {rs1 rs2 : Reg} {w : Width} {s t : State} :
    execRelu rs1 rs2 w s = .next t ↔
      (w.narrow = false ∧ s.raise .illegalCommand = t) ∨
      (w.narrow = true ∧ ReluContract s (s.low32 rs1) (bytesOf w) (s.low32 rs2) ∧
        s.finishMem (reluMem (s.low32 rs1) (bytesOf w) (s.low32 rs2) s.mem) = t) := by
  unfold execRelu
  cases hv : w.narrow
  · simp
  · simp [unlessStop_eq_next, State.bufferStop_eq_none, ReluContract]

theorem execUnpack4_eq_next {rs1 rs2 rs3 : Reg} {s t : State} :
    execUnpack4 rs1 rs2 rs3 s = .next t ↔
      UnpackContract s (s.low32 rs1) (s.low32 rs2) (s.low32 rs3) ∧
        s.finishMem (unpackMem (s.low32 rs1) (s.low32 rs2) (s.low32 rs3) s.mem) = t := by
  rw [execUnpack4, unlessStop_eq_next, packStop_eq_none, Host.Outcome.next.injEq]
  exact and_congr_left fun _ => ⟨fun ⟨h1, h2, h3⟩ => ⟨h1, h2, h3⟩, fun h => ⟨h.source, h.dest, h.apart⟩⟩

theorem execPack4_eq_next {rs1 rs2 rs3 : Reg} {s t : State} :
    execPack4 rs1 rs2 rs3 s = .next t ↔
      PackContract s (s.low32 rs1) (s.low32 rs2) (s.low32 rs3) ∧
        s.finishMem (packMem (s.low32 rs1) (s.low32 rs2) (s.low32 rs3) s.mem) = t := by
  rw [execPack4, unlessStop_eq_next, packStop_eq_none, Host.Outcome.next.injEq]
  exact and_congr_left fun _ => ⟨fun ⟨h1, h2, h3⟩ => ⟨h1, h2, h3⟩, fun h => ⟨h.source, h.dest, h.apart⟩⟩

end Sys2Proof.Machine
end

