-- ==== Sys2Proof/Laws/FixedPoint.lean ====
section
/-! SUPPORT. The laws of the arithmetic primitives: ranges of `sat`, `sext` and the operands. -/

namespace Sys2Proof.Machine

theorem minOf_le_maxOf (n : Nat) : minOf n ≤ maxOf n := by
  have h : 0 < 2 ^ (n - 1) := Nat.two_pow_pos _
  unfold minOf maxOf
  omega

/-- A saturated value is within the range (R8, R9). -/
theorem sat_bounds (n : Nat) (v : Int) : minOf n ≤ sat n v ∧ sat n v ≤ maxOf n := by
  have h := minOf_le_maxOf n
  unfold sat
  split
  · exact ⟨le_refl _, h⟩
  · split <;> constructor <;> omega

/-- A value within the range is its own saturation (R9). -/
theorem sat_eq_self {n : Nat} {v : Int} (h1 : minOf n ≤ v) (h2 : v ≤ maxOf n) : sat n v = v := by
  unfold sat
  rw [if_neg (by omega), if_neg (by omega)]

/-- Saturating twice is saturating once. -/
@[simp] theorem sat_sat (n : Nat) (v : Int) : sat n (sat n v) = sat n v :=
  sat_eq_self (sat_bounds n v).1 (sat_bounds n v).2

/-- Saturation as a clamp between the two bounds. -/
theorem sat_eq_clamp (n : Nat) (v : Int) : sat n v = max (minOf n) (min (maxOf n) v) := by
  have h := minOf_le_maxOf n
  unfold sat
  split
  · omega
  · split <;> omega

/-- A sign-extended value is within the range (R7). -/
theorem sext_bounds {n : Nat} (hn : 0 < n) (v : Nat) : minOf n ≤ sext n v ∧ sext n v ≤ maxOf n := by
  obtain ⟨k, rfl⟩ : ∃ k, n = k + 1 := ⟨n - 1, by omega⟩
  have h1 := BitVec.le_toInt (BitVec.ofNat (k + 1) v)
  have h2 := BitVec.toInt_lt (x := BitVec.ofNat (k + 1) v)
  unfold minOf maxOf sext
  push_cast
  simp only [Nat.add_sub_cancel] at *
  omega

/-- A value within the range of `n` bits is its own two's complement. -/
theorem toInt_ofInt_of_range {n : Nat} (hn : 0 < n) {v : Int} (h1 : minOf n ≤ v) (h2 : v ≤ maxOf n) :
    (BitVec.ofInt n v).toInt = v := by
  obtain ⟨k, rfl⟩ : ∃ k, n = k + 1 := ⟨n - 1, by omega⟩
  rw [BitVec.toInt_ofInt]
  unfold minOf at h1
  unfold maxOf at h2
  have h3 : (2 : Nat) ^ (k + 1) = 2 * 2 ^ k := by rw [pow_succ']
  simp only [Nat.add_sub_cancel] at *
  apply Int.bmod_eq_of_le <;> (rw [h3]; omega)

/-- A shift by nothing leaves the value (R10). -/
@[simp] theorem rndShr_zero (r : Rounding) (v : Int) : rndShr r v 0 = v := by simp [rndShr]

/-- Half-up rounding is the floor of the value plus one half (R10). -/
theorem rndShr_halfUp (v : Int) {s : Nat} (hs : s ≠ 0) :
    rndShr .halfUp v s = (v + (2 ^ (s - 1) : Nat)) / (2 ^ s : Nat) := by
  obtain ⟨k, rfl⟩ : ∃ k, s = k + 1 := ⟨s - 1, by omega⟩
  have hp : 0 < 2 ^ k := Nat.two_pow_pos _
  have h3 : (2 : Nat) ^ (k + 1) = 2 * 2 ^ k := by rw [pow_succ']
  unfold rndShr
  simp only [Nat.add_sub_cancel, Nat.succ_ne_zero, if_false]
  rw [h3]
  generalize (2 : Nat) ^ k = p at hp
  have hd := Int.mul_ediv_add_emod v ((2 * p : Nat) : Int)
  have hm := Int.emod_nonneg v (b := ((2 * p : Nat) : Int)) (by omega)
  have hl := Int.emod_lt_of_pos v (b := ((2 * p : Nat) : Int)) (by omega)
  generalize v / ((2 * p : Nat) : Int) = q at *
  generalize v % ((2 * p : Nat) : Int) = r at *
  push_cast at hl hd
  subst hd
  symm
  split
  · rw [Int.ediv_eq_iff_of_pos (by omega)]
    constructor <;> push_cast <;> nlinarith
  · rw [Int.ediv_eq_iff_of_pos (by omega)]
    constructor <;> push_cast <;> nlinarith

/-- An operand is within the range of its width (R120). -/
theorem State.operand_bounds (s : State) (w : Width) (i : Reg) :
    minOf (bitsOf w) ≤ s.operand (bitsOf w) i ∧ s.operand (bitsOf w) i ≤ maxOf (bitsOf w) :=
  sext_bounds (by cases w <;> decide) _

/-- An address is below 2^32 (R61). -/
theorem State.low32_lt (s : State) (i : Reg) : s.low32 i < 2 ^ 32 := Nat.mod_lt _ (by decide)

end Sys2Proof.Machine
end

