-- ==== Sys2Proof/Laws/PerInstr.lean ====
section
/-! SUPPORT. Statements about every command as syntax, one lemma per constructor. `TableRow`: the encoded word of a
well-formed command, masked by the mask of its row of R95, is the row's match. -/

namespace Sys2Proof.Laws

/-- The encoded word passes the mask-and-match test of R94 for the command's own row. -/
def TableRow.Statement (i : Instr) : Prop :=
  i.wf = true → encode i &&& i.opcode.mask = i.opcode.pattern

namespace TableRow

variable (rd rs1 rs2 rs3 : Reg) (w : Width) (imm6 : BitVec 6)

theorem sat : Statement (.sat rd rs1 imm6) := fun _ => by
  rw [encode, Instr.opcode, show Opcode.mask .sat = formatC 0xff 0 0 0xf 0xf 3 0 from rfl, formatC_and]
  simp [formatC]; rfl

theorem sadd : Statement (.sadd rd rs1 rs2 w) := fun _ => by
  rw [encode, Instr.opcode, show Opcode.mask .sadd = formatC 0xff 0 0 0 0xf 0 0x3f from rfl, formatC_and]
  simp [formatC]; rfl

theorem ssub : Statement (.ssub rd rs1 rs2 w) := fun _ => by
  rw [encode, Instr.opcode, show Opcode.mask .ssub = formatC 0xff 0 0 0 0xf 0 0x3f from rfl, formatC_and]
  simp [formatC]; rfl

theorem smul : Statement (.smul rd rs1 rs2 w imm6) := fun _ => by
  rw [encode, Instr.opcode, show Opcode.mask .smul = formatC 0xff 0 0 0 0xf 0 0 from rfl, formatC_and]
  simp [formatC]; rfl

theorem sshl : Statement (.sshl rd rs1 rs2 w) := fun _ => by
  rw [encode, Instr.opcode, show Opcode.mask .sshl = formatC 0xff 0 0 0 0xf 0 0x3f from rfl, formatC_and]
  simp [formatC]; rfl

theorem sshr : Statement (.sshr rd rs1 rs2 w) := fun _ => by
  rw [encode, Instr.opcode, show Opcode.mask .sshr = formatC 0xff 0 0 0 0xf 0 0x3f from rfl, formatC_and]
  simp [formatC]; rfl

theorem requant : Statement (.requant rd rs1 rs2 rs3 w) := fun _ => by
  rw [encode, Instr.opcode, show Opcode.mask .requant = formatC 0xff 0 0 0 0 0 0x3f from rfl, formatC_and]
  simp [formatC]; rfl

theorem firinit : Statement (.firinit rs1) := fun _ => by
  rw [encode, Instr.opcode, show Opcode.mask .firinit = formatC 0xff 0xf 0 0xf 0xf 3 0x3f from rfl, formatC_and]
  simp [formatC]; rfl

theorem firproc : Statement (.firproc rs1 rs2 rs3) := fun _ => by
  rw [encode, Instr.opcode, show Opcode.mask .firproc = formatC 0xff 0xf 0 0 0 3 0x3f from rfl, formatC_and]
  simp [formatC]; rfl

theorem cmag : Statement (.cmag rs1 rs2 rs3) := fun _ => by
  rw [encode, Instr.opcode, show Opcode.mask .cmag = formatC 0xff 0xf 0 0 0 3 0x3f from rfl, formatC_and]
  simp [formatC]; rfl

theorem atan2 : Statement (.atan2 rd rs1 rs2) := fun _ => by
  rw [encode, Instr.opcode, show Opcode.mask .atan2 = formatC 0xff 0 0 0 0xf 3 0x3f from rfl, formatC_and]
  simp [formatC]; rfl

theorem dwconv : Statement (.dwconv rs1) := fun _ => by
  rw [encode, Instr.opcode, show Opcode.mask .dwconv = formatC 0xff 0xf 0 0xf 0xf 3 0x3f from rfl, formatC_and]
  simp [formatC]; rfl

theorem maxpool : Statement (.maxpool rs1 w) := fun h => by
  rw [encode, Instr.opcode, show Opcode.mask .maxpool = formatC 0xff 0xf 0 0xf 0xf 2 0x3f from rfl, formatC_and]
  cases w
  · simp [formatC, Width.sel]; rfl
  · simp [formatC, Width.sel]; rfl
  · exact absurd h (by simp [Instr.wf, Width.narrow])

theorem relu : Statement (.relu rs1 rs2 w) := fun h => by
  rw [encode, Instr.opcode, show Opcode.mask .relu = formatC 0xff 0xf 0 0 0xf 2 0x3f from rfl, formatC_and]
  cases w
  · simp [formatC, Width.sel]; rfl
  · simp [formatC, Width.sel]; rfl
  · exact absurd h (by simp [Instr.wf, Width.narrow])

theorem unpack4 : Statement (.unpack4 rs1 rs2 rs3) := fun _ => by
  rw [encode, Instr.opcode, show Opcode.mask .unpack4 = formatC 0xff 0xf 0 0 0 3 0x3f from rfl, formatC_and]
  simp [formatC]; rfl

theorem pack4 : Statement (.pack4 rs1 rs2 rs3) := fun _ => by
  rw [encode, Instr.opcode, show Opcode.mask .pack4 = formatC 0xff 0xf 0 0 0 3 0x3f from rfl, formatC_and]
  simp [formatC]; rfl

end TableRow

end Sys2Proof.Laws
end

