-- ==== Sys2Proof/Tests/Slice0.lean ====
section
/-! SUPPORT. The model's own tests. The expected values are the vectors of spec/95_test_vectors.md (V10 to V65), named
where they stand, or the rule's own example. The last part gives, for each statement of
`Sys2Proof/Certificates/Slice0/Obligations.lean` that has hypotheses, concrete states and operands that meet them. -/

namespace Sys2Proof.Tests

-- One theorem at a time: a kernel evaluation waits for those before it, and many waiting at once are many threads.
set_option Elab.async false

open Sys2Proof.Machine

/-! ## Helpers -/

/-- Elements of `w` bytes stored one after another from `a`. -/
def putL (m : Memory) (a w : Nat) : List Int → Memory
  | [] => m
  | v :: vs => putL (m.writeS a w v) (a + w) w vs

/-- The elements of `w` bytes from `a` read as the list says. -/
def holds (m : Memory) (a w : Nat) : List Int → Bool
  | [] => true
  | v :: vs => decide (m.readS a w = v) && holds m (a + w) w vs

/-- What is true of the next state; false of a stop. -/
def after (r : Result) (p : State → Bool) : Bool :=
  match r with
  | .next t => p t
  | .fault _ => false
  | .refused _ => false

/-- The next state, where there is one. -/
def nextOf (r : Result) (s : State) : State :=
  match r with
  | .next t => t
  | .fault _ => s
  | .refused _ => s

/-- The reset state with the registers `x1`, `x2`, `x3` set. -/
def withX (a b c : Int) : State :=
  ((State.reset.setX 1#4 (BitVec.ofInt 64 a)).setX 2#4 (BitVec.ofInt 64 b)).setX 3#4 (BitVec.ofInt 64 c)

/-- The same with a rounding rule and a memory. -/
def withMem (r : Rounding) (m : Memory) (a b c : Int) : State := { withX a b c with rnd := r, mem := m }

/-- The step ends with `Success` and leaves `v` in `x4`. -/
def gives (r : Result) (v : Int) : Bool :=
  after r fun t => decide (t.status = .success ∧ t.x[4] = BitVec.ofInt 64 v)

/-! ## Well-formedness: each check refuses a term -/

theorem test_wf_maxpool_w32 : (Instr.maxpool 1#4 .w32).wf = false := by decide
theorem test_wf_relu_w32 : (Instr.relu 1#4 2#4 .w32).wf = false := by decide
theorem test_wf_maxpool_w16 : (Instr.maxpool 15#4 .w16).wf = true := by decide
theorem test_wf_relu_w8 : (Instr.relu 0#4 15#4 .w8).wf = true := by decide
theorem test_wf_requant_w32 : (Instr.requant 15#4 15#4 15#4 15#4 .w32).wf = true := by decide

/-! ## Decoding: the words of V18, written out from the fields of R91 -/

-- 0000 0001 | 1010 | 1001 | 0000 | 0000 | 00 | 001111: SAT x10, x9, 16
theorem test_decode_sat : decode 0b00000001101010010000000000001111#32 = .ok (.sat 10#4 9#4 15#6) := by decide
theorem test_decode_sat_64 : decode 0x01A9003F#32 = .ok (.sat 10#4 9#4 63#6) := by decide
-- 0000 0010 | 0011 | 0001 | 0010 | 0000 | 01 | 000000: SADD.16 x3, x1, x2
theorem test_decode_sadd : decode 0b00000010001100010010000001000000#32 = .ok (.sadd 3#4 1#4 2#4 .w16) := by
  decide
theorem test_decode_ssub : decode 0x03532040#32 = .ok (.ssub 5#4 3#4 2#4 .w16) := by decide
theorem test_decode_smul : decode 0x0431204F#32 = .ok (Instr.smulQ15 3#4 1#4 2#4) := by decide
theorem test_decode_smul_q31 : decode 0x0431209F#32 = .ok (Instr.smulQ31 3#4 1#4 2#4) := by decide
theorem test_decode_smul_q2_13 : decode 0x0431204D#32 = .ok (Instr.smulQ2_13 3#4 1#4 2#4) := by decide
theorem test_decode_sshl : decode 0x05756040#32 = .ok (.sshl 7#4 5#4 6#4 .w16) := by decide
theorem test_decode_sshr : decode 0x06856040#32 = .ok (.sshr 8#4 5#4 6#4 .w16) := by decide
theorem test_decode_requant : decode 0x07D9BC00#32 = .ok (.requant 13#4 9#4 11#4 12#4 .w8) := by decide
theorem test_decode_firinit : decode 0x10010000#32 = .ok (.firinit 1#4) := by decide
-- 0001 0001 | 0000 | 0001 | 0010 | 0011 | 00 | 000000: FIRPROC x1, x2, x3
theorem test_decode_firproc : decode 0b00010001000000010010001100000000#32 = .ok (.firproc 1#4 2#4 3#4) := by
  decide
theorem test_decode_cmag : decode 0x20012300#32 = .ok (.cmag 1#4 2#4 3#4) := by decide
-- 0010 0001 | 0100 | 0001 | 0010 | 0000 | 00 | 000000: ATAN2 x4, x1, x2
theorem test_decode_atan2 : decode 0b00100001010000010010000000000000#32 = .ok (.atan2 4#4 1#4 2#4) := by decide
theorem test_decode_dwconv : decode 0x30010000#32 = .ok (.dwconv 1#4) := by decide
theorem test_decode_maxpool_8 : decode 0x31010000#32 = .ok (.maxpool 1#4 .w8) := by decide
-- 0011 0001 | 0000 | 0001 | 0000 | 0000 | 01 | 000000: MAXPOOL.16 x1
theorem test_decode_maxpool_16 : decode 0b00110001000000010000000001000000#32 = .ok (.maxpool 1#4 .w16) := by
  decide
theorem test_decode_relu_8 : decode 0x32012000#32 = .ok (.relu 1#4 2#4 .w8) := by decide
theorem test_decode_relu_16 : decode 0x32012040#32 = .ok (.relu 1#4 2#4 .w16) := by decide
theorem test_decode_unpack4 : decode 0x33012300#32 = .ok (.unpack4 1#4 2#4 3#4) := by decide
theorem test_decode_pack4 : decode 0x34012300#32 = .ok (.pack4 1#4 2#4 3#4) := by decide
theorem test_table_word : decodeTableWord 32 0x21412000 = some (.atan2 4#4 1#4 2#4) := by decide

/-- The reserved opcodes at the ends of their ranges (R96). -/
theorem test_reserved_opcodes :
    [0x00#8, 0x08#8, 0x0F#8, 0x12#8, 0x1F#8, 0x22#8, 0x2F#8, 0x35#8, 0xFF#8].all
      (fun b => decide (decode (b ++ 0x000000#24) = .error .reservedOpcode)) = true := by decide +kernel
theorem test_all_zero_word : decode 0x00000000#32 = .error .reservedOpcode := by decide
theorem test_all_ones_word : decode 0xFFFFFFFF#32 = .error .reservedOpcode := by decide
theorem test_sadd_wsel_3 : decode 0x023120C0#32 = .error .reservedWsel := by decide
/-- The other illegal words of V18: a bit in a field the command does not use. -/
theorem test_unused_fields :
    [0x02312140#32, 0x02312041#32, 0x01A9004F#32, 0x21412001#32, 0x10110000#32, 0x31010080#32, 0x32012080#32].all
      (fun w => decide (decode w = .error .nonzeroUnusedField)) = true := by decide +kernel

/-- The spelling of R97, on lines of V18. -/
theorem test_asm : (Instr.sadd 3#4 1#4 2#4 .w16).asm = "SADD.16 x3, x1, x2" ∧
    (Instr.sat 10#4 9#4 15#6).asm = "SAT x10, x9, 16" ∧ (Instr.maxpool 1#4 .w8).asm = "MAXPOOL.8 x1" := by
  decide +kernel

/-! ## Reset -/

theorem test_reset_status : State.reset.readCsr 1#6 = 0#32 := by decide
theorem test_reset_ctrl : State.reset.readCsr 2#6 = 0#32 := by decide
/-- `CAP` with `HAS_VEC = 1` and `MAG_LANES = 4` (R30). -/
theorem test_reset_cap : State.reset.readCsr 3#6 = 0x00000401#32 := by decide
theorem test_reset_mem_wf : State.reset.mem.wf := by decide
theorem test_reset_idle : step State.reset = .next State.reset := rfl

/-! ## The primitives (V10, V53, V42) -/

theorem test_rnd_half_up : [(5, 1), (-5, 1), (-3, 1), (-6, 2), (49152, 15)].map
    (fun p : Int × Nat => rndShr .halfUp p.1 p.2) = [3, -2, -1, -1, 2] := by decide +kernel
theorem test_rnd_half_even : [(5, 1), (-5, 1), (-3, 1), (-6, 2), (49152, 15)].map
    (fun p : Int × Nat => rndShr .halfEven p.1 p.2) = [2, -2, -2, -2, 2] := by decide +kernel
theorem test_div_norm : [(5, 5), (0, 7), (1, 3), (32766, 32767)].map (fun p : Nat × Nat => divNorm p.1 p.2) =
    [(16384, 1), (0, 0), (10922, 0), (32766, 0)] := by decide +kernel
theorem test_mag_main : mag ieeeF32 0x5F3759DF#32 0xC0A00000#32 0x41400000#32 3 = 0x41500001#32 := by
  decide +kernel
theorem test_mag_tail : mag ieeeF32 0x5F3759DF#32 0x3A83126F#32 0x00000000#32 2 = 0x3A831266#32 := by
  decide +kernel

/-! ## The fixed-point ALU (V11 to V17) -/

theorem test_sat_8 : gives (exec (.sat 4#4 1#4 7#6) (withX (-129) 0 0)) (-128) = true := by decide +kernel
theorem test_sat_1 : gives (exec (.sat 4#4 1#4 0#6) (withX 5 0 0)) 0 = true := by decide +kernel
theorem test_sadd_saturates : gives (exec (.sadd 4#4 1#4 2#4 .w16) (withX (-32768) (-1) 0)) (-32768) = true := by
  decide +kernel
theorem test_sadd_low_bits : gives (exec (.sadd 4#4 1#4 2#4 .w8) (withX 0x1234567F 0xFF01 0)) 127 = true := by
  decide +kernel
theorem test_ssub_order : gives (exec (.ssub 4#4 1#4 2#4 .w16) (withX 0 (-32768) 0)) 32767 = true := by
  decide +kernel
theorem test_ssub_8 : gives (exec (.ssub 4#4 1#4 2#4 .w8) (withX (-128) 127 0)) (-128) = true := by decide +kernel
theorem test_smul_tie_even : gives
    (exec (.smul 4#4 1#4 2#4 .w16 15#6) (withMem .halfEven [] 1 16384 0)) 0 = true := by decide +kernel
theorem test_smul_q31 : gives
    (exec (.smul 4#4 1#4 2#4 .w32 31#6) (withX (-2147483648) (-2147483648) 0)) 2147483647 = true := by
  decide +kernel
theorem test_sshl_exact : gives (exec (.sshl 4#4 1#4 2#4 .w16) (withX (-1) 15 0)) (-32768) = true := by
  decide +kernel
theorem test_sshl_huge : gives (exec (.sshl 4#4 1#4 2#4 .w16) (withX (-3) (2 ^ 40) 0)) (-32768) = true := by
  decide +kernel
theorem test_sshr_rounds : gives (exec (.sshr 4#4 1#4 2#4 .w16) (withX (-3) 1 0)) (-1) = true := by decide +kernel
theorem test_sshr_width : gives (exec (.sshr 4#4 1#4 2#4 .w16) (withX (-32768) 16 0)) 0 = true := by
  decide +kernel
theorem test_requant_even : gives
    (exec (.requant 4#4 1#4 2#4 3#4 .w8) (withMem .halfEven [] (-3) (2 ^ 30) 31)) (-2) = true := by decide +kernel
theorem test_requant_multiplier : gives
    (exec (.requant 4#4 1#4 2#4 3#4 .w8) (withX 77 0xFFFFFFFF40000000 30)) 77 = true := by decide +kernel

/-! ## The approximators (V42, V43, V50 to V54) -/

/-- Table E of V50. -/
def tableE : Vector (BitVec 16) 10 :=
  #v[0x0000#16, 0x7FFF#16, 0xFFF8#16, 0xD5B6#16, 0xFDC0#16, 0x20C2#16, 0xF46B#16, 0xF2BD#16, 0x0C34#16, 0xFCFB#16]

/-- The operands of an `ATAN2 x4, x1, x2` under table E. -/
def atanState (y x : Int) : State := { withX y x 0 with atanCoef := tableE }

theorem test_atan2_swap : gives (exec (.atan2 4#4 1#4 2#4) (atanState (-5) 1)) (-11251) = true := by decide +kernel
theorem test_atan2_saturated : gives (exec (.atan2 4#4 1#4 2#4) (atanState (-32768) (-32768))) (-19303) = true := by
  decide +kernel

/-- Five complex samples 3 + 4i at 0x100 (R43). -/
def cmagState (n : Int) : State :=
  { withX 0x100 0x200 n with
    isqrtMagic := 0x5F3759DF#32
    mem := putL [] 0x100 4 [0x40400000, 0x40800000, 0x40400000, 0x40800000, 0x40400000, 0x40800000,
      0x40400000, 0x40800000, 0x40400000, 0x40800000] }

/-- Four samples take three iterations, the fifth takes two (V43). -/
theorem test_cmag_tail : after (exec (.cmag 1#4 2#4 3#4) (cmagState 5)) (fun t =>
    holds t.mem 0x200 4 [0x409FFFFF, 0x409FFFFF, 0x409FFFFF, 0x409FFFFF, 0x409FFFDA, 0]) = true := by
  decide +kernel
/-- A count of 0 touches nothing, whatever the addresses. -/
theorem test_cmag_none : after (exec (.cmag 1#4 2#4 3#4) (withX 1 2 (2 ^ 32))) (fun t =>
    decide (t.status = .success)) = true := by decide +kernel

/-! ## The FIR engine (V30) -/

/-- The record of V30 at 0x1000, the coefficients at 0x1100, the first block at 0x1300. -/
def firMem : Memory :=
  putL (putL (putL [] 0x1000 4 [0x1100, 0x1200, 3, 2, 4, 0x0F01, 7, 0]) 0x1100 2 [4096, 8192, 16384])
    0x1300 2 [32767, -32768, 16384, 8192]

/-- A history of zeros, as `FIRINIT` leaves it, and old samples after it. -/
def firState : State := withMem .halfUp (putL firMem 0x1200 2 [0, 0, 1, 1, 1, 1]) 0x1000 0x1300 0x1400

theorem test_firinit : after (exec (.firinit 1#4) firState) (fun t =>
    holds t.mem 0x1200 2 [0, 0, 0, 0, 0, 0] && holds t.mem 0x1018 4 [0]) = true := by decide +kernel
theorem test_firproc_outputs : after (exec (.firproc 1#4 2#4 3#4) firState) (fun t =>
    holds t.mem 0x1400 2 [16384, 4096, 0]) = true := by decide +kernel
theorem test_firproc_history : after (exec (.firproc 1#4 2#4 3#4) firState) (fun t =>
    holds t.mem 0x1200 2 [16384, 8192, 32767, -32768, 16384, 8192] && holds t.mem 0x1018 4 [1]) = true := by
  decide +kernel

/-! ## The tensor kernels (V60 to V65) -/

/-- The descriptor of V62 at 0x1000, with nine weight bytes `wb` and the bounds `lo`, `hi`. -/
def dwState (wb lo hi batch : Int) (bias : List Int) : State :=
  let m := putL [] 0x1000 4 [0x2000, 0x2100, 0x2200, 0x2300, 0x2400, 0x2500, batch, 2, 2, 2, 3, 3, 1, 1, 1, 1, 2, 2,
    0, 0, lo, hi]
  let m := putL m 0x2000 1 [1, 2, 3, 4, 5, 6, 7, 8]
  let m := putL m 0x2100 1 [wb, wb, wb, wb, wb, wb, wb, wb, wb]
  let m := putL m 0x2200 4 bias
  let m := putL m 0x2300 4 [2 ^ 30, 2 ^ 30]
  withMem .halfUp (putL m 0x2400 4 [30, 30]) 0x1000 0 0

theorem test_dwconv_padding : after (exec (.dwconv 1#4) (dwState 0x11 (-128) 127 1 [0, 0])) (fun t =>
    holds t.mem 0x2500 1 [16, 20, 16, 20, 16, 20, 16, 20, 0]) = true := by decide +kernel
theorem test_dwconv_batch : after (exec (.dwconv 1#4) (dwState 0x11 0 15 (-1) [0, 0])) (fun t =>
    decide (t.status = .argumentError) && holds t.mem 0x2500 1 [0, 0]) = true := by decide +kernel

/-- The last `MAXPOOL.8` row of V64 with one batch and three empty windows: the input at 0x2000, the output at 0x2100. -/
def poolState : State :=
  let m := putL [] 0x1000 4 [0x2000, 0x2100, 1, 2, 2, 1, 2, 2, 2, 2, 2, 2, 2, 2, -10, 10]
  withMem .halfUp (putL (putL m 0x2000 1 [1, 2, 3, 4]) 0x2100 1 [77, -77, 5, 6]) 0x1000 0 0

theorem test_maxpool_empty_windows : after (exec (.maxpool 1#4 .w8) poolState) (fun t =>
    holds t.mem 0x2100 1 [10, -10, 5, 4, 0]) = true := by decide +kernel

/-- The `MAXPOOL.16` row of V64. -/
def poolState16 : State :=
  let m := putL [] 0x1000 4 [0x2000, 0x2100, 1, 2, 2, 2, 2, 2, 1, 1, 0, 0, 1, 1, -1000, 1000]
  withMem .halfUp (putL m 0x2000 2 [-32768, -5, 300, -7, 12, -32768, -300, 8]) 0x1000 0 0

theorem test_maxpool_16 : after (exec (.maxpool 1#4 .w16) poolState16) (fun t =>
    holds t.mem 0x2100 2 [300, 8, 0]) = true := by decide +kernel

def reluState : State := withMem .halfUp (putL [] 0x100 2 [-32768, -5, 0, 7, 32767, -1]) 0x100 5 0

theorem test_relu_16 : after (exec (.relu 1#4 2#4 .w16) reluState) (fun t =>
    holds t.mem 0x100 2 [0, 0, 0, 7, 32767, -1]) = true := by decide +kernel
theorem test_relu_8 : after (exec (.relu 1#4 2#4 .w8)
    (withMem .halfUp (putL [] 0x101 1 [-128, -1, 0, 1, 127]) 0x101 5 0)) (fun t =>
    holds t.mem 0x101 1 [0, 0, 0, 1, 127]) = true := by decide +kernel

def unpackState (n : Int) : State :=
  withMem .halfUp (putL [] 0x100 1 [0xE1, 0x03, 0x87, 0x2F, 0x4D, 0x6B]) 0x100 0x200 n

theorem test_unpack4 : after (exec (.unpack4 1#4 2#4 3#4) (unpackState 12)) (fun t =>
    holds t.mem 0x200 1 [1, -2, 3, 0, 7, -8, -1, 2, -3, 4, -5, 6, 0]) = true := by decide +kernel
theorem test_unpack4_odd : after (exec (.unpack4 1#4 2#4 3#4) (unpackState 5)) (fun t =>
    holds t.mem 0x200 1 [1, -2, 3, 0, 7, 0]) = true := by decide +kernel

def packState (vs : List Int) : State := withMem .halfUp (putL [] 0x100 1 vs) 0x100 0x200 vs.length

theorem test_pack4_saturates : after (exec (.pack4 1#4 2#4 3#4) (packState [9, -9])) (fun t =>
    decide (t.mem.readByte 0x200 = 0x87#8)) = true := by decide +kernel
theorem test_pack4_odd : after (exec (.pack4 1#4 2#4 3#4) (packState [-8, 7, 0])) (fun t =>
    decide (t.mem.read 0x200 3 = 0x000078)) = true := by decide +kernel

/-! ## Witnesses: concrete states and operands that meet the hypotheses of each statement -/

/-- The reset state with transactions waiting. -/
def waiting (q : List HostTxn) : State := { State.reset with queue := q }

/-- The reset state of a platform that admits the bytes 0x100 to 0x1FF only, without the vector datapath. -/
def smallState : State :=
  State.powerOn { hasVec := false, magLanes := 255#8, regions := [⟨0x100, 0x100⟩], numerics := .configured }

/-- `DecodeInvertsEncode`, `LegalWordIffTableRow`: well-formed terms with fields at the ends of their ranges. -/
theorem witness_wellFormed : (Instr.sat 0#4 15#4 63#6).wf = true ∧ (Instr.smul 15#4 0#4 15#4 .w32 0#6).wf = true ∧
    (Instr.maxpool 15#4 .w16).wf = true ∧ (Instr.relu 0#4 15#4 .w8).wf = true := by decide

/-- `EncodeInvertsDecode`. -/
theorem witness_decodes : decode 0x07FFFF80#32 = .ok (.requant 15#4 15#4 15#4 15#4 .w32) := by decide

/-- `ReservedWordsRaiseIllegalCommand`: a word for each clause (the opcode ranges at both ends, an unused field of a
row, `WSEL = 3`, `WSEL = 2` of the two narrow rows). -/
theorem witness_reserved : fieldOp 0x00000000#32 = 0x00#8 ∧ fieldOp 0x08000000#32 = 0x08#8 ∧
    fieldOp 0x0F000000#32 = 0x0F#8 ∧ fieldOp 0x12000000#32 = 0x12#8 ∧ fieldOp 0x1F000000#32 = 0x1F#8 ∧
    fieldOp 0x22000000#32 = 0x22#8 ∧ fieldOp 0x2F000000#32 = 0x2F#8 ∧ fieldOp 0x35000000#32 = 0x35#8 ∧
    fieldOp 0xFF000000#32 = 0xFF#8 ∧
    (fieldOp 0x02312140#32 = Opcode.sadd.byte ∧ 0x02312140#32 &&& (Opcode.sadd.mask &&& 0x00FFFFFF#32) ≠ 0#32) ∧
    fieldWsel 0x023120C0#32 = 3#2 ∧ (fieldOp 0x31010080#32 = 0x31#8 ∧ fieldWsel 0x31010080#32 = 2#2) ∧
    (fieldOp 0x32012080#32 = 0x32#8 ∧ fieldWsel 0x32012080#32 = 2#2) := by decide

/-- `StepRunsDecodedCommand`: `ATAN2 x4, x1, x2` waits. -/
theorem witness_command : (State.reset.withFetchWord 32 0x21412000).queue = [.writeCsr 0#6 0x21412000#32] ∧
    decode 0x21412000#32 = .ok (.atan2 4#4 1#4 2#4) := by decide

/-- `IllegalWordChangesOnlyStatus`: an illegal word, then a command. -/
theorem witness_illegal_word :
    (waiting [.writeCsr 0#6 0x02312140#32, .writeCsr 0#6 0x02312040#32]).queue =
      .writeCsr 0#6 0x02312140#32 :: [.writeCsr 0#6 0x02312040#32] ∧
    (∀ i, decode 0x02312140#32 ≠ .ok i) ∧ decode 0x02312040#32 = .ok (.sadd 3#4 1#4 2#4 .w16) :=
  ⟨rfl, fun i => by rw [show decode 0x02312140#32 = .error .nonzeroUnusedField by decide +kernel]; simp,
    by decide⟩

/-- `IdleStepChangesNothing`. -/
theorem witness_idle : State.reset.queue = [] := rfl

/-- `HostRegisterReadBack`: the same register, and another. -/
theorem witness_register :
    (waiting [.writeReg 15#4 7#64, .readReg 15#4]).queue = .writeReg 15#4 7#64 :: .readReg 15#4 :: [] ∧
    (waiting [.writeReg 0#4 7#64, .readReg 15#4]).queue = .writeReg 0#4 7#64 :: .readReg 15#4 :: [] := ⟨rfl, rfl⟩

/-- `ControlRegisterReadBack`: for each clause a read, the numbers at the ends of their ranges. -/
theorem witness_csr : ∀ p ∈ [(1#6, 1#6), (2#6, 2#6), (1#6, 2#6), (3#6, 3#6), (4#6, 4#6), (8#6, 8#6), (17#6, 17#6),
      (63#6, 0#6), (63#6, 5#6), (63#6, 7#6), (63#6, 18#6), (63#6, 63#6)],
    p.1 ≠ 0#6 ∧ (waiting [.writeCsr p.1 5#32, .readCsr p.2]).queue = .writeCsr p.1 5#32 :: .readCsr p.2 :: [] := by
  intro p hp
  fin_cases hp <;> exact ⟨by decide, rfl⟩

/-- `HostMemoryReadBack`: the last bytes of the address space, and no bytes at all. -/
theorem witness_host_memory :
    (∀ b, (⟨(0xFFFFFFFC#32).toNat, 4⟩ : Buffer).Holds b → State.reset.Exists b) ∧
    (∀ b, (⟨(0#32).toNat, 0⟩ : Buffer).Holds b → State.reset.Exists b) :=
  ⟨(State.existStop_eq_none _ _).mp (by decide +kernel), (State.existStop_eq_none _ _).mp (by decide +kernel)⟩

/-- `InvariantHoldsAtReset`: legal parameters, the defaults and a small platform. -/
theorem witness_legal : Platform.default.legal ∧ smallState.plat.legal := by
  constructor <;> (unfold Platform.legal; decide)

/-- The host is going to write two bytes of the small platform. -/
def smallWrite : State := { smallState with queue := [.memWrite 0x100#32 2 0xABCD] }

theorem witness_inv : Inv smallWrite :=
  ⟨Memory.wf_nil, by simp [smallWrite, smallState, State.powerOn], witness_legal.2⟩

/-- `StepKeepsInvariant`, `StepWritesExistingBytesOnly`, `StepKeepsParameters`: a step of the small platform, and a
byte that does not exist there. -/
theorem witness_step : Inv smallWrite ∧ (∃ t, step smallWrite = .next t) ∧ ¬ smallWrite.Exists 0x200 := by
  refine ⟨witness_inv, ⟨_, rfl⟩, fun h => ?_⟩
  obtain ⟨r, hr, hc⟩ := h.2
  simp only [smallWrite, smallState, State.powerOn, List.mem_singleton] at hr
  subst hr
  exact absurd hc.2 (by decide)

/-- `RaiseChangesOnlyStatus`, `StatusCodesByCommand`: each code but `Success`, by a command that raises it. -/
theorem witness_codes :
    after (issue 0x02312140#32 State.reset) (fun t => decide (t.status = .illegalCommand)) = true ∧
    after (issue 0x21412000#32 State.reset) (fun t => decide (t.status = .naNInf)) = true ∧
    after (issue 0x30010000#32 smallState) (fun t => decide (t.status = .noImplementation)) = true ∧
    after (issue 0x30010000#32 State.reset) (fun t => decide (t.status = .argumentError)) = true ∧
    after (issue 0x31010040#32 State.reset) (fun t => decide (t.status = .argumentError)) = true := by
  decide +kernel

/-- `CommandFrame`: a command with a destination, another register, and one without a destination. -/
theorem witness_frame : (∃ t, exec (.sadd 4#4 1#4 2#4 .w8) State.reset = .next t) ∧
    destOf (.sadd 4#4 1#4 2#4 .w8) ≠ some 5#4 ∧ destOf (.sadd 4#4 1#4 2#4 .w8) ≠ none ∧
    destOf (.dwconv 1#4) ≠ some 1#4 := ⟨⟨_, rfl⟩, by decide, by decide, by decide⟩

/-- `SaturationClamps`: values below, above and at the ends of the range, for the least and the greatest width. -/
theorem witness_saturation : (-2 : Int) < -(2 ^ (1 - 1)) ∧ (-(2 ^ (1 - 1)) ≤ (0 : Int) ∧ (0 : Int) ≤ 2 ^ (1 - 1) - 1) ∧ (1 : Int) > 2 ^ (1 - 1) - 1 ∧
    (-(2 ^ 63) - 1 : Int) < -(2 ^ (64 - 1)) ∧ (2 ^ 63 : Int) > 2 ^ (64 - 1) - 1 ∧ (-5 : Int) ≤ -5 := by decide

/-- `SshrResult`, `RequantResult`: the least amounts of the clauses about large ones. -/
theorem witness_amounts : bitsOf .w16 ≤ ((withX 1 16 96).getX 2#4).toNat ∧
    96 ≤ ((withX 1 16 96).getX 3#4).toNat := by decide +kernel

/-- `Atan2OriginRaisesNaNInf`: the low halves are zero, the registers are not (V54). -/
theorem witness_atan2_origin : Spec.low 16 ((withX 0x10000 0xFFFF0000 0).getX 1#4) = 0 ∧
    Spec.low 16 ((withX 0x10000 0xFFFF0000 0).getX 2#4) = 0 := by decide +kernel

/-- `Atan2Axes`, `Atan2CompletesOffOrigin`: one state for each axis, at the ends of the ranges. -/
theorem witness_atan2_axes :
    (Spec.low 16 ((withX 32767 0 0).getX 2#4) = 0 ∧ Spec.low 16 ((withX 32767 0 0).getX 1#4) > 0) ∧
    (Spec.low 16 ((withX (-32768) 0 0).getX 2#4) = 0 ∧ Spec.low 16 ((withX (-32768) 0 0).getX 1#4) < 0) ∧
    (Spec.low 16 ((withX 0 (-32768) 0).getX 2#4) < 0 ∧ Spec.low 16 ((withX 0 (-32768) 0).getX 1#4) = 0) ∧
    (Spec.low 16 ((withX 0 1 0).getX 2#4) > 0 ∧ Spec.low 16 ((withX 0 1 0).getX 1#4) = 0) := by decide +kernel

/-- The operands of an `ATAN2 x4, x1, x2` under ten coefficients of 32767, whose polynomial value leaves the range of
R186. -/
def atanWild (y x : Int) : State := { withX y x 0 with atanCoef := Vector.replicate 10 0x7FFF#16 }

/-- `Atan2Quadrants`: operands at the ends of their ranges, with the value of the polynomial within the range of R186
under table E, and outside it under ten coefficients of 32767. -/
theorem witness_atan2_quadrants : ∀ s ∈ [atanState (-32768) (-32768), atanState 0 1, atanWild 1 (-1)],
    let y := Spec.low 16 (s.getX 1#4)
    let x := Spec.low 16 (s.getX 2#4)
    let ay := min 32767 y.natAbs
    let ax := min 32767 x.natAbs
    let p := atanPoly s.rnd s.atanCoef (min 32767 (if ax < ay then ax * 32768 / ay else ay * 32768 / ax) : Nat)
    x ≠ 0 ∧ (y ≠ 0 ∨ x > 0) ∧ (s.atanCoef = tableE → 0 ≤ p ∧ p ≤ 12868) ∧
      (s.atanCoef ≠ tableE → p = 32767) := by decide +kernel

/-- `DivNormNetEffect`, `AtanPolyPartialsBounded`: the ends of the ranges. -/
theorem witness_ratio : 0 ≤ 32767 ∧ 32767 ≤ 32767 ∧ 1 ≤ 32767 ∧ (0 : Int) ≤ 32767 ∧ (32767 : Int) ≤ 32767 ∧ 9 ≤ 9 := by
  decide

/-- `CmagCompletes`, `BlockContractsDecide`. -/
theorem witness_cmag : CmagContract (cmagState 5) ((cmagState 5).low32 1#4) ((cmagState 5).low32 2#4)
    ((cmagState 5).low32 3#4) := (cmagStop_eq_none _ _ _ _).mp (by decide +kernel)

/-- `DefaultMulRoundsToNearestEven`: `(1 + 2^-23) * 1.5` lies half-way between two values and below the overflow bound;
`1082401 * 2^50` times `31 * 2^53` is exactly the bound, `(2^25 - 1) * 2^103`. -/
theorem witness_product :
    (Spec.Finite 0x3F800001#32 ∧ Spec.Finite 0x3FC00000#32 ∧ Spec.Finite 0x3FC00001#32 ∧
      |Spec.value 0x3F800001#32 * Spec.value 0x3FC00000#32| < (2 ^ 25 - 1) * 2 ^ (252 + 149) ∧
      |Spec.value 0x3FC00002#32 * 2 ^ 149 - Spec.value 0x3F800001#32 * Spec.value 0x3FC00000#32| =
        |Spec.value 0x3FC00001#32 * 2 ^ 149 - Spec.value 0x3F800001#32 * Spec.value 0x3FC00000#32| ∧
      ieeeMul 0x3F800001#32 0x3FC00000#32 = 0x3FC00002#32) ∧
    (Spec.Finite 0x62842108#32 ∧ Spec.Finite 0x5C780000#32 ∧
      Spec.value 0x62842108#32 * Spec.value 0x5C780000#32 = (2 ^ 25 - 1) * 2 ^ (252 + 149)) := by
  unfold Spec.Finite; decide +kernel

/-- `DefaultAddRoundsToNearestEven`, `DefaultSubAndSign`: `1 + 2^-24` lies half-way between two values; the largest finite
value and `2^103` sum to the overflow bound; `1 - 1` is an exact zero of unlike signs. -/
theorem witness_sum :
    (Spec.Finite 0x3F800000#32 ∧ Spec.Finite 0x33800000#32 ∧ Spec.Finite 0x3F800001#32 ∧
      |Spec.value 0x3F800000#32 - (Spec.value 0x3F800000#32 + Spec.value 0x33800000#32)| =
        |Spec.value 0x3F800001#32 - (Spec.value 0x3F800000#32 + Spec.value 0x33800000#32)| ∧
      ieeeAdd 0x3F800000#32 0x33800000#32 = 0x3F800000#32) ∧
    (Spec.Finite 0x7F7FFFFF#32 ∧ Spec.Finite 0x73000000#32 ∧
      Spec.value 0x7F7FFFFF#32 + Spec.value 0x73000000#32 = (2 ^ 25 - 1) * 2 ^ 252) ∧
    (Spec.Finite 0xBF800000#32 ∧ Spec.value 0x3F800000#32 + Spec.value 0xBF800000#32 = 0 ∧
      Spec.negative 0x3F800000#32 ≠ Spec.negative 0xBF800000#32) := by
  unfold Spec.Finite; decide +kernel

/-- The same three statements: infinities of both signs, the least and the greatest pattern of a NaN, the zeros. -/
theorem witness_not_finite : Spec.Infinite 0x7F800000#32 ∧ Spec.Infinite 0xFF800000#32 ∧
    Spec.negative 0x7F800000#32 ≠ Spec.negative 0xFF800000#32 ∧ Spec.NaN 0x7F800001#32 ∧ Spec.NaN 0xFFFFFFFF#32 ∧
    ¬ Spec.NaN 0x3F800000#32 ∧ (0x3F800000#32).toNat % 2 ^ 31 ≠ 0 ∧ (0x80000000#32).toNat % 2 ^ 31 = 0 := by
  unfold Spec.Infinite Spec.NaN; decide +kernel

/-- `f32_lt0` is false of `-0` and of a negative NaN, and `f32_sub` keeps its operands' order (R178). -/
theorem test_lt0 : ieeeLt0 0x80000000#32 = false ∧ ieeeLt0 0xFFC00000#32 = false ∧ ieeeLt0 0x80000001#32 = true := by
  decide +kernel
theorem test_f32_sub : ieeeSub 0x3FC00000#32 0x3F800000#32 = 0x3F000000#32 := by decide +kernel

/-- `FirinitCompletes`, `FirContractsDecide`. -/
theorem witness_firinit : FirinitContract firState (firState.low32 1#4) :=
  (firinitStop_eq_none _ _).mp (by decide +kernel)

/-- `FirprocCompletes`, `FirContractsDecide`. -/
theorem witness_firproc : FirprocContract firState (firState.low32 1#4) (firState.low32 2#4) (firState.low32 3#4) :=
  (firprocStop_eq_none _ _ _ _).mp (by decide +kernel)

/-- `PlatformResetKeepsMemory`: a reset waits in a state in which `FIRPROC` completes. -/
theorem witness_platform_reset :
    { firState with queue := [.reset] }.queue = .reset :: [] ∧
    ∃ u, exec (.firproc 1#4 2#4 3#4) { firState with queue := [.reset] } = .next u :=
  ⟨rfl, _, execFirproc_eq_next.mpr ⟨(firprocStop_eq_none _ _ _ _).mp (by decide +kernel), rfl⟩⟩

/-- A filter of two taps, `M = 1`, Q15, on blocks of `l` samples: the record at `d`, the coefficients at `d + 0x100`, the
history `h` at `d + 0x200`, the block `xs` at `d + 0x300`, the outputs at `d + 0x400`. -/
def streamState (d : Nat) (h : Int) (xs : List Int) : State :=
  let m := putL [] d 4 [(d + 0x100 : Nat), (d + 0x200 : Nat), 2, 1, xs.length, 0x0F01, 0, 0]
  let m := putL (putL m (d + 0x100) 2 [16384, 8192]) (d + 0x200) 2 [h]
  withMem .halfUp (putL m (d + 0x300) 2 xs) d (d + 0x300 : Nat) (d + 0x400 : Nat)

/-- `FIRPROC` completes on it. -/
theorem streamState_next {d : Nat} {h : Int} {xs : List Int}
    (hc : firprocStop (streamState d h xs) ((streamState d h xs).low32 1#4) ((streamState d h xs).low32 2#4)
      ((streamState d h xs).low32 3#4) = none) :
    ∃ t, exec (.firproc 1#4 2#4 3#4) (streamState d h xs) = .next t :=
  ⟨_, execFirproc_eq_next.mpr ⟨(firprocStop_eq_none _ _ _ _).mp hc, rfl⟩⟩

/-- `FirprocDependsOnItsBuffersOnly`: the same filter and block at two places. -/
theorem witness_fir_places :
    let s := streamState 0x1000 5 [100]
    let s' := streamState 0x8000 5 [100]
    let f := firRecord s.mem (s.low32 1#4)
    let f' := firRecord s'.mem (s'.low32 1#4)
    (∃ t, exec (.firproc 1#4 2#4 3#4) s = .next t) ∧ (∃ t, exec (.firproc 1#4 2#4 3#4) s' = .next t) ∧
    s'.rnd = s.rnd ∧ f'.taps = f.taps ∧ f'.decim = f.decim ∧ f'.block = f.block ∧ f'.fmt = f.fmt ∧
    (∀ j, j < f.taps → s'.mem.readS (f'.coef + j * f.bytes) f.bytes = s.mem.readS (f.coef + j * f.bytes) f.bytes) ∧
    (∀ k, k < f.taps - 1 →
      s'.mem.readS (f'.state + k * f.bytes) f.bytes = s.mem.readS (f.state + k * f.bytes) f.bytes) ∧
    (∀ k, k < f.block → s'.mem.readS (s'.low32 2#4 + k * f.bytes) f.bytes =
      s.mem.readS (s.low32 2#4 + k * f.bytes) f.bytes) := by
  intro s s' f f'
  refine ⟨streamState_next (by decide +kernel), streamState_next (by decide +kernel), rfl, ?_⟩
  decide +kernel

/-- `FirStreamingEquivalence`: the block `(100, 300)` at once, and its halves; the history the first half leaves is 100. -/
theorem witness_fir_streaming :
    let s1 := streamState 0x1000 5 [100, 300]
    let s2 := streamState 0x2000 5 [100]
    let s3 := streamState 0x3000 100 [300]
    let t2 := nextOf (exec (.firproc 1#4 2#4 3#4) s2) s2
    let f1 := firRecord s1.mem (s1.low32 1#4)
    let f2 := firRecord s2.mem (s2.low32 1#4)
    let f3 := firRecord s3.mem (s3.low32 1#4)
    let w := f1.bytes
    (∃ t, exec (.firproc 1#4 2#4 3#4) s1 = .next t) ∧ exec (.firproc 1#4 2#4 3#4) s2 = .next t2 ∧
    (∃ t, exec (.firproc 1#4 2#4 3#4) s3 = .next t) ∧ s2.rnd = s1.rnd ∧ s3.rnd = s1.rnd ∧
    (f2.taps = f1.taps ∧ f3.taps = f1.taps ∧ f2.decim = f1.decim ∧ f3.decim = f1.decim ∧ f2.fmt = f1.fmt ∧
      f3.fmt = f1.fmt ∧ f1.block = 2 * f2.block ∧ f3.block = f2.block) ∧
    (∀ j, j < f1.taps → s2.mem.readS (f2.coef + j * w) w = s1.mem.readS (f1.coef + j * w) w ∧
      s3.mem.readS (f3.coef + j * w) w = s1.mem.readS (f1.coef + j * w) w) ∧
    (∀ k, k < f1.taps - 1 → s2.mem.readS (f2.state + k * w) w = s1.mem.readS (f1.state + k * w) w ∧
      s3.mem.readS (f3.state + k * w) w = t2.mem.readS (f2.state + k * w) w) ∧
    (∀ k, k < f2.block → s2.mem.readS (s2.low32 2#4 + k * w) w = s1.mem.readS (s1.low32 2#4 + k * w) w ∧
      s3.mem.readS (s3.low32 2#4 + k * w) w = s1.mem.readS (s1.low32 2#4 + (f2.block + k) * w) w) := by
  intro s1 s2 s3 t2 f1 f2 f3 w
  have h2 : exec (.firproc 1#4 2#4 3#4) s2 = .next t2 := by
    obtain ⟨t, ht⟩ := streamState_next (d := 0x2000) (h := 5) (xs := [100]) (by decide +kernel)
    simp only [t2, s2, ht, nextOf]
  refine ⟨streamState_next (by decide +kernel), h2, streamState_next (by decide +kernel), rfl, rfl, ?_⟩
  decide +kernel

/-- `DwconvCompletes`, `TensorContractsDecide`. -/
theorem witness_dwconv : (dwState 0x11 (-128) 127 1 [0, 0]).plat.hasVec = true ∧
    DwconvContract (dwState 0x11 (-128) 127 1 [0, 0]) ((dwState 0x11 (-128) 127 1 [0, 0]).low32 1#4) :=
  ⟨rfl, (dwconvStop_eq_none ((State.bufferStop_eq_none _ _ _).mp (by decide +kernel)) (by decide +kernel)).mp
    (by decide +kernel)⟩

/-- `DwconvZeroWeights`: nine zero bytes, the bias (7, -9), the identity scale (V63). -/
theorem witness_zero_weights :
    let s := dwState 0 (-5) 5 1 [7, -9]
    let q := dwDesc s.mem (s.low32 1#4)
    s.plat.hasVec = true ∧ DwconvContract s (s.low32 1#4) ∧
    (∀ i, i < q.kH * q.kW * q.ch → nib s.mem q.wgtPtr i = 0) ∧
    s.mem.readS (q.multPtr + 4 * 1) 4 = 2 ^ s.mem.read (q.shiftPtr + 4 * 1) 4 ∧ q.outOffset = 0 ∧
    -128 ≤ s.mem.readS (q.biasPtr + 4 * 1) 4 ∧ s.mem.readS (q.biasPtr + 4 * 1) 4 ≤ 127 := by
  intro s q
  refine ⟨rfl, (dwconvStop_eq_none ((State.bufferStop_eq_none _ _ _).mp (by decide +kernel))
    (by decide +kernel)).mp (by decide +kernel), ?_⟩
  decide +kernel

/-- `DwconvChecks`: no vector datapath; a readable descriptor with the batch counts 0 and -1. -/
theorem witness_dwconv_checks : smallState.plat.hasVec = false ∧
    (State.reset.plat.hasVec = true ∧ State.reset.Usable 4 ⟨State.reset.low32 1#4, 88⟩ ∧
      State.reset.mem.readS (State.reset.low32 1#4 + 0x18) 4 ≤ 0) ∧
    (dwState 0 0 0 (-1) []).mem.readS ((dwState 0 0 0 (-1) []).low32 1#4 + 0x18) 4 = -1 :=
  ⟨rfl, ⟨rfl, (State.bufferStop_eq_none _ _ _).mp (by decide +kernel), by decide +kernel⟩, by decide +kernel⟩

/-- `MaxpoolBatchCheck`: a readable descriptor with the batch count 0. -/
theorem witness_maxpool_check : Width.w16 ≠ .w32 ∧ State.reset.Usable 4 ⟨State.reset.low32 1#4, 64⟩ ∧
    State.reset.mem.readS (State.reset.low32 1#4 + 0x08) 4 ≤ 0 :=
  ⟨by decide, (State.bufferStop_eq_none _ _ _).mp (by decide +kernel), by decide +kernel⟩

/-- `MaxpoolNonEmptyWindow`, `MaxpoolEmptyWindow`: of the last row of V64 the window of output (1, 1) holds the input
position (0, 0), and the window of output (0, 0) is empty. -/
theorem witness_maxpool :
    let q := poolDesc poolState.mem (poolState.low32 1#4)
    Width.w8 ≠ .w32 ∧ MaxpoolContract poolState (poolState.low32 1#4) (bytesOf .w8) ∧
    (0 < q.batch.toNat ∧ 1 < q.outH ∧ 1 < q.outW ∧ 0 < q.ch) ∧ Spec.InWindow q 1 1 0 0 ∧
    ∀ y x, ¬ Spec.InWindow q 0 0 y x := by
  intro q
  have hq : q = ⟨0x2000, 0x2100, 1, 2, 2, 1, 2, 2, 2, 2, 2, 2, 2, 2, -10, 10⟩ := by decide +kernel
  refine ⟨by decide, (maxpoolStop_eq_none _ ((State.bufferStop_eq_none _ _ _).mp (by decide +kernel))
    (by decide +kernel)).mp (by decide +kernel), ?_⟩
  clear_value q
  subst hq
  simp only [Spec.InWindow]
  exact ⟨by decide, by omega, fun y x => by omega⟩

/-- `ReluCompletes`, `ReluIdempotent`, `BlockContractsDecide`. -/
theorem witness_relu : Width.w16 ≠ .w32 ∧
    ReluContract reluState (reluState.low32 1#4) (bytesOf .w16) (reluState.low32 2#4) ∧
    ∃ t, exec (.relu 1#4 2#4 .w16) reluState = .next t :=
  have h : ReluContract reluState (reluState.low32 1#4) (bytesOf .w16) (reluState.low32 2#4) :=
    (State.bufferStop_eq_none _ _ _).mp (by decide +kernel)
  ⟨by decide, h, _, execRelu_eq_next.mpr (.inr ⟨rfl, h, rfl⟩)⟩

/-- `Unpack4Completes`. -/
theorem witness_unpack4 : UnpackContract (unpackState 5) ((unpackState 5).low32 1#4) ((unpackState 5).low32 2#4)
    ((unpackState 5).low32 3#4) :=
  have h := (packStop_eq_none (unpackState 5) ⟨0x100, 3⟩ ⟨0x200, 5⟩).mp (by decide +kernel)
  ⟨h.1, h.2.1, h.2.2⟩

/-- `Pack4Completes`. -/
theorem witness_pack4 : PackContract (packState [9, -9]) ((packState [9, -9]).low32 1#4)
    ((packState [9, -9]).low32 2#4) ((packState [9, -9]).low32 3#4) :=
  have h := (packStop_eq_none (packState [9, -9]) ⟨0x100, 2⟩ ⟨0x200, 1⟩).mp (by decide +kernel)
  ⟨h.1, h.2.1, h.2.2⟩

/-- `PackUnpackRoundTrip`, both directions: the first command completes; the host points `x1` at its destination and `x2`
at 0x300; the second completes. -/
theorem witness_round_trip :
    let redirect := fun t : State => (t.setX 1#4 0x200#64).setX 2#4 0x300#64
    let s := unpackState 5
    let t := nextOf (exec (.unpack4 1#4 2#4 3#4) s) s
    let s' := packState [9, -9, 1]
    let t' := nextOf (exec (.pack4 1#4 2#4 3#4) s') s'
    (after (exec (.unpack4 1#4 2#4 3#4) s) (fun v => decide (v = t)) = true ∧ (redirect t).mem = t.mem ∧
      (redirect t).low32 1#4 = s.low32 2#4 ∧ (redirect t).low32 3#4 = s.low32 3#4 ∧
      after (exec (.pack4 1#4 2#4 3#4) (redirect t)) (fun _ => true) = true) ∧
    (after (exec (.pack4 1#4 2#4 3#4) s') (fun v => decide (v = t')) = true ∧ (redirect t').mem = t'.mem ∧
      (redirect t').low32 1#4 = s'.low32 2#4 ∧ (redirect t').low32 3#4 = s'.low32 3#4 ∧
      after (exec (.unpack4 1#4 2#4 3#4) (redirect t')) (fun _ => true) = true) := by
  decide +kernel

/-- `StopsByName`: an odd address of halfwords; an array one byte past the end of the space; an array whose last byte the
small platform does not admit. -/
theorem witness_stops :
    ((withX 1 1 0).low32 2#4 ≠ 0 ∧ (withX 1 1 0).low32 1#4 % 2 = 1) ∧
    ((withX 0xFFFFFFFF 2 0).low32 2#4 ≠ 0 ∧
      2 ^ 32 < (withX 0xFFFFFFFF 2 0).low32 1#4 + (withX 0xFFFFFFFF 2 0).low32 2#4) ∧
    (let s := { withX 0x1FF 2 0 with plat := smallState.plat }
     s.low32 1#4 + s.low32 2#4 ≤ 2 ^ 32 ∧ s.low32 1#4 ≤ 0x200 ∧ 0x200 < s.low32 1#4 + s.low32 2#4 ∧
      ∀ r ∈ s.plat.regions, ¬ (r.base ≤ 0x200 ∧ 0x200 < r.base + r.size)) := by
  decide +kernel

/-- `StopsByName`: a destination on top of its source, both of them usable. -/
theorem witness_stops_overlap :
    let s := withX 0x100 0x100 1
    s.Usable 1 ⟨s.low32 1#4, (s.low32 3#4 + 1) / 2⟩ ∧ s.Usable 1 ⟨s.low32 2#4, s.low32 3#4⟩ ∧
      s.low32 1#4 ≤ 0x100 ∧ 0x100 < s.low32 1#4 + (s.low32 3#4 + 1) / 2 ∧ s.low32 2#4 ≤ 0x100 ∧
      0x100 < s.low32 2#4 + s.low32 3#4 :=
  ⟨(State.bufferStop_eq_none _ _ _).mp (by decide +kernel), (State.bufferStop_eq_none _ _ _).mp (by decide +kernel),
    by decide +kernel⟩

/-- A descriptor at 0x1000 whose word at byte offset `off`, the batch count, is 1 and whose other words are 0. -/
def zeroFields (off : Nat) : State := withMem .halfUp (putL [] (0x1000 + off) 4 [1]) 0x1000 0 0

/-- The descriptor of `poolState16` with `ACT_MIN` above `ACT_MAX` by one. -/
def poolBounds : State :=
  withMem .halfUp (putL [] 0x1000 4 [0x2000, 0x2100, 1, 2, 2, 2, 2, 2, 1, 1, 0, 0, 1, 1, 8, 7]) 0x1000 0 0

/-- `StopsByName`: a filter's record of zeros, and that of V30 with a block that its decimation does not divide. -/
theorem witness_stops_fir :
    (State.reset.Usable 4 ⟨State.reset.low32 1#4 + 0x04, 8⟩ ∧ State.reset.Usable 4 ⟨State.reset.low32 1#4 + 0x10, 12⟩ ∧
      (firRecord State.reset.mem (State.reset.low32 1#4)).taps = 0) ∧
    (let s := { firState with mem := firState.mem.write 0x1010 4 3 }
     s.Usable 4 ⟨s.low32 1#4, 32⟩ ∧
      ¬ (firRecord s.mem (s.low32 1#4)).decim ∣ (firRecord s.mem (s.low32 1#4)).block) :=
  ⟨⟨(State.bufferStop_eq_none _ _ _).mp (by decide +kernel), (State.bufferStop_eq_none _ _ _).mp (by decide +kernel),
    by decide +kernel⟩, (State.bufferStop_eq_none _ _ _).mp (by decide +kernel), by decide +kernel⟩

/-- `StopsByName`: readable descriptors with a positive batch count, with fields that are 0 and with bounds out of
order. -/
theorem witness_stops_tensor :
    ((zeroFields 0x18).Usable 4 ⟨(zeroFields 0x18).low32 1#4, 88⟩ ∧
      0 < (dwDesc (zeroFields 0x18).mem ((zeroFields 0x18).low32 1#4)).batch ∧
      ¬ (dwDesc (zeroFields 0x18).mem ((zeroFields 0x18).low32 1#4)).FieldsLegal) ∧
    (let s := dwState 0x11 5 4 1 [0, 0]
     s.Usable 4 ⟨s.low32 1#4, 88⟩ ∧ (0 < (dwDesc s.mem (s.low32 1#4)).batch ∧
      (dwDesc s.mem (s.low32 1#4)).FieldsLegal ∧
      (dwDesc s.mem (s.low32 1#4)).actMax < (dwDesc s.mem (s.low32 1#4)).actMin)) ∧
    ((zeroFields 0x08).Usable 4 ⟨(zeroFields 0x08).low32 1#4, 64⟩ ∧
      0 < (poolDesc (zeroFields 0x08).mem ((zeroFields 0x08).low32 1#4)).batch ∧
      ¬ (poolDesc (zeroFields 0x08).mem ((zeroFields 0x08).low32 1#4)).FieldsLegal) ∧
    (poolBounds.Usable 4 ⟨poolBounds.low32 1#4, 64⟩ ∧ (0 < (poolDesc poolBounds.mem (poolBounds.low32 1#4)).batch ∧
      (poolDesc poolBounds.mem (poolBounds.low32 1#4)).FieldsLegal ∧
      (poolDesc poolBounds.mem (poolBounds.low32 1#4)).actMax <
        (poolDesc poolBounds.mem (poolBounds.low32 1#4)).actMin)) := by
  have u : ∀ (s : State) (b : Buffer), s.bufferStop 4 b = none → s.Usable 4 b :=
    fun s b => (State.bufferStop_eq_none s 4 b).mp
  unfold DwDesc.FieldsLegal PoolDesc.FieldsLegal
  exact ⟨⟨u _ _ (by decide +kernel), by decide +kernel⟩, ⟨u _ _ (by decide +kernel), by decide +kernel⟩,
    ⟨u _ _ (by decide +kernel), by decide +kernel⟩, u _ _ (by decide +kernel), by decide +kernel⟩

end Sys2Proof.Tests
end

