-- ==== Sys2Proof/Proofs/Rounding.lean ====
section
/-! PROOF. Saturation (R9) is `Spec.clip`, and the rounding shift (R10) is the one integer `Spec.RoundsTo` allows. -/

namespace Sys2Proof.Machine

open Sys2Proof.Spec

/-! ## Saturation (R9) -/

/-- The model's saturation is the specification's clamp; the bounds agree in every width. -/
theorem sat_eq_clip (n : Nat) (v : Int) : sat n v = clip n v := by
  rw [sat_eq_clamp]
  simp [minOf, maxOf, clip]

/-- The least value of a width is not above its greatest. -/
theorem neg_two_pow_le (k : Nat) : -(2 ^ k : Int) ≤ 2 ^ k - 1 := by
  have hpos : (0 : Int) < 2 ^ k := by positivity
  omega

/-- Below the range of the width, the clamp is the least value. -/
theorem clip_of_lt {n : Nat} {v : Int} (h : v < -(2 ^ (n - 1))) : clip n v = -(2 ^ (n - 1)) :=
  max_eq_left ((min_le_right _ _).trans h.le)

/-- Above the range of the width, the clamp is the greatest value. -/
theorem clip_of_gt {n : Nat} {v : Int} (h : v > 2 ^ (n - 1) - 1) : clip n v = 2 ^ (n - 1) - 1 := by
  rw [clip, min_eq_left h.le, max_eq_right (neg_two_pow_le _)]

/-- Within the range of the width, the clamp is the value. -/
theorem clip_of_mem {n : Nat} {v : Int} (h1 : -(2 ^ (n - 1)) ≤ v) (h2 : v ≤ 2 ^ (n - 1) - 1) : clip n v = v := by
  rw [clip, min_eq_right h2, max_eq_right h1]

/-! ## Rounding half up (R10) -/

/-- Rounded half up means: the floor of `(2v + 2^s) / (2 * 2^s)`. The quotient is unique, so the rounded value is. -/
theorem roundsTo_halfUp_iff (v : Int) (s : Nat) (q : Int) :
    RoundsTo .halfUp v s q ↔ (2 * v + 2 ^ s) / (2 * 2 ^ s) = q := by
  have hpos : (0 : Int) < 2 * 2 ^ s := by positivity
  rw [Int.ediv_eq_iff_of_pos hpos, RoundsTo]
  constructor <;> rintro ⟨h1, h2⟩ <;> constructor <;> linarith

theorem rndShr_halfUp_eq_ediv (v : Int) (s : Nat) : rndShr .halfUp v s = (2 * v + 2 ^ s) / (2 * 2 ^ s) := by
  cases s with
  | zero => rw [rndShr_zero]; omega
  | succ k =>
    have hsum : 2 * v + 2 ^ (k + 1) = 2 * (v + 2 ^ k) := by ring
    rw [rndShr_halfUp v k.succ_ne_zero, hsum, Int.mul_ediv_mul_of_pos _ _ two_pos]
    simp

/-! ## Rounding half to even (R10) -/

/-- The nearest integer, ties to even, with the absolute value as two bounds, so that linear arithmetic applies. -/
theorem roundsTo_halfEven_iff (v : Int) (s : Nat) (q : Int) :
    RoundsTo .halfEven v s q ↔
      (-2 ^ s ≤ 2 * (v - q * 2 ^ s) ∧ 2 * (v - q * 2 ^ s) ≤ 2 ^ s) ∧
        (2 * (v - q * 2 ^ s) = 2 ^ s ∨ 2 * (v - q * 2 ^ s) = -2 ^ s → 0 < s → q % 2 = 0) := by
  have hpos : (0 : Int) ≤ 2 ^ s := by positivity
  rw [RoundsTo, abs_le, abs_eq hpos]

/-- What the half-to-even shift answers, from the quotient `q` and the remainder `r` of R10; `2^k` is the half. -/
theorem rndShr_halfEven_succ (v : Int) (k : Nat) :
    ∃ q r : Int, v = q * 2 ^ (k + 1) + r ∧ 0 ≤ r ∧ r < 2 ^ (k + 1) ∧
      rndShr .halfEven v (k + 1) = if 2 ^ k < r ∨ (r = 2 ^ k ∧ q % 2 = 1) then q + 1 else q := by
  have hpos : (0 : Int) < 2 ^ (k + 1) := by positivity
  exact ⟨v / 2 ^ (k + 1), v % 2 ^ (k + 1), (Int.ediv_mul_add_emod v _).symm, Int.emod_nonneg v hpos.ne',
    Int.emod_lt_of_pos v hpos, by simp [rndShr]⟩

theorem roundsTo_halfEven_rndShr (v : Int) (s : Nat) : RoundsTo .halfEven v s (rndShr .halfEven v s) := by
  rw [roundsTo_halfEven_iff]
  cases s with
  | zero => simp
  | succ k =>
    obtain ⟨q, r, hv, hr0, hr, heq⟩ := rndShr_halfEven_succ v k
    have hpow : (2 : Int) ^ (k + 1) = 2 * 2 ^ k := pow_succ' 2 k
    rw [heq]
    split
    next hup =>
      have hdist : v - (q + 1) * 2 ^ (k + 1) = r - 2 ^ (k + 1) := by rw [hv]; ring
      rw [hdist]
      omega
    next hdown =>
      have hdist : v - q * 2 ^ (k + 1) = r := by rw [hv]; ring
      rw [hdist]
      omega

/-- Two different nearest integers would be neighbours at a tie, and not both even. -/
theorem not_lt_of_roundsTo_halfEven {v : Int} {s : Nat} {q q' : Int} (h : RoundsTo .halfEven v s q)
    (h' : RoundsTo .halfEven v s q') : ¬ q < q' := by
  intro hlt
  obtain ⟨⟨-, hle⟩, htie⟩ := (roundsTo_halfEven_iff v s q).mp h
  obtain ⟨⟨hge, -⟩, htie'⟩ := (roundsTo_halfEven_iff v s q').mp h'
  have hpos : (0 : Int) < 2 ^ s := by positivity
  have hstep : (q + 1) * 2 ^ s ≤ q' * 2 ^ s := mul_le_mul_of_nonneg_right hlt hpos.le
  have hup : 2 * (v - q * 2 ^ s) = 2 ^ s := by linarith
  have hdown : 2 * (v - q' * 2 ^ s) = -2 ^ s := by linarith
  have hnext : q' = q + 1 := mul_right_cancel₀ hpos.ne' (by linarith)
  cases s with
  | zero => omega
  | succ k =>
    have heven := htie (.inl hup) k.succ_pos
    have heven' := htie' (.inr hdown) k.succ_pos
    omega

/-! ## Both rules -/

/-- The rounding shift is the one integer that R10 describes. -/
theorem roundsTo_iff (r : Rounding) (v : Int) (s : Nat) (q : Int) : RoundsTo r v s q ↔ q = rndShr r v s := by
  cases r with
  | halfUp => rw [roundsTo_halfUp_iff, rndShr_halfUp_eq_ediv, eq_comm]
  | halfEven =>
    have hshr := roundsTo_halfEven_rndShr v s
    refine ⟨fun h => ?_, fun h => h ▸ hshr⟩
    exact le_antisymm (not_lt.mp (not_lt_of_roundsTo_halfEven hshr h)) (not_lt.mp (not_lt_of_roundsTo_halfEven h hshr))

end Sys2Proof.Machine

namespace Sys2Proof.Proofs

open Sys2Proof.Machine

/-- Settles O24: `RoundsTo` holds of the shift's result and of nothing else. -/
theorem roundingShiftIsNearest : Obligations.RoundingShiftIsNearest := fun r v s =>
  ⟨(roundsTo_iff r v s _).mpr rfl, fun q => (roundsTo_iff r v s q).mp, rndShr_zero r v⟩

/-- Settles O23: saturation through `clip`, a clause for each side of the range; `clamp` by exchanging its two bounds. -/
theorem saturationClamps : Obligations.SaturationClamps := by
  refine ⟨fun n v _ _ => ?_, fun v lo hi hle => ?_⟩
  · rw [sat_eq_clip]
    exact ⟨clip_of_lt, clip_of_gt, clip_of_mem⟩
  · rw [clamp, max_min_distrib_left, max_eq_right hle, max_comm]

end Sys2Proof.Proofs
end

/-! PROOF. R28: which command can write which status code. A word that decodes is well formed as far as `WSEL` goes
(R94), so a command that was issued as a word reports only the codes of `Reports`, one constructor for each clause of
R28. -/

namespace Sys2Proof

/-- What a word that decodes must be: a row has its `OP`, it matches the row under the mask, and the row's command is
what it decodes to (R94). -/
theorem decode_eq_ok {w : Word} {i : Instr} (h : decode w = .ok i) :
    ∃ o : Opcode, w &&& o.mask = o.pattern ∧ o.instr w = some i := by
  unfold decode at h
  split at h
  · cases h
  · next o _ =>
    split at h
    · next hrow =>
      split at h
      · cases h
      · next hi => cases h; exact ⟨o, hrow, hi⟩
    · cases h

/-- A row whose mask covers bit 7 matches only words with that bit clear: the pattern is zero below `OP` (R94). -/
theorem getLsbD_seven_of_row {o : Opcode} {w : Word} (hmask : o.mask.getLsbD 7 = true)
    (hrow : w &&& o.mask = o.pattern) : w.getLsbD 7 = false := by
  have hbit : (w &&& o.mask).getLsbD 7 = o.pattern.getLsbD 7 := by rw [hrow]
  rwa [BitVec.getLsbD_and, hmask, Bool.and_true, Opcode.pattern, BitVec.getLsbD_append, if_pos (by decide)] at hbit

/-- With bit 7 of the word clear, `WSEL` names bytes or halfwords (R92, R94). -/
theorem narrow_of_ofSel {w : Word} {v : Width} (hbit : w.getLsbD 7 = false)
    (hv : Width.ofSel (fieldWsel w) = some v) : v.narrow = true := by
  have hsel : (fieldWsel w).getLsbD 1 = false := by simpa [fieldWsel] using hbit
  cases v with
  | w8 => rfl
  | w16 => rfl
  | w32 =>
    have hnot : ∀ b : BitVec 2, b.getLsbD 1 = false → Width.ofSel b ≠ some .w32 := by decide
    exact absurd hv (hnot _ hsel)

/-- The command of a row that the word matches is well formed: bit 7 of `MAXPOOL` and `RELU` is under the mask (R94). -/
theorem wf_of_row {o : Opcode} {w : Word} {i : Instr} (hrow : w &&& o.mask = o.pattern)
    (hi : o.instr w = some i) : i.wf = true := by
  cases o with
  | maxpool =>
    obtain ⟨v, hv, rfl⟩ := Option.map_eq_some_iff.mp hi
    exact narrow_of_ofSel (getLsbD_seven_of_row (by decide) hrow) hv
  | relu =>
    obtain ⟨v, hv, rfl⟩ := Option.map_eq_some_iff.mp hi
    exact narrow_of_ofSel (getLsbD_seven_of_row (by decide) hrow) hv
  | sat | firinit | firproc | cmag | atan2 | dwconv | unpack4 | pack4 =>
    obtain rfl := Option.some.inj hi
    rfl
  | sadd | ssub | smul | sshl | sshr | requant =>
    obtain ⟨v, -, rfl⟩ := Option.map_eq_some_iff.mp hi
    rfl

/-- Every word that decodes, decodes to a well-formed command (R94). -/
theorem wf_of_decode {w : Word} {i : Instr} (h : decode w = .ok i) : i.wf = true := by
  obtain ⟨o, hrow, hi⟩ := decode_eq_ok h
  exact wf_of_row hrow hi

end Sys2Proof

namespace Sys2Proof.Machine

/-- The codes that R28 lets a decoded command write: every command `Success`, and the three families that can `raise`
their own. -/
inductive Reports : Instr → Status → Prop where
  | success (i : Instr) : Reports i .success
  | atan2 (rd rs1 rs2 : Reg) : Reports (.atan2 rd rs1 rs2) .naNInf
  | dwconvCapability (rs1 : Reg) : Reports (.dwconv rs1) .noImplementation
  | dwconvBatch (rs1 : Reg) : Reports (.dwconv rs1) .argumentError
  | maxpoolBatch (rs1 : Reg) (w : Width) : Reports (.maxpool rs1 w) .argumentError

/-- A scalar command's end reports `Success`. -/
theorem reports_of_finishX {i : Instr} {s t : State} {rd : Reg} {v : Int}
    (h : (.next (s.finishX rd v) : Result) = .next t) : Reports i t.status := by
  cases h
  exact .success i

/-- What a well-formed command reports where it completes (R28). -/
theorem exec_reports {i : Instr} {s t : State} (hwf : i.wf = true) (h : exec i s = .next t) :
    Reports i t.status := by
  cases i with
  | sat | sadd | ssub | smul | sshl | sshr | requant => exact reports_of_finishX h
  | firinit =>
    obtain ⟨-, rfl⟩ := execFirinit_eq_next.mp h
    exact .success _
  | firproc =>
    obtain ⟨-, rfl⟩ := execFirproc_eq_next.mp h
    exact .success _
  | cmag =>
    obtain ⟨-, rfl⟩ := execCmag_eq_next.mp h
    exact .success _
  | atan2 =>
    obtain ⟨-, rfl⟩ | ⟨_, -, rfl⟩ := execAtan2_eq_next.mp h
    · exact .atan2 ..
    · exact .success _
  | dwconv =>
    obtain ⟨-, rfl⟩ | ⟨-, -, -, rfl⟩ | ⟨-, -, rfl⟩ := execDwconv_eq_next.mp h
    · exact .dwconvCapability _
    · exact .dwconvBatch _
    · exact .success _
  | maxpool =>
    obtain ⟨hwide, -⟩ | ⟨-, -, -, rfl⟩ | ⟨-, -, rfl⟩ := execMaxpool_eq_next.mp h
    · exact absurd (hwide.symm.trans hwf) Bool.false_ne_true
    · exact .maxpoolBatch ..
    · exact .success _
  | relu =>
    obtain ⟨hwide, -⟩ | ⟨-, -, rfl⟩ := execRelu_eq_next.mp h
    · exact absurd (hwide.symm.trans hwf) Bool.false_ne_true
    · exact .success _
  | unpack4 =>
    obtain ⟨-, rfl⟩ := execUnpack4_eq_next.mp h
    exact .success _
  | pack4 =>
    obtain ⟨-, rfl⟩ := execPack4_eq_next.mp h
    exact .success _

/-- What issuing a word can report where it completes: `IllegalCommand` where it does not decode, else a code of the
command it decodes to (R28, R94). -/
theorem issue_reports {w : Word} {s t : State} (h : issue w s = .next t) :
    ((∀ i, decode w ≠ .ok i) ∧ t.status = .illegalCommand) ∨ ∃ i, decode w = .ok i ∧ Reports i t.status := by
  unfold issue at h
  split at h
  · next i hd => exact .inr ⟨i, hd, exec_reports (wf_of_decode hd) h⟩
  · next hd =>
    cases h
    exact .inl ⟨by simp [hd], rfl⟩

end Sys2Proof.Machine

namespace Sys2Proof.Proofs

open Sys2Proof.Machine

/-- Settles O20: each clause of R28 read off the constructors of `Reports`, or off the word's not decoding. -/
theorem statusCodesByCommand : Obligations.StatusCodesByCommand := by
  intro w s t h
  obtain ⟨hnone, hstatus⟩ | ⟨i, hd, hr⟩ := issue_reports h
  · simp [hstatus, hnone]
  · rw [hd]
    generalize t.status = c at hr ⊢
    cases hr <;> simp

end Sys2Proof.Proofs

/-! PROOF. R94: the legal words are those that match a row of R95. A word that matches a row under its mask has the
row's `OP`, since every mask covers bits 31:24, so the decoder finds that row; what is left is `WSEL`. -/

namespace Sys2Proof

theorem fieldOp_and (w m : Word) : fieldOp (w &&& m) = fieldOp w &&& fieldOp m :=
  BitVec.extractLsb'_and

/-- Every mask covers the whole field `OP` (R95). -/
theorem Opcode.fieldOp_mask (o : Opcode) : fieldOp o.mask = BitVec.allOnes 8 := by cases o <;> decide

theorem Opcode.fieldOp_pattern (o : Opcode) : fieldOp o.pattern = o.byte := by cases o <;> decide

/-- A word that matches a row under its mask has the row's `OP` (R94). -/
theorem fieldOp_of_row {o : Opcode} {w : Word} (hrow : w &&& o.mask = o.pattern) : fieldOp w = o.byte := by
  have hop : fieldOp (w &&& o.mask) = fieldOp o.pattern := congrArg fieldOp hrow
  rwa [fieldOp_and, o.fieldOp_mask, BitVec.and_allOnes, o.fieldOp_pattern] at hop

/-- A word decodes to the command of the row that it matches, and to nothing else (R94). -/
theorem decode_eq_ok_iff {w : Word} {i : Instr} :
    decode w = .ok i ↔ ∃ o : Opcode, w &&& o.mask = o.pattern ∧ o.instr w = some i := by
  refine ⟨decode_eq_ok, fun ⟨o, hrow, hi⟩ => ?_⟩
  simp only [decode, fieldOp_of_row hrow, Opcode.ofByte_byte, if_pos hrow, hi]

/-- The six rows that use `WSEL` with three values (R94). -/
def Opcode.usesThreeWidths : Opcode → Bool
  | .sadd | .ssub | .smul | .sshl | .sshr | .requant => true
  | _ => false

/-- `WSEL` names a width unless it is the reserved value (R92). -/
theorem Width.isSome_ofSel_iff (v : BitVec 2) : (Width.ofSel v).isSome = true ↔ v ≠ 3#2 := by
  revert v
  decide

/-- A row that holds bit 7 of the word clear leaves `WSEL` no way to be 3. -/
theorem fieldWsel_ne_three_of_row {o : Opcode} {w : Word} (hmask : o.mask.getLsbD 7 = true)
    (hrow : w &&& o.mask = o.pattern) : fieldWsel w ≠ 3#2 := by
  intro hsel
  have hbit : (fieldWsel w).getLsbD 1 = w.getLsbD 7 := by simp [fieldWsel]
  rw [getLsbD_seven_of_row hmask hrow, hsel] at hbit
  exact absurd hbit (by decide)

/-- A row that the word matches gives a command unless the row uses `WSEL` with three values and `WSEL` is 3 (R94). -/
theorem isSome_instr_iff_of_row {o : Opcode} {w : Word} (hrow : w &&& o.mask = o.pattern) :
    (o.instr w).isSome = true ↔ (o.usesThreeWidths = true → fieldWsel w ≠ 3#2) := by
  cases o with
  | sat | firinit | firproc | cmag | atan2 | dwconv | unpack4 | pack4 =>
    simp [Opcode.instr, Opcode.usesThreeWidths]
  | sadd | ssub | smul | sshl | sshr | requant =>
    simp [Opcode.instr, Opcode.usesThreeWidths, Width.isSome_ofSel_iff]
  | maxpool | relu =>
    simp [Opcode.instr, Opcode.usesThreeWidths, Width.isSome_ofSel_iff,
      fieldWsel_ne_three_of_row (by decide) hrow]

/-- A word is a legal command exactly when it matches a row and does not hold the reserved `WSEL` there (R94). -/
theorem exists_decode_eq_ok_iff (w : Word) :
    (∃ i, decode w = .ok i) ↔
      ∃ o : Opcode, w &&& o.mask = o.pattern ∧ (o.usesThreeWidths = true → fieldWsel w ≠ 3#2) := by
  calc (∃ i, decode w = .ok i)
      ↔ ∃ (i : Instr) (o : Opcode), w &&& o.mask = o.pattern ∧ o.instr w = some i := by
        simp only [decode_eq_ok_iff]
    _ ↔ ∃ o : Opcode, w &&& o.mask = o.pattern ∧ (o.instr w).isSome = true := by
        simp only [exists_comm (α := Instr), exists_and_left, Option.isSome_iff_exists]
    _ ↔ _ := exists_congr fun _ => and_congr_right isSome_instr_iff_of_row

theorem Opcode.mem_all (o : Opcode) : o ∈ Opcode.all := by cases o <;> decide

/-- Some row has a property exactly when one of the table's sixteen does, in the table's order (R95). -/
theorem Opcode.exists_iff_exists_mem_all {P : Opcode → Prop} : (∃ o, P o) ↔ ∃ o ∈ Opcode.all, P o :=
  exists_congr fun o => (and_iff_right o.mem_all).symm

end Sys2Proof

namespace Sys2Proof.Machine

/-- Issuing a word that does not decode raises `IllegalCommand` and changes nothing else (R94, R252). -/
theorem illegal_of_not_exists_decode {w : Word} (h : ¬ ∃ i, decode w = .ok i) : Spec.Illegal w := by
  intro s
  unfold issue
  split
  · next i hi => exact absurd ⟨i, hi⟩ h
  · rfl

end Sys2Proof.Machine

namespace Sys2Proof.Proofs

open Sys2Proof.Machine

/-- Settles O3: the row that the decoder finds, over the sixteen rows of the table with their masks written out. -/
theorem legalWordIffTableRow : Obligations.LegalWordIffTableRow := by
  refine ⟨fun w => ?_, fun w => illegal_of_not_exists_decode⟩
  rw [exists_decode_eq_ok_iff, Opcode.exists_iff_exists_mem_all]
  simp [Opcode.all, Opcode.mask, Opcode.pattern, Opcode.byte, Opcode.usesThreeWidths]

end Sys2Proof.Proofs

/-! PROOF. R120 to R127: the fixed-point ALU. An operand is `Spec.low` and a command's end is `Spec.wrote`, so each
statement follows from its command's equation and the laws of saturation (R9) and rounding (R10). What is left is the
amounts the model cuts: a value small against `2^m` rounds to 0 from the amount `m` on. -/

namespace Sys2Proof.Machine

open Sys2Proof.Spec

/-! ## Operands and ends of the scalar commands (R120) -/

/-- The model's `W`-bit operand is the specification's, which ignores the bits above in the same way (R7). -/
theorem State.operand_eq_low (s : State) (n : Nat) (i : Reg) : s.operand n i = low n (s.getX i) := by
  rw [State.operand, sext, low, BitVec.ofNat_toNat]

theorem State.finishX_eq_wrote (s : State) (rd : Reg) (v : Int) : s.finishX rd v = wrote s rd v := rfl

/-- A saturated result, in the specification's words. -/
theorem State.finishX_sat (s : State) (rd : Reg) (n : Nat) (v : Int) :
    s.finishX rd (sat n v) = wrote s rd (clip n v) := by
  rw [State.finishX_eq_wrote, sat_eq_clip]

/-! ## What each command of the ALU does: it always completes (R28) -/

theorem exec_sat (rd rs1 : Reg) (imm6 : BitVec 6) (s : State) :
    exec (.sat rd rs1 imm6) s = .next (s.finishX rd (sat (imm6.toNat + 1) (s.getX rs1).toInt)) := rfl

theorem exec_sadd (rd rs1 rs2 : Reg) (w : Width) (s : State) :
    exec (.sadd rd rs1 rs2 w) s =
      .next (s.finishX rd (sat (bitsOf w) (s.operand (bitsOf w) rs1 + s.operand (bitsOf w) rs2))) := rfl

theorem exec_ssub (rd rs1 rs2 : Reg) (w : Width) (s : State) :
    exec (.ssub rd rs1 rs2 w) s =
      .next (s.finishX rd (sat (bitsOf w) (s.operand (bitsOf w) rs1 - s.operand (bitsOf w) rs2))) := rfl

theorem exec_smul (rd rs1 rs2 : Reg) (w : Width) (imm6 : BitVec 6) (s : State) :
    exec (.smul rd rs1 rs2 w imm6) s =
      .next (s.finishX rd (sat (bitsOf w)
        (rndShr s.rnd (s.operand (bitsOf w) rs1 * s.operand (bitsOf w) rs2) imm6.toNat))) := rfl

theorem exec_sshl (rd rs1 rs2 : Reg) (w : Width) (s : State) :
    exec (.sshl rd rs1 rs2 w) s =
      .next (s.finishX rd (satShl (bitsOf w) (s.operand (bitsOf w) rs1) (s.getX rs2).toNat)) := rfl

theorem exec_sshr (rd rs1 rs2 : Reg) (w : Width) (s : State) :
    exec (.sshr rd rs1 rs2 w) s =
      .next (s.finishX rd (sat (bitsOf w)
        (rndShr s.rnd (s.operand (bitsOf w) rs1) (min (s.getX rs2).toNat (bitsOf w))))) := rfl

theorem exec_requant (rd rs1 rs2 rs3 : Reg) (w : Width) (s : State) :
    exec (.requant rd rs1 rs2 rs3 w) s =
      .next (s.finishX rd (sat (bitsOf w)
        (rndShr s.rnd ((s.getX rs1).toInt * s.operand 32 rs2) (min (s.getX rs3).toNat 96)))) := rfl

/-! ## The bounds of a width, as integer powers (R8) -/

theorem minOf_eq (n : Nat) : minOf n = -2 ^ (n - 1) := by rw [minOf, Nat.cast_pow, Nat.cast_two]

theorem maxOf_eq (n : Nat) : maxOf n = 2 ^ (n - 1) - 1 := by rw [maxOf, Nat.cast_pow, Nat.cast_two]

theorem minOf_nonpos (n : Nat) : minOf n ≤ 0 := by
  have hpos : (0 : Int) < 2 ^ (n - 1) := by positivity
  rw [minOf_eq]
  omega

theorem maxOf_nonneg (n : Nat) : 0 ≤ maxOf n := by
  have hpos : (0 : Int) < 2 ^ (n - 1) := by positivity
  rw [maxOf_eq]
  omega

/-! ## The left shift (R125) -/

theorem clip_zero (n : Nat) : clip n 0 = 0 := by
  rw [← sat_eq_clip, sat_eq_self (minOf_nonpos n) (maxOf_nonneg n)]

/-- From the amount `w - 1` on, the power of two alone reaches past the greatest value of the width (R8). -/
theorem two_pow_pred_le {w n : Nat} (h : w ≤ n) : (2 : Int) ^ (w - 1) ≤ 2 ^ n :=
  pow_le_pow_right₀ one_le_two (by omega)

/-- The closed form of the left shift is the clamped product, whatever the amount. -/
theorem satShl_eq_clip (w : Nat) (a : Int) (n : Nat) : satShl w a n = clip w (a * 2 ^ n) := by
  have hpow : (0 : Int) < 2 ^ n := by positivity
  unfold satShl
  split
  next hzero => rw [hzero, zero_mul, clip_zero]
  next hne =>
    split
    next hlt => rw [sat_eq_clip, Nat.cast_pow, Nat.cast_two]
    next hge =>
      have hmax := two_pow_pred_le (not_lt.mp hge)
      split
      next hpos =>
        have hprod : (2 : Int) ^ n ≤ a * 2 ^ n := le_mul_of_one_le_left hpow.le hpos
        rw [clip_of_gt (by omega), maxOf_eq]
      next hnpos =>
        have hneg : a < 0 := lt_of_le_of_ne (not_lt.mp hnpos) hne
        have hprod : a * 2 ^ n ≤ -1 * 2 ^ n := mul_le_mul_of_nonneg_right (by omega) hpow.le
        rw [clip, max_eq_left ((min_le_right _ _).trans (by omega)), minOf_eq]

/-! ## Rounded values: how near they are, and when they are 0 (R10) -/

/-- Under both rules a rounded value is within one half of the quotient. -/
theorem rndShr_near (r : Rounding) (v : Int) (s : Nat) :
    2 * rndShr r v s * 2 ^ s ≤ 2 * v + 2 ^ s ∧ 2 * v ≤ 2 * rndShr r v s * 2 ^ s + 2 ^ s := by
  have h := (roundsTo_iff r v s _).mpr rfl
  cases r with
  | halfUp =>
    obtain ⟨hle, hlt⟩ := h
    constructor <;> linarith
  | halfEven =>
    obtain ⟨⟨hge, hle⟩, -⟩ := (roundsTo_halfEven_iff v s _).mp h
    constructor <;> linarith

/-- Rounding a quotient by a power of two does not leave a range around 0 that holds the dividend. -/
theorem rndShr_mem_range {r : Rounding} {v lo hi : Int} (s : Nat) (hlo : lo ≤ 0) (hhi : 0 ≤ hi) (h1 : lo ≤ v)
    (h2 : v ≤ hi) : lo ≤ rndShr r v s ∧ rndShr r v s ≤ hi := by
  obtain ⟨hup, hdown⟩ := rndShr_near r v s
  have hone : (1 : Int) ≤ 2 ^ s := one_le_pow₀ one_le_two
  constructor <;> by_contra! hout <;> nlinarith

/-- A value of at most one half of `2^m` rounds to 0 from the amount `m` on; one half itself is allowed only below 0,
where half-up too gives 0. -/
theorem rndShr_eq_zero (r : Rounding) {v : Int} {m s : Nat} (h1 : -2 ^ m ≤ 2 * v) (h2 : 2 * v < 2 ^ m)
    (hle : m ≤ s) : rndShr r v s = 0 := by
  have hpow : (2 : Int) ^ m ≤ 2 ^ s := pow_le_pow_right₀ one_le_two hle
  refine ((roundsTo_iff r v s 0).mp ?_).symm
  cases r with
  | halfUp => constructor <;> linarith
  | halfEven => exact (roundsTo_halfEven_iff v s 0).mpr ⟨⟨by linarith, by linarith⟩, fun _ _ => rfl⟩

/-- So an amount can be cut at `m` (R126, R127). -/
theorem rndShr_min (r : Rounding) {v : Int} {m : Nat} (s : Nat) (h1 : -2 ^ m ≤ 2 * v) (h2 : 2 * v < 2 ^ m) :
    rndShr r v (min s m) = rndShr r v s := by
  rcases le_total s m with hle | hle
  · rw [min_eq_left hle]
  · rw [min_eq_right hle, rndShr_eq_zero r h1 h2 le_rfl, rndShr_eq_zero r h1 h2 hle]

/-! ## The right shift (R126) -/

/-- The clamp of the right shift never acts. -/
theorem sat_rndShr_operand (r : Rounding) (s : State) (w : Width) (i : Reg) (n : Nat) :
    sat (bitsOf w) (rndShr r (s.operand (bitsOf w) i) n) = rndShr r (s.operand (bitsOf w) i) n := by
  obtain ⟨hlo, hhi⟩ := s.operand_bounds w i
  obtain ⟨hlo', hhi'⟩ := rndShr_mem_range n (minOf_nonpos _) (maxOf_nonneg _) hlo hhi
  exact sat_eq_self hlo' hhi'

/-- Twice an `n`-bit operand lies from `-2^n` up to but without `2^n`. -/
theorem two_mul_low_bounds (n : Nat) (v : XWord) : -2 ^ n ≤ 2 * low n v ∧ 2 * low n v < 2 ^ n :=
  ⟨BitVec.le_two_mul_toInt, BitVec.two_mul_toInt_lt⟩

/-! ## Requantization (R127) -/

/-- The product of a 64-bit and a 32-bit value, at most `2^94` in magnitude, is small against `2^96`. -/
theorem two_mul_product_bounds (x : XWord) (y : BitVec 32) :
    -2 ^ 96 ≤ 2 * (x.toInt * y.toInt) ∧ 2 * (x.toInt * y.toInt) < 2 ^ 96 := by
  have hx : |2 * x.toInt| ≤ 2 ^ 64 := abs_le.mpr ⟨BitVec.le_two_mul_toInt, BitVec.two_mul_toInt_lt.le⟩
  have hy : |2 * y.toInt| ≤ 2 ^ 32 := abs_le.mpr ⟨BitVec.le_two_mul_toInt, BitVec.two_mul_toInt_lt.le⟩
  have hxy : |2 * x.toInt * (2 * y.toInt)| ≤ 2 ^ 64 * 2 ^ 32 := by
    rw [abs_mul]
    exact mul_le_mul hx hy (abs_nonneg _) (by norm_num)
  obtain ⟨hge, hle⟩ := abs_le.mp hxy
  constructor <;> linarith

end Sys2Proof.Machine

namespace Sys2Proof.Proofs

open Sys2Proof.Machine

/-- Settles O28: the rounded product is the shift's own. -/
theorem smulResult : Obligations.SmulResult := fun rd rs1 rs2 w imm6 s =>
  ⟨_, (roundsTo_iff _ _ _ _).mpr rfl, by
    rw [exec_smul, State.finishX_sat, State.operand_eq_low, State.operand_eq_low]⟩

/-- Settles O29: the model's closed form is the clamped product. -/
theorem sshlResult : Obligations.SshlResult := fun rd rs1 rs2 w s => by
  rw [exec_sshl, State.finishX_eq_wrote, satShl_eq_clip, State.operand_eq_low]

/-- Settles O30: the amount is cut where the result is 0 already, and rounding stays within the range of the width. -/
theorem sshrResult : Obligations.SshrResult := fun rd rs1 rs2 w s => by
  obtain ⟨hge, hlt⟩ := two_mul_low_bounds (bitsOf w) (s.getX rs1)
  have hsat := sat_rndShr_operand s.rnd s w rs1 (s.getX rs2).toNat
  rw [State.operand_eq_low] at hsat
  refine ⟨_, (roundsTo_iff _ _ _ _).mpr rfl, ?_, rndShr_eq_zero _ hge hlt, ?_⟩
  · rw [← sat_eq_clip, hsat]
  · rw [exec_sshr, State.operand_eq_low, rndShr_min _ _ hge hlt, hsat, State.finishX_eq_wrote]

/-- Settles O31: the shift is cut at 96, where the rounded product is 0 already. -/
theorem requantResult : Obligations.RequantResult := fun rd rs1 rs2 rs3 w s => by
  obtain ⟨hge, hlt⟩ := two_mul_product_bounds (s.getX rs1) ((s.getX rs2).setWidth 32)
  refine ⟨_, (roundsTo_iff _ _ _ _).mpr rfl, rndShr_eq_zero _ hge hlt, ?_⟩
  rw [exec_requant, State.finishX_sat, State.operand_eq_low, Spec.low, rndShr_min _ _ hge hlt]

/-- Settles O25: the command's equation, with saturation as the clamp. -/
theorem satResult : Obligations.SatResult := fun rd rs1 imm6 s => by
  rw [exec_sat, State.finishX_sat]

/-- Settles O26: the command's equation on the specification's operands, with saturation as the clamp. -/
theorem saddResult : Obligations.SaddResult := fun rd rs1 rs2 w s => by
  rw [exec_sadd, State.finishX_sat, State.operand_eq_low, State.operand_eq_low]

/-- Settles O27: as for the sum. -/
theorem ssubResult : Obligations.SsubResult := fun rd rs1 rs2 w s => by
  rw [exec_ssub, State.finishX_sat, State.operand_eq_low, State.operand_eq_low]

end Sys2Proof.Proofs

/-! PROOF. R152, R153: `FIRPROC`. Its three loops each store the elements of one buffer in ascending order, so one rule
about such a loop says what each of them leaves; the contract keeps their buffers apart, so that what a loop stored
outlives the later ones. The copy of the history may overlap its source: it stays ahead of what has been written. -/

namespace Sys2Proof.Machine

open Sys2Proof.Spec

/-! ## Buffers and what reading one element asks for -/

/-- A buffer that shares no byte with `n` elements shares none with the first `k` of them. -/
theorem Buffer.Apart.first_elements {c : Buffer} {base b n k : Nat} (h : c.Apart ⟨base, n * b⟩) (hk : k ≤ n) :
    c.Apart ⟨base, k * b⟩ :=
  fun x hc hx => h x hc ⟨hx.1, hx.2.trans_le (Nat.add_le_add_left (Nat.mul_le_mul_right b hk) base)⟩

/-- The memory `t` holds the bytes of `m` outside the buffer. -/
def SameBut (c : Buffer) (m t : Memory) : Prop := ∀ x, ¬ c.Holds x → t.readByte x = m.readByte x

/-- An element of a buffer that shares no byte with the changed one reads as before. -/
theorem SameBut.readS_element {c : Buffer} {m t : Memory} (h : SameBut c m t) {base b n k : Nat}
    (hapart : Buffer.Apart ⟨base, n * b⟩ c) (hk : k < n) : t.readS (base + k * b) b = m.readS (base + k * b) b :=
  Memory.readS_congr fun x h1 h2 => h x (hapart x (element_in hk h1 h2))

/-- Operations that write elsewhere leave an element of the buffer as it was. -/
theorem WritesIn.readS_element {c : Buffer} {g : Memory → Memory} (hg : WritesIn c.Holds g) {base b n k : Nat}
    (hapart : Buffer.Apart ⟨base, n * b⟩ c) (hk : k < n) (m : Memory) :
    (g m).readS (base + k * b) b = m.readS (base + k * b) b :=
  SameBut.readS_element (hg.bytes m) hapart hk

/-- A copied element reads as its source. -/
theorem Memory.readS_write_read (m : Memory) (a c n : Nat) : (m.write a n (m.read c n)).readS a n = m.readS c n := by
  rw [readS, read_write_same, Nat.mod_eq_of_lt (m.read_lt c n), readS]

/-- A saturated value is read back as it was stored. -/
theorem Memory.readS_writeS_sat (m : Memory) (a : Nat) {n : Nat} (hn : 0 < n) (v : Int) :
    (m.writeS a n (sat (8 * n) v)).readS a n = sat (8 * n) v := by
  obtain ⟨hge, hle⟩ := sat_bounds (8 * n) v
  rw [readS_writeS_same, toInt_ofInt_of_range (by omega) hge hle]

/-! ## A loop that stores the elements of one buffer -/

section
variable {f : Nat → Memory → Memory} {base b n : Nat}

/-- A loop whose pass `k` writes element `k` writes the buffer of all elements. -/
theorem WritesIn.elements (hf : ∀ k, k < n → WritesIn (⟨base + k * b, b⟩ : Buffer).Holds (f k)) :
    WritesIn (⟨base, n * b⟩ : Buffer).Holds (fun m => forUp n f m) :=
  WritesIn.loop fun k hk => (hf k hk).mono fun _ hx => element_in hk hx.1 hx.2

/-- What a loop leaves in element `k` when pass `k` writes that element only: what the pass stores there in a memory in
which only the elements before it may have changed. -/
theorem readS_forUp_element (hf : ∀ k, k < n → WritesIn (⟨base + k * b, b⟩ : Buffer).Holds (f k)) {m : Memory}
    {w : Nat → Int}
    (hw : ∀ k, k < n → ∀ t, SameBut ⟨base, k * b⟩ m t → (f k t).readS (base + k * b) b = w k)
    {k : Nat} (hk : k < n) : (forUp n f m).readS (base + k * b) b = w k := by
  induction n with
  | zero => omega
  | succ n ih =>
    have hf' : ∀ k, k < n → WritesIn (⟨base + k * b, b⟩ : Buffer).Holds (f k) := fun k hk => hf k (by omega)
    rw [forUp_succ]
    obtain hlt | rfl := Nat.lt_succ_iff_lt_or_eq.mp hk
    · have hapart : Buffer.Apart ⟨base, n * b⟩ ⟨base + n * b, b⟩ := fun x hx hx' => absurd hx.2 (not_lt.mpr hx'.1)
      rw [(hf n (by omega)).readS_element hapart hlt]
      exact ih hf' (fun k hk => hw k (by omega)) hlt
    · exact hw k hk _ ((WritesIn.elements hf').bytes m)

end

/-! ## The two parts of the state buffer (R36) -/

/-- The head of the state buffer: the history of `N - 1` samples. -/
def FirRecord.headBuffer (f : FirRecord) : Buffer := ⟨f.state, (f.taps - 1) * f.bytes⟩

/-- The tail of the state buffer: the `L` samples of the block. -/
def FirRecord.tailBuffer (f : FirRecord) : Buffer := ⟨f.state + (f.taps - 1) * f.bytes, f.block * f.bytes⟩

/-- Sample `k` of the tail is sample `N - 1 + k` of the state buffer. -/
theorem FirRecord.tail_at (f : FirRecord) (k : Nat) :
    f.state + (f.taps - 1 + k) * f.bytes = f.state + (f.taps - 1) * f.bytes + k * f.bytes := by
  rw [Nat.add_mul, Nat.add_assoc]

/-- The head is the first `N - 1` samples of the state buffer. -/
theorem FirRecord.headBuffer_apart {f : FirRecord} {b : Buffer} (h : f.stateBuffer.Apart b) : f.headBuffer.Apart b :=
  (h.symm.first_elements (Nat.le_add_right _ _)).symm

/-- The tail is within the state buffer. -/
theorem FirRecord.tailBuffer_apart {f : FirRecord} {b : Buffer} (h : f.stateBuffer.Apart b) : f.tailBuffer.Apart b := by
  rintro x ⟨hge, hlt⟩
  have hsize := Nat.add_mul (f.taps - 1) f.block f.bytes
  simp only [tailBuffer] at hge hlt
  exact h x ⟨by simp only [stateBuffer]; omega, by simp only [stateBuffer]; omega⟩

theorem FirRecord.headBuffer_apart_tailBuffer (f : FirRecord) : f.headBuffer.Apart f.tailBuffer :=
  fun _ hhead htail => absurd hhead.2 (not_lt.mpr htail.1)

theorem FirRecord.bytes_pos (f : FirRecord) : 0 < f.bytes := Nat.two_pow_pos _

/-! ## What each step of `FIRPROC` leaves (R152) -/

section
variable {f : FirRecord} {inp out : Nat} {m : Memory}

theorem firSample_head {k : Nat} (hk : k < f.taps - 1) :
    firSample m f inp k = m.readS (f.state + k * f.bytes) f.bytes := if_pos hk

theorem firSample_tail (k : Nat) :
    firSample m f inp (f.taps - 1 + k) = m.readS (inp + k * f.bytes) f.bytes := by
  rw [firSample, if_neg (by omega), Nat.add_sub_cancel_left]

theorem firAppend_pass_writes (k : Nat) :
    WritesIn (⟨f.state + (f.taps - 1) * f.bytes + k * f.bytes, f.bytes⟩ : Buffer).Holds
      (fun m => m.write (f.state + (f.taps - 1 + k) * f.bytes) f.bytes (m.read (inp + k * f.bytes) f.bytes)) := by
  rw [f.tail_at]
  exact WritesIn.write _ fun _ h1 h2 => ⟨h1, h2⟩

theorem firAppend_writes (f : FirRecord) (inp : Nat) : WritesIn f.tailBuffer.Holds (firAppend f inp) :=
  WritesIn.elements fun k _ => firAppend_pass_writes k

/-- After step 1 the state buffer holds the samples to filter: the history, then the block. -/
theorem readS_firAppend (hapart : f.stateBuffer.Apart (f.inBuffer inp)) {k : Nat} (hk : k < f.taps - 1 + f.block) :
    (firAppend f inp m).readS (f.state + k * f.bytes) f.bytes = firSample m f inp k := by
  obtain hhead | ⟨j, rfl⟩ := lt_or_ge k (f.taps - 1) |>.imp_right Nat.exists_eq_add_of_le
  · rw [firSample_head hhead]
    exact (firAppend_writes f inp).readS_element f.headBuffer_apart_tailBuffer hhead m
  · rw [f.tail_at, firSample_tail]
    refine readS_forUp_element (w := fun j => m.readS (inp + j * f.bytes) f.bytes)
      (fun k _ => firAppend_pass_writes k) (fun j hj t ht => ?_) (by omega)
    rw [f.tail_at, Memory.readS_write_read]
    exact ht.readS_element ((FirRecord.tailBuffer_apart hapart).symm.first_elements hj.le) hj

/-- One output's accumulation is that of R153 where the memory holds the coefficients and the samples to filter. -/
theorem firDot_eq_firAcc {t : Memory} {i : Nat}
    (hcoef : ∀ j, j < f.taps → t.readS (f.coef + j * f.bytes) f.bytes = m.readS (f.coef + j * f.bytes) f.bytes)
    (hwin : ∀ j, j < f.taps →
      t.readS (f.state + (i * f.decim + j) * f.bytes) f.bytes = firSample m f inp (i * f.decim + j)) :
    firDot t f.coef (f.state + i * f.decim * f.bytes) f.taps f.bytes = firAcc m f inp i := by
  rw [firAcc, ← forUp_eq_foldl (f := fun j acc => clip 64 (acc + m.readS (f.coef + j * f.bytes) f.bytes *
    firSample m f inp (i * f.decim + j)))]
  refine forUp_congr _ _ fun j hj acc => ?_
  rw [sat_eq_clip, Nat.add_assoc f.state, ← Nat.add_mul, hcoef j hj, hwin j hj]

theorem firOutputs_pass_writes (r : Rounding) (k : Nat) :
    WritesIn (⟨out + k * f.bytes, f.bytes⟩ : Buffer).Holds
      (fun m => m.writeS (out + k * f.bytes) f.bytes (sat f.bits (rndShr r
        (firDot m f.coef (f.state + k * f.decim * f.bytes) f.taps f.bytes) f.frac))) :=
  WritesIn.writeS _ fun _ h1 h2 => ⟨h1, h2⟩

theorem firOutputs_writes (r : Rounding) (f : FirRecord) (out : Nat) :
    WritesIn (f.outBuffer out).Holds (firOutputs r f out) :=
  WritesIn.elements fun k _ => firOutputs_pass_writes r k

/-- The window of an output lies within the state buffer. -/
theorem window_lt {i j : Nat} (hi : i < f.block / f.decim) (hj : j < f.taps) :
    i * f.decim + j < f.taps - 1 + f.block := by
  have hdecim : 0 < f.decim := Nat.pos_of_ne_zero fun h0 => by simp [h0] at hi
  have hnext : i * f.decim + f.decim ≤ f.block :=
    calc i * f.decim + f.decim = (i + 1) * f.decim := (Nat.succ_mul i f.decim).symm
      _ ≤ f.block := (Nat.mul_le_mul_right f.decim hi).trans (Nat.div_mul_le_self f.block f.decim)
  omega

/-- What step 2 stores, over a memory `t` whose state buffer holds the samples to filter. -/
theorem readS_firOutputs (r : Rounding) {t : Memory} (hcoefOut : f.coefBuffer.Apart (f.outBuffer out))
    (hstateOut : f.stateBuffer.Apart (f.outBuffer out))
    (hcoef : ∀ j, j < f.taps → t.readS (f.coef + j * f.bytes) f.bytes = m.readS (f.coef + j * f.bytes) f.bytes)
    (hsample : ∀ k, k < f.taps - 1 + f.block →
      t.readS (f.state + k * f.bytes) f.bytes = firSample m f inp k)
    {i : Nat} (hi : i < f.block / f.decim) :
    (firOutputs r f out t).readS (out + i * f.bytes) f.bytes =
      clip (8 * f.bytes) (rndShr r (firAcc m f inp i) f.frac) := by
  refine readS_forUp_element (w := fun i => clip (8 * f.bytes) (rndShr r (firAcc m f inp i) f.frac))
    (fun k _ => firOutputs_pass_writes r k) (fun i hi u hu => ?_) hi
  rw [FirRecord.bits, Memory.readS_writeS_sat _ _ f.bytes_pos, sat_eq_clip, firDot_eq_firAcc (m := m) (inp := inp)]
  · intro j hj
    rw [← hcoef j hj]
    exact hu.readS_element (hcoefOut.first_elements hi.le) hj
  · intro j hj
    rw [← hsample _ (window_lt hi hj)]
    exact hu.readS_element (hstateOut.first_elements hi.le) (window_lt hi hj)

theorem firHistory_pass_writes (k : Nat) :
    WritesIn (⟨f.state + k * f.bytes, f.bytes⟩ : Buffer).Holds
      (fun m => m.write (f.state + k * f.bytes) f.bytes (m.read (f.state + (f.block + k) * f.bytes) f.bytes)) :=
  WritesIn.write _ fun _ h1 h2 => ⟨h1, h2⟩

theorem firHistory_writes (f : FirRecord) : WritesIn f.headBuffer.Holds (firHistory f) :=
  WritesIn.elements fun k _ => firHistory_pass_writes k

/-- What step 3 leaves in the head; sample `L + k` is not before the sample `k` that pass `k` is at. -/
theorem readS_firHistory {k : Nat} (hk : k < f.taps - 1) :
    (firHistory f m).readS (f.state + k * f.bytes) f.bytes = m.readS (f.state + (f.block + k) * f.bytes) f.bytes := by
  refine readS_forUp_element (w := fun k => m.readS (f.state + (f.block + k) * f.bytes) f.bytes)
    (fun k _ => firHistory_pass_writes k) (fun k _ t ht => ?_) hk
  rw [Memory.readS_write_read]
  have hahead : k * f.bytes ≤ (f.block + k) * f.bytes := Nat.mul_le_mul_right _ (by omega)
  exact Memory.readS_congr fun x h1 _ => ht x fun hdone => absurd hdone.2 (by simp only; omega)

end

/-! ## The memory after `FIRPROC`, under its contract -/

/-- Storing `PHASE` writes the record only (R37). -/
theorem phase_writes (d v : Nat) : WritesIn (⟨d, 32⟩ : Buffer).Holds (fun m => m.write (d + 0x18) 4 v) :=
  WritesIn.write _ fun x h1 h2 => ⟨by simp only; omega, by simp only; omega⟩

namespace FirprocContract

variable {s : State} {d inp out : Nat} {f : FirRecord} (hc : FirprocContract s d inp out) (hf : firRecord s.mem d = f)
include hc hf

/-- After the first two steps the state buffer holds the samples to filter. -/
theorem readS_window (r : Rounding) {k : Nat} (hk : k < f.taps - 1 + f.block) :
    (firOutputs r f out (firAppend f inp s.mem)).readS (f.state + k * f.bytes) f.bytes = firSample s.mem f inp k := by
  subst hf
  rw [← readS_firAppend hc.stateInput hk]
  exact (firOutputs_writes r _ out).readS_element hc.stateOutput hk _

/-- The outputs outlive the copy of the history and the store of `PHASE`. -/
theorem readS_output (r : Rounding) {i : Nat} (hi : i < f.block / f.decim) :
    (firprocMem r f d inp out s.mem).readS (out + i * f.bytes) f.bytes =
      clip (8 * f.bytes) (rndShr r (firAcc s.mem f inp i) f.frac) := by
  subst hf
  have hcoefTail := (FirRecord.tailBuffer_apart hc.coefState.symm).symm
  have houtHead := (FirRecord.headBuffer_apart hc.stateOutput).symm
  calc _ = _ := (phase_writes d 1).readS_element hc.recordOutput.symm hi _
    _ = _ := (firHistory_writes _).readS_element houtHead hi _
    _ = _ := readS_firOutputs r hc.coefOutput hc.stateOutput
      (fun _ hj => (firAppend_writes _ inp).readS_element hcoefTail hj s.mem)
      (fun _ hk => readS_firAppend hc.stateInput hk) hi

/-- The head ends as the history for the next call: the last `N - 1` samples. -/
theorem readS_head (r : Rounding) {k : Nat} (hk : k < f.taps - 1) :
    (firprocMem r f d inp out s.mem).readS (f.state + k * f.bytes) f.bytes = firSample s.mem f inp (f.block + k) := by
  have hrecord := (hf ▸ hc.recordState).symm
  calc _ = _ := (phase_writes d 1).readS_element hrecord (Nat.lt_add_right _ hk) _
    _ = _ := readS_firHistory hk
    _ = _ := hc.readS_window hf r (by omega)

/-- The tail ends as the input block. -/
theorem readS_tail (r : Rounding) {k : Nat} (hk : k < f.block) :
    (firprocMem r f d inp out s.mem).readS (f.state + (f.taps - 1 + k) * f.bytes) f.bytes =
      s.mem.readS (inp + k * f.bytes) f.bytes := by
  have hrecord := FirRecord.tailBuffer_apart (hf ▸ hc.recordState).symm
  have hwindow := hc.readS_window hf r (Nat.add_lt_add_left hk (f.taps - 1))
  rw [firSample_tail] at hwindow
  rw [← hwindow, f.tail_at]
  calc _ = _ := (phase_writes d 1).readS_element hrecord hk _
    _ = _ := (firHistory_writes f).readS_element f.headBuffer_apart_tailBuffer.symm hk _

end FirprocContract

/-- Bytes outside the state buffer, the output block and the word `PHASE` are as before. -/
theorem sameOutside_firprocMem (r : Rounding) (f : FirRecord) (d inp out : Nat) (s : State) :
    SameOutside s (s.finishMem (firprocMem r f d inp out s.mem)) [f.stateBuffer, f.outBuffer out, ⟨d + 0x18, 4⟩] := by
  intro x hx
  simp only [List.mem_cons, List.not_mem_nil, or_false, forall_eq_or_imp, forall_eq] at hx
  obtain ⟨hstate, hout, hphase⟩ := hx
  exact (firprocMem_writes r f d inp out).bytes s.mem x (not_or.mpr ⟨hstate, not_or.mpr ⟨hout, hphase⟩⟩)

end Sys2Proof.Machine

namespace Sys2Proof.Proofs

open Sys2Proof.Machine

/-- Settles O42: a clause for each buffer of the command, from the contract's lemmas above; the frame from what the
command's steps can write. The record and the operands are made opaque, so that no clause unfolds the read of them. -/
theorem firprocCompletes : Obligations.FirprocCompletes := by
  intro rs1 rs2 rs3 s d inp out f hc
  have hf : firRecord s.mem d = f := rfl
  have hexec : exec (.firproc rs1 rs2 rs3) s = .next (s.finishMem (firprocMem s.rnd f d inp out s.mem)) :=
    execFirproc_eq_next.mpr ⟨hc, rfl⟩
  clear_value f d inp out
  refine ⟨_, hexec, rfl, fun i hi => ?outputs, fun k hk => ?head, fun k hk => ?tail, ?phase, ?frame⟩
  case outputs => exact ⟨_, (roundsTo_iff _ _ _ _).mpr rfl, hc.readS_output hf s.rnd hi⟩
  case head => exact hc.readS_head hf s.rnd hk
  case tail => exact hc.readS_tail hf s.rnd hk
  case phase => exact Memory.read_write_same _ _ _ _
  case frame => exact sameOutside_firprocMem s.rnd f d inp out s

end Sys2Proof.Proofs

/-! PROOF. R184: the ratio helper. The quotient of a proper fraction is at most `2^15`, so its bit length is 15 or less,
with nothing to shift, or it is `2^15` itself, the one value that is shifted and that saturates when re-aligned. -/

namespace Sys2Proof.Machine

/-! ## The bit length -/

/-- `bitlen` is the least number of bits that holds the value (R184). -/
theorem bitlen_le_iff (q k : Nat) : bitlen q ≤ k ↔ q < 2 ^ k := by
  unfold bitlen
  split
  next hzero => simp [hzero]
  next hne => rw [Nat.succ_le_iff, Nat.log2_lt hne]

/-! ## The quotient and the shift -/

theorem quotient_le_two_pow {num den : Nat} (h : num ≤ den) : num * 2 ^ 15 / den ≤ 2 ^ 15 :=
  Nat.div_le_of_le_mul (Nat.mul_le_mul_right _ h)

/-- A quotient of 15 bits is not shifted. -/
theorem divNorm_of_lt {num den : Nat} (h : num * 2 ^ 15 / den < 2 ^ 15) :
    divNorm num den = (num * 2 ^ 15 / den, 0) := by
  have hshift : bitlen (num * 2 ^ 15 / den) - 15 = 0 := Nat.sub_eq_zero_of_le ((bitlen_le_iff _ _).mpr h)
  simp only [divNorm, hshift, pow_zero, Nat.div_one]

/-- The quotient `2^15` has 16 bits and is shifted by one. -/
theorem divNorm_of_eq {num den : Nat} (h : num * 2 ^ 15 / den = 2 ^ 15) : divNorm num den = (2 ^ 14, 1) := by
  have hshift : bitlen (2 ^ 15) - 15 = 1 := by decide
  simp only [divNorm, h, hshift]
  rfl

/-! ## The re-aligned ratio -/

/-- A natural number saturates at the top only (R9). -/
theorem sat16_natCast (q : Nat) : sat 16 (q : Int) = ((min 32767 q : Nat) : Int) := by
  have hmin : minOf 16 = -32768 := rfl
  have hmax : maxOf 16 = 32767 := rfl
  rw [sat_eq_clamp, hmin, hmax]
  omega

/-- Re-aligning undoes the shift: no bit of the quotient was lost. -/
theorem atanRatio_eq_min {num den : Nat} (h : num ≤ den) :
    atanRatio num den = ((min 32767 (num * 2 ^ 15 / den) : Nat) : Int) := by
  rw [atanRatio, sat16_natCast]
  obtain hlt | heq := (quotient_le_two_pow h).lt_or_eq
  · rw [divNorm_of_lt hlt, pow_zero, mul_one]
  · rw [divNorm_of_eq heq, heq]
    rfl

end Sys2Proof.Machine

namespace Sys2Proof.Proofs

open Sys2Proof.Machine

/-- Settles O36: by whether the quotient has 15 bits or is `2^15`. -/
theorem divNormNetEffect : Obligations.DivNormNetEffect := by
  intro num den hle _ _
  have hratio := atanRatio_eq_min hle
  obtain hlt | heq := (quotient_le_two_pow hle).lt_or_eq
  · rw [divNorm_of_lt hlt]
    exact ⟨Nat.le_of_lt_succ hlt, zero_le_one, (Nat.div_one _).symm,
      iff_of_false hlt.not_ge zero_ne_one, hratio⟩
  · rw [divNorm_of_eq heq]
    refine ⟨by decide, le_rfl, ?_, iff_of_true heq.ge rfl, hratio⟩
    exact (congrArg (· / 2 ^ 1) heq).symm

end Sys2Proof.Proofs

/-! PROOF. R180, R182, R183: `ATAN2` at the origin and on the axes, for every coefficient table. The angle has one
equation for each of these cases; the ones for the `y` axis and the negative `x` axis do not read the table. -/

namespace Sys2Proof.Machine

open Sys2Proof.Spec

/-! ## What `ATAN2` does with the angle, or without one (R180) -/

section

variable (rd : Reg) {rs1 rs2 : Reg} {s : State} {y x : Int}

theorem exec_atan2_of_angle {a : Int} (hy : low 16 (s.getX rs1) = y) (hx : low 16 (s.getX rs2) = x)
    (h : atan2Angle s.rnd s.atanCoef y x = some a) : exec (.atan2 rd rs1 rs2) s = .next (wrote s rd a) := by
  rw [← hy, ← hx, ← State.operand_eq_low, ← State.operand_eq_low] at h
  exact execAtan2_eq_next.mpr (.inr ⟨a, h, s.finishX_eq_wrote rd a⟩)

theorem exec_atan2_of_no_angle (hy : low 16 (s.getX rs1) = y) (hx : low 16 (s.getX rs2) = x)
    (h : atan2Angle s.rnd s.atanCoef y x = none) :
    exec (.atan2 rd rs1 rs2) s = .next { s with status := .naNInf } := by
  rw [← hy, ← hx, ← State.operand_eq_low, ← State.operand_eq_low] at h
  exact execAtan2_eq_next.mpr (.inl ⟨h, rfl⟩)

end

/-! ## The angle at the origin and on the axes (R182, R183) -/

section

variable (r : Rounding) (c : Vector (BitVec 16) 10)

theorem atan2Angle_origin : atan2Angle r c 0 0 = none := rfl

theorem atan2Angle_up {y : Int} (h : 0 < y) : atan2Angle r c y 0 = some 12868 := by
  simp [atan2Angle, piHalfQ13, h, h.ne']

theorem atan2Angle_down {y : Int} (h : y < 0) : atan2Angle r c y 0 = some (-12868) := by
  simp [atan2Angle, piHalfQ13, h.ne, h.not_gt]

theorem atan2Angle_left {x : Int} (h : x < 0) : atan2Angle r c 0 x = some 25736 := by
  simp [atan2Angle, piQ13, h, h.ne]

/-- On the positive `x` axis there is no swap, and the ratio of the magnitudes is 0. -/
theorem atanOctant_zero {x : Int} (h : 0 < x) : atanOctant r c 0 x = atanPoly r c 0 := by
  have hratio : atanRatio 0 x.toNat = 0 := by simp [atanRatio_eq_min (Nat.zero_le _)]
  rw [atanOctant, if_neg h.not_gt, Int.toNat_zero, hratio]

/-- With both operands non-negative there is no reduction to undo. -/
theorem atanUnreduce_of_nonneg {y x : Int} (hy : 0 ≤ y) (hx : 0 ≤ x) (a : Int) : atanUnreduce y x a = a := by
  simp [atanUnreduce, hy.not_gt, hx.not_gt]

theorem atanAbs_of_nonneg {v : Int} (h : 0 ≤ v) : atanAbs v = v := if_neg h.not_gt

/-- The positive `x` axis takes the general path. -/
theorem atan2Angle_right {x : Int} (h : 0 < x) : atan2Angle r c 0 x = some (atanPoly r c 0) := by
  have hgeneral : atan2Angle r c 0 x = some (atanUnreduce 0 x (atanOctant r c (atanAbs 0) (atanAbs x))) := by
    simp [atan2Angle, h.ne', h.not_gt]
  rw [hgeneral, atanAbs_of_nonneg le_rfl, atanAbs_of_nonneg h.le, atanOctant_zero r c h,
    atanUnreduce_of_nonneg le_rfl h.le]

end

end Sys2Proof.Machine

namespace Sys2Proof.Proofs

open Sys2Proof.Machine

/-- Settles O32: at the origin there is no angle. -/
theorem atan2OriginRaisesNaNInf : Obligations.Atan2OriginRaisesNaNInf := fun rd _ _ s hy hx =>
  exec_atan2_of_no_angle rd hy hx (atan2Angle_origin s.rnd s.atanCoef)

/-- Settles O33: the angle of each half-axis. -/
theorem atan2Axes : Obligations.Atan2Axes := by
  intro rd rs1 rs2 s y x
  refine ⟨fun hx hy => ?up, fun hx hy => ?down, fun hx hy => ?left, fun hx hy => ?right⟩
  case up => exact exec_atan2_of_angle rd rfl hx (atan2Angle_up _ _ hy)
  case down => exact exec_atan2_of_angle rd rfl hx (atan2Angle_down _ _ hy)
  case left => exact exec_atan2_of_angle rd hy rfl (atan2Angle_left _ _ hx)
  case right => exact exec_atan2_of_angle rd hy rfl (atan2Angle_right _ _ hx)

end Sys2Proof.Proofs

/-! PROOF. R206, R213, R219 to R225: the checks of `DWCONV` and `MAXPOOL`, and the element-by-element kernels `RELU`,
`UNPACK4` and `PACK4`. Each kernel is a loop whose pass `k` stores element `k` of one buffer, computed from elements
that the passes before it have left alone: the element itself for `RELU`, a buffer apart from it for the other two. -/

namespace Sys2Proof

/-- The widths that `MAXPOOL` and `RELU` have (R94). -/
theorem Width.narrow_of_ne_w32 {w : Width} (h : w ≠ .w32) : w.narrow = true := by
  cases w with
  | w8 => rfl
  | w16 => rfl
  | w32 => exact absurd rfl h

end Sys2Proof

namespace Sys2Proof.Machine

open Sys2Proof.Spec

theorem bytesOf_pos (w : Width) : 0 < bytesOf w := by cases w <;> decide

/-! ## What is read back, and what a memory changed in one buffer only reads as -/

theorem Memory.readS_bounds (m : Memory) (a : Nat) {n : Nat} (hn : 0 < n) :
    minOf (8 * n) ≤ m.readS a n ∧ m.readS a n ≤ maxOf (8 * n) :=
  sext_bounds (by omega) _

/-- A value of `n` bytes is read back as it was stored. -/
theorem Memory.readS_writeS_of_range (m : Memory) (a : Nat) {n : Nat} (hn : 0 < n) {v : Int}
    (hge : minOf (8 * n) ≤ v) (hle : v ≤ maxOf (8 * n)) : (m.writeS a n v).readS a n = v := by
  rw [readS_writeS_same, toInt_ofInt_of_range (by omega) hge hle]

/-- One byte read as a signed value. -/
theorem Memory.readS_one (m : Memory) (a : Nat) : m.readS a 1 = (m.readByte a).toInt := by
  simp [readS, read, sext]

theorem SameBut.mono {c c' : Buffer} {m t : Memory} (h : SameBut c m t) (hin : ∀ x, c.Holds x → c'.Holds x) :
    SameBut c' m t := fun x hx => h x fun hc => hx (hin x hc)

/-- A read of bytes in a buffer apart from the changed one. -/
theorem SameBut.read_apart {c b : Buffer} {m t : Memory} (h : SameBut c m t) (hapart : b.Apart c) {a n : Nat}
    (hin : ∀ x, a ≤ x → x < a + n → b.Holds x) : t.read a n = m.read a n :=
  Memory.read_congr fun x h1 h2 => h x (hapart x (hin x h1 h2))

theorem SameBut.readS_apart {c b : Buffer} {m t : Memory} (h : SameBut c m t) (hapart : b.Apart c) {a n : Nat}
    (hin : ∀ x, a ≤ x → x < a + n → b.Holds x) : t.readS a n = m.readS a n := by
  rw [Memory.readS, h.read_apart hapart hin, Memory.readS]

/-- An element that follows the changed ones reads as before. -/
theorem SameBut.readS_next {m t : Memory} {base k b : Nat} (h : SameBut ⟨base, k * b⟩ m t) :
    t.readS (base + k * b) b = m.readS (base + k * b) b :=
  Memory.readS_congr fun x h1 _ => h x fun hx => absurd hx.2 (not_lt.mpr h1)

/-- A block command that writes one buffer only leaves the bytes outside it (R265). -/
theorem WritesIn.sameOutside {b : Buffer} {g : Memory → Memory} (hg : WritesIn b.Holds g) (s : State) :
    SameOutside s (s.finishMem (g s.mem)) [b] :=
  fun x hx => hg.bytes s.mem x (hx b List.mem_cons_self)

/-! ## `RELU` (R219, R220) -/

theorem reluMem_pass_writes (p e k : Nat) :
    WritesIn (⟨p + k * e, e⟩ : Buffer).Holds (fun m => m.writeS (p + k * e) e (max 0 (m.readS (p + k * e) e))) :=
  WritesIn.writeS _ fun _ h1 h2 => ⟨h1, h2⟩

/-- Each pass finds its element as it was before the command. -/
theorem readS_reluMem (p : Nat) {e : Nat} (he : 0 < e) {n i : Nat} (hi : i < n) (m : Memory) :
    (reluMem p e n m).readS (p + i * e) e = max 0 (m.readS (p + i * e) e) := by
  refine readS_forUp_element (w := fun k => max 0 (m.readS (p + k * e) e))
    (fun k _ => reluMem_pass_writes p e k) (fun k _ t ht => ?_) hi
  obtain ⟨hge, hle⟩ := m.readS_bounds (p + k * e) he
  rw [ht.readS_next, Memory.readS_writeS_of_range _ _ he (le_max_of_le_right hge) (max_le (maxOf_nonneg _) hle)]

/-- Byte `k` of what `n` bytes read as. -/
theorem Memory.byte_of_read (m : Memory) (a : Nat) {n k : Nat} (hk : k < n) :
    BitVec.ofNat 8 (m.read a n / 256 ^ k) = m.readByte (a + k) := by
  induction n generalizing a k with
  | zero => omega
  | succ n ih =>
    have hbyte := (m.readByte a).isLt
    rw [read]
    cases k with
    | zero => exact BitVec.eq_of_toNat_eq (by simp; omega)
    | succ k =>
      have hnext : ((m.readByte a).toNat + 256 * m.read (a + 1) n) / 256 = m.read (a + 1) n := by omega
      rw [Nat.pow_succ', ← Nat.div_div_eq_div_mul, hnext, ih (a + 1) (Nat.lt_of_succ_lt_succ hk), Nat.add_right_comm,
        Nat.add_assoc]

/-- The two's complement of what `n` bytes read as is the bytes' own number. -/
theorem Memory.toNat_ofInt_readS (m : Memory) (a n : Nat) :
    (BitVec.ofInt (8 * n) (m.readS a n)).toNat = m.read a n := by
  have hlt : m.read a n < 2 ^ (8 * n) := (m.read_lt a n).trans_eq (Nat.pow_mul 2 8 n).symm
  rw [readS, sext, BitVec.ofInt_toInt, BitVec.toNat_ofNat, Nat.mod_eq_of_lt hlt]

/-- Storing what a read gave changes no byte. -/
theorem Memory.readByte_writeS_readS (m : Memory) (a n x : Nat) :
    (m.writeS a n (m.readS a n)).readByte x = m.readByte x := by
  rw [writeS, toNat_ofInt_readS, readByte_write]
  split
  next hx => rw [byte_of_read m a (by omega), Nat.add_sub_cancel' hx.1]
  next => rfl

/-- Where no element is negative, `RELU` stores every element as it is. -/
theorem readByte_reluMem_of_nonneg {p e n : Nat} {m : Memory} (h : ∀ i, i < n → 0 ≤ m.readS (p + i * e) e)
    (x : Nat) : (reluMem p e n m).readByte x = m.readByte x := by
  refine forUp_keeps (P := fun t : Memory => ∀ x, t.readByte x = m.readByte x) n (fun _ => rfl) (fun k hk t ht x => ?_) x
  have hread : t.readS (p + k * e) e = m.readS (p + k * e) e := Memory.readS_congr fun x _ _ => ht x
  rw [max_eq_right (hread ▸ h k hk), Memory.readByte_writeS_readS, ht]

end Sys2Proof.Machine

namespace Sys2Proof.Proofs

open Sys2Proof.Machine

/-- Settles O46: the three ends of `DWCONV`, each with its own code. -/
theorem dwconvChecks : Obligations.DwconvChecks := by
  intro rs1 s
  refine ⟨fun hvec => ?_, fun hvec hdesc hbatch => ?_, fun t ht => ?_⟩
  · exact execDwconv_eq_next.mpr (.inl ⟨hvec, rfl⟩)
  · exact execDwconv_eq_next.mpr (.inr (.inl ⟨hvec, hdesc, hbatch, rfl⟩))
  · obtain ⟨hvec, rfl⟩ | ⟨hvec, -, hbatch, rfl⟩ | ⟨hvec, hc, rfl⟩ := execDwconv_eq_next.mp ht
    · simp [hvec]
    · exact ⟨by simp [hvec], iff_of_true rfl ⟨hvec, hbatch⟩⟩
    · exact ⟨by simp [hvec], iff_of_false (by simp) fun h => absurd h.2 (not_le.mpr hc.batch)⟩

/-- Settles O49: `MAXPOOL` at a narrow width ends by the check or by its contract. -/
theorem maxpoolBatchCheck : Obligations.MaxpoolBatchCheck := by
  intro rs1 w s hw
  have hnarrow := Width.narrow_of_ne_w32 hw
  refine ⟨fun hdesc hbatch => ?_, fun t ht => ?_⟩
  · exact execMaxpool_eq_next.mpr (.inr (.inl ⟨hnarrow, hdesc, hbatch, rfl⟩))
  · obtain ⟨hwide, -⟩ | ⟨-, -, hbatch, rfl⟩ | ⟨-, hc, rfl⟩ := execMaxpool_eq_next.mp ht
    · simp [hnarrow] at hwide
    · exact iff_of_true rfl hbatch
    · exact iff_of_false (by simp) (not_le.mpr hc.batch)

/-- Settles O52: one element per pass. -/
theorem reluCompletes : Obligations.ReluCompletes := by
  intro rs1 rs2 w s p n e hw hc
  exact ⟨_, execRelu_eq_next.mpr (.inr ⟨Width.narrow_of_ne_w32 hw, hc, rfl⟩), rfl,
    (reluMem_writes p e n).sameOutside s, fun i hi => readS_reluMem p (bytesOf_pos w) hi s.mem⟩

/-- Settles O53: after the first `RELU` no element is negative. -/
theorem reluIdempotent : Obligations.ReluIdempotent := by
  intro rs1 rs2 w s t ht
  obtain ⟨hwide, rfl⟩ | ⟨hnarrow, hc, rfl⟩ := execRelu_eq_next.mp ht
  · exact ⟨_, execRelu_eq_next.mpr (.inl ⟨hwide, rfl⟩), rfl, fun _ => rfl⟩
  · refine ⟨_, execRelu_eq_next.mpr (.inr ⟨hnarrow, hc, rfl⟩), rfl, readByte_reluMem_of_nonneg fun i hi => ?_⟩
    exact (le_max_left _ _).trans_eq (readS_reluMem _ (bytesOf_pos w) hi s.mem).symm

end Sys2Proof.Proofs

/-! PROOF. R223 to R225: `UNPACK4`, `PACK4` and their round trips. Both loops store one byte per pass, so what they leave
is said of one byte; a byte is its two nibbles, and each nibble of a packed byte is a saturated value. -/

namespace Sys2Proof.Machine

open Sys2Proof.Spec

/-! ## Bytes and their nibbles (R39, R202) -/

/-- Nibble `i` of a stream that holds the byte: bits 3:0 for an even number, 7:4 for an odd one (R39). -/
def nibbleBits (b : Byte) (i : Nat) : BitVec 4 := b.extractLsb' (if i % 2 = 0 then 0 else 4) 4

theorem nibbleBits_even (b : Byte) (j : Nat) : nibbleBits b (2 * j) = b.extractLsb' 0 4 := by
  rw [nibbleBits, if_pos (Nat.mul_mod_right 2 j)]

theorem nibbleBits_odd (b : Byte) (j : Nat) : nibbleBits b (2 * j + 1) = b.extractLsb' 4 4 := by
  rw [nibbleBits, if_neg (by omega)]

/-- A byte as a number, from its two nibbles. -/
theorem Byte.toNat_eq_nibbles (b : Byte) : b.toNat = (b.extractLsb' 4 4).toNat * 16 + (b.extractLsb' 0 4).toNat := by
  have hlt := b.isLt
  rw [BitVec.extractLsb'_toNat, BitVec.extractLsb'_toNat, Nat.shiftRight_eq_div_pow, Nat.shiftRight_zero]
  omega

theorem Byte.toNat_low_nibble (b : Byte) : (b.extractLsb' 0 4).toNat = b.toNat % 16 := by
  simp [BitVec.extractLsb'_toNat]

/-- The nibbles of the byte that `PACK4` puts together. -/
theorem extractLsb'_low_of_nibbles (hi lo : BitVec 4) :
    (BitVec.ofNat 8 (hi.toNat * 16 + lo.toNat)).extractLsb' 0 4 = lo := by
  apply BitVec.eq_of_toNat_eq
  rw [BitVec.extractLsb'_toNat, BitVec.toNat_ofNat, Nat.shiftRight_zero]
  omega

theorem extractLsb'_high_of_nibbles (hi lo : BitVec 4) :
    (BitVec.ofNat 8 (hi.toNat * 16 + lo.toNat)).extractLsb' 4 4 = hi := by
  apply BitVec.eq_of_toNat_eq
  rw [BitVec.extractLsb'_toNat, BitVec.toNat_ofNat, Nat.shiftRight_eq_div_pow]
  omega

theorem nibbleOf_toNat (b : Byte) (i : Nat) : nibbleOf b.toNat i = (nibbleBits b i).toInt := by
  rw [nibbleOf, sext, nibbleBits]
  congr 1
  apply BitVec.eq_of_toNat_eq
  split <;> simp [BitVec.extractLsb'_toNat, Nat.shiftRight_eq_div_pow]

theorem nib_eq (m : Memory) (p i : Nat) : nib m p i = (nibbleBits (m.readByte (p + i / 2)) i).toInt := by
  rw [nib, ← nibbleOf_toNat]
  simp [Memory.read]

theorem nib_bounds (m : Memory) (p i : Nat) : minOf 4 ≤ nib m p i ∧ nib m p i ≤ maxOf 4 := sext_bounds (by decide) _

/-- A nibble is its own saturation to 4 bits. -/
theorem clip_four_nibble (v : BitVec 4) : clip 4 v.toInt = v.toInt :=
  clip_of_mem v.le_toInt (Int.le_sub_one_of_lt v.toInt_lt)

/-! ## A loop that stores one byte per pass -/

section
variable {base n : Nat} {m : Memory}

/-- Byte `k` is what pass `k` stores, computed from a memory in which only bytes of the buffer may have changed. -/
theorem readByte_forUp_write {v : Nat → Memory → Nat} {w : Nat → Nat}
    (hw : ∀ k, k < n → ∀ t, SameBut ⟨base, n⟩ m t → v k t = w k) {k : Nat} (hk : k < n) :
    (forUp n (fun k m => m.write (base + k) 1 (v k m)) m).readByte (base + k) = BitVec.ofNat 8 (w k) := by
  have hread := readS_forUp_element (f := fun k m => m.write (base + k) 1 (v k m)) (base := base) (b := 1) (n := n)
    (m := m) (w := fun k => (BitVec.ofNat 8 (w k)).toInt)
    (fun k _ => WritesIn.write _ fun _ h1 h2 => by rw [Nat.mul_one]; exact ⟨h1, h2⟩) (fun k hk t ht => ?_) hk
  · rw [Nat.mul_one, Memory.readS_one] at hread
    exact BitVec.eq_of_toInt_eq hread
  · rw [Nat.mul_one] at ht ⊢
    have hbuffer := ht.mono (c' := ⟨base, n⟩) fun x hx => ⟨hx.1, hx.2.trans (Nat.add_lt_add_left hk base)⟩
    rw [hw k hk t hbuffer, Memory.readS_one, Memory.readByte_write, if_pos (by omega), Nat.sub_self, pow_zero, Nat.div_one]

/-- The same of a loop that stores integers of 8 bits. -/
theorem readS_forUp_writeS {v : Nat → Memory → Int} {w : Nat → Int}
    (hw : ∀ k, k < n → ∀ t, SameBut ⟨base, n⟩ m t → v k t = w k) {k : Nat} (hk : k < n)
    (hrange : minOf 8 ≤ w k ∧ w k ≤ maxOf 8) :
    (forUp n (fun k m => m.writeS (base + k) 1 (v k m)) m).readS (base + k) 1 = w k := by
  have hbyte := readByte_forUp_write (v := fun k t => (BitVec.ofInt 8 (v k t)).toNat)
    (fun k hk t ht => by rw [hw k hk t ht]) hk
  rw [Memory.readS_one]
  refine (congrArg BitVec.toInt hbyte).trans ?_
  rw [BitVec.ofNat_toNat, BitVec.setWidth_eq, toInt_ofInt_of_range (by decide) hrange.1 hrange.2]

end

/-! ## `UNPACK4` (R223) -/

section
variable {src dst n : Nat} {m : Memory}

/-- Every pass finds the packed stream as it was. -/
theorem SameBut.nib_eq {c : Buffer} {t : Memory} (h : SameBut c m t) (hapart : Buffer.Apart ⟨src, (n + 1) / 2⟩ c)
    {i : Nat} (hi : i < n) : nib t src i = nib m src i := by
  rw [nib, nib, h.read_apart hapart fun x h1 h2 => ⟨by simp only; omega, by simp only; omega⟩]

theorem readS_unpackMem (hapart : Buffer.Apart ⟨src, (n + 1) / 2⟩ ⟨dst, n⟩) {i : Nat} (hi : i < n) :
    (unpackMem src dst n m).readS (dst + i) 1 = nib m src i := by
  obtain ⟨hge, hle⟩ := nib_bounds m src i
  have hrange : minOf 8 ≤ nib m src i ∧ nib m src i ≤ maxOf 8 := ⟨le_trans (by decide) hge, hle.trans (by decide)⟩
  exact readS_forUp_writeS (v := fun k t => nib t src k) (w := nib m src)
    (fun k hk t ht => ht.nib_eq hapart hk) hi hrange

/-! ## `PACK4` (R224) -/

/-- The nibble of a value saturated to 4 bits is that saturated value. -/
theorem toInt_ofInt_clip_four (v : Int) : (BitVec.ofInt 4 (sat 4 v)).toInt = clip 4 v := by
  obtain ⟨hge, hle⟩ := sat_bounds 4 v
  rw [toInt_ofInt_of_range (by decide) hge hle, sat_eq_clip]

/-- The high nibble of packed byte `j` of `n` values at `src`: 0 past the count (R224). -/
def packedHigh (m : Memory) (src n j : Nat) : BitVec 4 :=
  if 2 * j + 1 < n then BitVec.ofInt 4 (sat 4 (m.readS (src + 2 * j + 1) 1)) else 0#4

/-- The low nibble of packed byte `j` (R224). -/
def packedLow (m : Memory) (src j : Nat) : BitVec 4 := BitVec.ofInt 4 (sat 4 (m.readS (src + 2 * j) 1))

theorem toInt_packedHigh (j : Nat) :
    (packedHigh m src n j).toInt = if 2 * j + 1 < n then clip 4 (m.readS (src + 2 * j + 1) 1) else 0 := by
  rw [packedHigh, apply_ite BitVec.toInt, toInt_ofInt_clip_four, BitVec.toInt_zero]

theorem readByte_packMem (hapart : Buffer.Apart ⟨src, n⟩ ⟨dst, (n + 1) / 2⟩) {j : Nat} (hj : j < (n + 1) / 2) :
    (packMem src dst n m).readByte (dst + j) =
      BitVec.ofNat 8 ((packedHigh m src n j).toNat * 16 + (packedLow m src j).toNat) := by
  refine readByte_forUp_write (w := fun j => (packedHigh m src n j).toNat * 16 + (packedLow m src j).toNat)
    (fun k hk t ht => ?_) hj
  have hlow : t.readS (src + 2 * k) 1 = m.readS (src + 2 * k) 1 :=
    ht.readS_apart hapart fun x h1 h2 => ⟨by simp only; omega, by simp only; omega⟩
  have hhigh : 2 * k + 1 < n → t.readS (src + 2 * k + 1) 1 = m.readS (src + 2 * k + 1) 1 := fun hlt =>
    ht.readS_apart hapart fun x h1 h2 => ⟨by simp only; omega, by simp only; omega⟩
  rw [hlow, packedHigh, packedLow]
  split
  next hlt => rw [hhigh hlt, packNibble, packNibble]
  next => rfl

end

end Sys2Proof.Machine

namespace Sys2Proof.Proofs

open Sys2Proof.Machine

/-- Settles O54: the nibble of each pass. -/
theorem unpack4Completes : Obligations.Unpack4Completes := by
  intro rs1 rs2 rs3 s src dst n hc
  refine ⟨_, execUnpack4_eq_next.mpr ⟨hc, rfl⟩, rfl, (unpackMem_writes src dst n).sameOutside s, fun i hi => ?_⟩
  exact (readS_unpackMem hc.apart hi).trans (nib_eq s.mem src i)

/-- Settles O55: the two nibbles of the byte of each pass. -/
theorem pack4Completes : Obligations.Pack4Completes := by
  intro rs1 rs2 rs3 s src dst n hc
  refine ⟨_, execPack4_eq_next.mpr ⟨hc, rfl⟩, rfl, (packMem_writes src dst n).sameOutside s, fun j hj => ?_⟩
  have hbyte : (s.finishMem (packMem src dst n s.mem)).mem.readByte (dst + j) = _ := readByte_packMem hc.apart hj
  rw [hbyte, extractLsb'_low_of_nibbles, extractLsb'_high_of_nibbles]
  exact ⟨toInt_ofInt_clip_four _, toInt_packedHigh j⟩

/-- A command answers one state, so what O54 says of some state holds of the one at hand. -/
theorem readS_of_unpack4 {a b c : Reg} {s t : State} (h : exec (.unpack4 a b c) s = .next t) {i : Nat}
    (hi : i < s.low32 c) :
    t.mem.readS (s.low32 b + i) 1 = (nibbleBits (s.mem.readByte (s.low32 a + i / 2)) i).toInt := by
  obtain ⟨t', ht', -, -, hnibble⟩ := unpack4Completes a b c s (execUnpack4_eq_next.mp h).1
  obtain rfl : t' = t := Host.Outcome.next.inj (ht'.symm.trans h)
  exact hnibble i hi

/-- The same of O55. -/
theorem nibbles_of_pack4 {a b c : Reg} {s t : State} (h : exec (.pack4 a b c) s = .next t) {j : Nat}
    (hj : j < (s.low32 c + 1) / 2) :
    ((t.mem.readByte (s.low32 b + j)).extractLsb' 0 4).toInt = Spec.clip 4 (s.mem.readS (s.low32 a + 2 * j) 1) ∧
      ((t.mem.readByte (s.low32 b + j)).extractLsb' 4 4).toInt =
        if 2 * j + 1 < s.low32 c then Spec.clip 4 (s.mem.readS (s.low32 a + 2 * j + 1) 1) else 0 := by
  obtain ⟨t', ht', -, -, hbyte⟩ := pack4Completes a b c s (execPack4_eq_next.mp h).1
  obtain rfl : t' = t := Host.Outcome.next.inj (ht'.symm.trans h)
  exact hbyte j hj

/-- Settles O56 from O54 and O55, nibble by nibble: a nibble is its own saturation. -/
theorem packUnpackRoundTrip : Obligations.PackUnpackRoundTrip := by
  constructor
  · intro a b c a' b' c' s t u v ht hmem hsrc hcount hv j hj
    obtain ⟨hlow, hhigh⟩ := nibbles_of_pack4 hv (hcount ▸ hj)
    rw [hmem, hsrc, readS_of_unpack4 ht (by omega), nibbleBits_even, clip_four_nibble,
      Nat.mul_div_cancel_left j two_pos] at hlow
    rw [Byte.toNat_eq_nibbles, BitVec.eq_of_toInt_eq hlow]
    rw [hmem, hsrc, hcount] at hhigh
    split
    next hfull =>
      have hhalf : (2 * j + 1) / 2 = j := by omega
      rw [if_pos hfull, Nat.add_assoc, readS_of_unpack4 ht hfull, nibbleBits_odd, clip_four_nibble, hhalf] at hhigh
      rw [BitVec.eq_of_toInt_eq hhigh, ← Byte.toNat_eq_nibbles]
    next hpad =>
      rw [if_neg hpad, ← BitVec.toInt_zero (w := 4)] at hhigh
      rw [BitVec.eq_of_toInt_eq hhigh, Byte.toNat_low_nibble, BitVec.toNat_zero, Nat.zero_mul, Nat.zero_add]
  · intro a b c a' b' c' s t u v ht hmem hsrc hcount hv i hi
    rw [readS_of_unpack4 hv (hcount ▸ hi), hmem, hsrc]
    obtain ⟨j, rfl | rfl⟩ := i.even_or_odd'
    · rw [nibbleBits_even, Nat.mul_div_cancel_left j two_pos, (nibbles_of_pack4 ht (by omega)).1]
    · have hhalf : (2 * j + 1) / 2 = j := by omega
      rw [nibbleBits_odd, hhalf, (nibbles_of_pack4 ht (by omega)).2, if_pos hi, Nat.add_assoc]

end Sys2Proof.Proofs

/-! PROOF. R205, R207 to R209: `DWCONV`. Its four nested loops are one loop over the output's bytes in rising order; each
pass finds what it reads as it was before the command, since the output is apart from all of it. -/

namespace Sys2Proof.Machine

open Sys2Proof.Spec

/-! ## Nested loops as one -/

theorem row_major_div {k j : Nat} (i : Nat) (hj : j < k) : (i * k + j) / k = i := by
  rw [Nat.mul_comm, Nat.mul_add_div (Nat.zero_lt_of_lt hj), Nat.div_eq_of_lt hj, Nat.add_zero]

theorem row_major_mod {k j : Nat} (i : Nat) (hj : j < k) : (i * k + j) % k = j := by
  rw [Nat.mul_add_mod', Nat.mod_eq_of_lt hj]

theorem row_major_lt {n k i j : Nat} (hi : i < n) (hj : j < k) : i * k + j < n * k :=
  calc i * k + j < i * k + k := Nat.add_lt_add_left hj _
    _ = (i + 1) * k := (Nat.succ_mul i k).symm
    _ ≤ n * k := Nat.mul_le_mul_right k hi

/-- Two nested loops are one loop over the row-major positions. -/
theorem forUp_forUp {σ : Type} (n k : Nat) (f : Nat → Nat → σ → σ) (s : σ) :
    forUp n (fun i t => forUp k (fun j t => f i j t) t) s = forUp (n * k) (fun p t => f (p / k) (p % k) t) s := by
  induction n with
  | zero => rw [Nat.zero_mul, forUp_zero, forUp_zero]
  | succ n ih =>
    rw [forUp_succ, ih, Nat.succ_mul, forUp_add]
    exact forUp_congr k _ fun j hj t => by rw [row_major_div n hj, row_major_mod n hj]

/-! ## One output's value (R205, R207, R208) -/

/-- What `DWCONV` stores for one output element, computed over the memory `m`. -/
def dwValue (r : Rounding) (m : Memory) (q : DwDesc) (b oy ox c : Nat) : Int :=
  dwPost r m q c (dwAcc m q b oy ox c)

/-- Kernel position `(ky, kx)` of output `(oy, ox)` meets the input (R205). -/
def DwDesc.Meets (q : DwDesc) (oy ox ky kx : Nat) : Prop :=
  0 ≤ windowPos oy q.strideH q.padH ky ∧ windowPos oy q.strideH q.padH ky < q.inH ∧
    0 ≤ windowPos ox q.strideW q.padW kx ∧ windowPos ox q.strideW q.padW kx < q.inW

section
variable {m : Memory} {q : DwDesc} {b oy ox c ky kx : Nat}

theorem dwTap_of_meets (h : q.Meets oy ox ky kx) (acc : Int) :
    dwTap m q b oy ox c ky kx acc = sat 64 (acc +
      (m.readS (tensorAt q.inPtr q.inH q.inW q.ch 1 b (windowPos oy q.strideH q.padH ky).toNat
          (windowPos ox q.strideW q.padW kx).toNat c) 1 + q.inOffset) *
        nib m q.wgtPtr ((ky * q.kW + kx) * q.ch + c)) := if_pos h

theorem dwTap_of_not_meets (h : ¬ q.Meets oy ox ky kx) (acc : Int) : dwTap m q b oy ox c ky kx acc = acc := if_neg h

/-- A property that holds of the bias and that every position's step keeps holds of the accumulator. -/
theorem dwAcc_induct {P : Int → Prop} (hbias : P (m.readS (q.biasPtr + 4 * c) 4))
    (htap : ∀ ky, ky < q.kH → ∀ kx, kx < q.kW → ∀ acc, P acc → P (dwTap m q b oy ox c ky kx acc)) :
    P (dwAcc m q b oy ox c) :=
  forUp_keeps _ hbias fun ky hky _ hacc => forUp_keeps _ hacc fun kx hkx acc hacc => htap ky hky kx hkx acc hacc

/-- A bias, a word, is within the range of the accumulator. -/
theorem readS_four_bounds (m : Memory) (a : Nat) : minOf 64 ≤ m.readS a 4 ∧ m.readS a 4 ≤ maxOf 64 := by
  obtain ⟨hge, hle⟩ := m.readS_bounds a (n := 4) (by decide)
  exact ⟨le_trans (by decide) hge, hle.trans (by decide)⟩

/-- The accumulator stays within 64 bits (R207). -/
theorem dwAcc_bounds (m : Memory) (q : DwDesc) (b oy ox c : Nat) :
    minOf 64 ≤ dwAcc m q b oy ox c ∧ dwAcc m q b oy ox c ≤ maxOf 64 := by
  refine dwAcc_induct (P := fun v => minOf 64 ≤ v ∧ v ≤ maxOf 64) (readS_four_bounds m _) fun ky _ kx _ acc hacc => ?_
  by_cases hmeets : q.Meets oy ox ky kx
  · rw [dwTap_of_meets hmeets]
    exact sat_bounds 64 _
  · rwa [dwTap_of_not_meets hmeets]

/-- The model's accumulation over rows and columns is the specification's over kernel positions. -/
theorem dwAcc_eq_dwAccumulate (m : Memory) (q : DwDesc) (b oy ox c : Nat) :
    dwAcc m q b oy ox c = dwAccumulate m q b oy ox c := by
  rw [dwAcc, forUp_forUp, forUp_eq_foldl, dwAccumulate]
  congr 1
  funext acc p
  simp only [dwTap, windowPos, tensorAt, Nat.div_add_mod', sat_eq_clip, Nat.mul_one, Nat.cast_mul]

/-- Twice the product of a 64-bit accumulator and a multiplier, against `2^96` (R127). -/
theorem two_mul_acc_mul_bounds {acc : Int} (hacc : minOf 64 ≤ acc ∧ acc ≤ maxOf 64) (m : Memory) (a : Nat) :
    -2 ^ 96 ≤ 2 * (acc * m.readS a 4) ∧ 2 * (acc * m.readS a 4) < 2 ^ 96 := by
  have hprod := two_mul_product_bounds (BitVec.ofInt 64 acc) (BitVec.ofNat 32 (m.read a 4))
  rwa [toInt_ofInt_of_range (by decide) hacc.1 hacc.2] at hprod

/-- The post-processing as the specification writes it: the cut of the shift at 96 changes nothing. -/
theorem dwValue_eq (r : Rounding) (m : Memory) (q : DwDesc) (b oy ox c : Nat) :
    dwValue r m q b oy ox c = clip 8 (max q.actMin (min
      (clip 8 (rndShr r (dwAccumulate m q b oy ox c * m.readS (q.multPtr + 4 * c) 4) (m.read (q.shiftPtr + 4 * c) 4)) +
        q.outOffset) q.actMax)) := by
  obtain ⟨hge, hlt⟩ := two_mul_acc_mul_bounds (dwAcc_bounds m q b oy ox c) m (q.multPtr + 4 * c)
  rw [dwValue, dwPost, requantize, rndShr_min _ _ hge hlt, dwAcc_eq_dwAccumulate, sat_eq_clip, sat_eq_clip, clamp]

/-- A multiple of the scale is scaled exactly. -/
theorem rndShr_mul_two_pow (r : Rounding) (v : Int) (n : Nat) : rndShr r (v * 2 ^ n) n = v := by
  refine ((roundsTo_iff r _ n v).mp ?_).symm
  have hpos : (0 : Int) < 2 ^ n := by positivity
  cases r with
  | halfUp => constructor <;> linarith
  | halfEven => exact (roundsTo_halfEven_iff _ n v).mpr (by simp; omega)

/-- With zero weights every step adds 0 to the bias, which is within 64 bits (R209). -/
theorem dwAcc_of_zero_weights (hzero : ∀ i, i < q.kH * q.kW * q.ch → nib m q.wgtPtr i = 0) (hc : c < q.ch) :
    dwAcc m q b oy ox c = m.readS (q.biasPtr + 4 * c) 4 := by
  obtain ⟨hge, hle⟩ := readS_four_bounds m (q.biasPtr + 4 * c)
  refine dwAcc_induct (P := fun v => v = m.readS (q.biasPtr + 4 * c) 4) rfl fun ky hky kx hkx acc hacc => ?_
  by_cases hmeets : q.Meets oy ox ky kx
  · rw [dwTap_of_meets hmeets, hzero _ (row_major_lt (row_major_lt hky hkx) hc), mul_zero, add_zero, hacc,
      sat_eq_self hge hle]
  · rw [dwTap_of_not_meets hmeets, hacc]

end

/-! ## The memory after `DWCONV` -/

/-- The value of byte `k` of the output tensor (R38). -/
def DwDesc.valueAt (q : DwDesc) (r : Rounding) (m : Memory) (k : Nat) : Int :=
  dwValue r m q (k / q.ch / q.outW / q.outH) (k / q.ch / q.outW % q.outH) (k / q.ch % q.outW) (k % q.ch)

theorem DwDesc.valueAt_element (q : DwDesc) (r : Rounding) (m : Memory) (b : Nat) {oy ox c : Nat} (hy : oy < q.outH)
    (hx : ox < q.outW) (hc : c < q.ch) : q.valueAt r m (((b * q.outH + oy) * q.outW + ox) * q.ch + c) =
      dwValue r m q b oy ox c := by
  rw [DwDesc.valueAt, row_major_div _ hc, row_major_mod _ hc, row_major_div _ hx, row_major_mod _ hx,
    row_major_div _ hy, row_major_mod _ hy]

/-- The loops of R205 as one over the bytes of the output tensor. -/
theorem dwconvMem_eq (r : Rounding) (q : DwDesc) (m : Memory) :
    dwconvMem r q m = forUp (q.batch.toNat * q.outH * q.outW * q.ch)
      (fun k m => m.writeS (q.outPtr + k) 1 (q.valueAt r m k)) m := by
  rw [dwconvMem, forUp_forUp, forUp_forUp, forUp_forUp]
  simp only [tensorAt, Nat.div_add_mod', Nat.mul_one]
  rfl

/-- The word of a channel lies within its array (R40). -/
theorem channel_word_in {p ch c x : Nat} (hc : c < ch) (h1 : p + 4 * c ≤ x) (h2 : x < p + 4 * c + 4) :
    (⟨p, 4 * ch⟩ : Buffer).Holds x :=
  ⟨by simp only; omega, by simp only; omega⟩

namespace DwconvContract

variable {s : State} {d : Nat} {q : DwDesc} (hc : DwconvContract s d) (hq : dwDesc s.mem d = q)
include hc hq

/-- The values depend on what is apart from the output only. -/
theorem dwValue_congr (r : Rounding) {t : Memory} (ht : SameBut q.outBuffer s.mem t) {b oy ox c : Nat}
    (hb : b < q.batch.toNat) (hch : c < q.ch) : dwValue r t q b oy ox c = dwValue r s.mem q b oy ox c := by
  subst hq
  have hbias := ht.readS_apart hc.outBias.symm fun _ => channel_word_in (p := (dwDesc s.mem d).biasPtr) hch
  have hmult := ht.readS_apart hc.outMult.symm fun _ => channel_word_in (p := (dwDesc s.mem d).multPtr) hch
  have hshift := ht.read_apart hc.outShift.symm fun _ => channel_word_in (p := (dwDesc s.mem d).shiftPtr) hch
  have hacc : dwAcc t (dwDesc s.mem d) b oy ox c = dwAcc s.mem (dwDesc s.mem d) b oy ox c := by
    rw [dwAcc, hbias]
    refine forUp_congr _ _ fun ky hky _ => forUp_congr _ _ fun kx hkx acc => ?_
    by_cases hmeets : (dwDesc s.mem d).Meets oy ox ky kx
    · obtain ⟨hy, hy', hx, hx'⟩ := id hmeets
      rw [dwTap_of_meets hmeets, dwTap_of_meets hmeets,
        ht.nib_eq hc.outWeights.symm (row_major_lt (row_major_lt hky hkx) hch),
        ht.readS_apart hc.outInput.symm fun z h1 h2 => ?_]
      have hin := tensorAt_in hb (by omega) (by omega) hch h1 h2
      rwa [Nat.mul_one] at hin
    · rw [dwTap_of_not_meets hmeets, dwTap_of_not_meets hmeets]
  rw [dwValue, dwValue, hacc, dwPost, dwPost, hmult, hshift]

/-- Every output element holds its value. -/
theorem readS_dwconvMem (r : Rounding) {b oy ox c : Nat} (hb : b < q.batch.toNat) (hy : oy < q.outH) (hx : ox < q.outW)
    (hch : c < q.ch) :
    (dwconvMem r q s.mem).readS (q.outPtr + (((b * q.outH + oy) * q.outW + ox) * q.ch + c)) 1 =
      dwValue r s.mem q b oy ox c := by
  have hread := readS_forUp_writeS (base := q.outPtr) (n := q.batch.toNat * q.outH * q.outW * q.ch) (m := s.mem)
    (v := fun k t => q.valueAt r t k) (w := q.valueAt r s.mem) (fun k hk t ht => ?_) (tensor_element_lt hb hy hx hch)
    (sat_bounds 8 _)
  · rwa [q.valueAt_element r s.mem b hy hx hch, ← dwconvMem_eq] at hread
  · have hpixel : k / q.ch < q.batch.toNat * q.outH * q.outW := Nat.div_lt_of_lt_mul (hk.trans_eq (Nat.mul_comm _ _))
    have hrow : k / q.ch / q.outW < q.batch.toNat * q.outH := Nat.div_lt_of_lt_mul (hpixel.trans_eq (Nat.mul_comm _ _))
    have hbatch : k / q.ch / q.outW / q.outH < q.batch.toNat := Nat.div_lt_of_lt_mul (hrow.trans_eq (Nat.mul_comm _ _))
    exact hc.dwValue_congr hq r ht hbatch (Nat.mod_lt k (Nat.zero_lt_of_lt hch))

end DwconvContract

end Sys2Proof.Machine

namespace Sys2Proof.Proofs

open Sys2Proof.Machine

/-- Settles O47: every output element holds its value, which is the specification's. -/
theorem dwconvCompletes : Obligations.DwconvCompletes := by
  intro rs1 s d q hvec hc
  have hexec : exec (.dwconv rs1) s = .next (s.finishMem (dwconvMem s.rnd q s.mem)) :=
    execDwconv_eq_next.mpr (.inr (.inr ⟨hvec, hc, rfl⟩))
  refine ⟨_, hexec, rfl, (dwconvMem_writes s.rnd q).sameOutside s, fun b oy ox c hb hy hx hch => ?_⟩
  exact ⟨_, (roundsTo_iff _ _ _ _).mpr rfl,
    (hc.readS_dwconvMem rfl s.rnd hb hy hx hch).trans (dwValue_eq s.rnd s.mem q b oy ox c)⟩

/-- Settles O48 from O47: the accumulator is the bias, and the identity scale rounds nothing off. -/
theorem dwconvZeroWeights : Obligations.DwconvZeroWeights := by
  intro rs1 s d q hvec hc hzero
  obtain ⟨t, hexec, -, -, hout⟩ := dwconvCompletes rs1 s hvec hc
  refine ⟨t, hexec, fun b oy ox c hb hy hx hch => ?_⟩
  obtain ⟨z, hz, hv⟩ := hout b oy ox c hb hy hx hch
  have hacc : Spec.dwAccumulate s.mem q b oy ox c = s.mem.readS (q.biasPtr + 4 * c) 4 := by
    rw [← dwAcc_eq_dwAccumulate, dwAcc_of_zero_weights hzero hch]
  rw [hacc] at hz
  refine ⟨⟨z, hz, hv⟩, fun hscale hoff hge hle => ?_⟩
  rw [hscale, roundsTo_iff, rndShr_mul_two_pow] at hz
  have hclip : Spec.clip 8 (s.mem.readS (q.biasPtr + 4 * c) 4) = s.mem.readS (q.biasPtr + 4 * c) 4 :=
    clip_of_mem hge hle
  rw [hv, hz, hoff, add_zero, hclip]

end Sys2Proof.Proofs

/-! PROOF. R211 to R215: `MAXPOOL`. A window is a run of cells, row by row; visiting them leaves the greatest of their
inputs, and visiting none leaves the output as it was. Every loop of pass 1 works on a block of the output of its own (a batch,
a pixel, an element), so an element ends as the pass of its own block leaves it; pass 2 then clamps it. -/

namespace Sys2Proof.Machine

open Sys2Proof.Spec

/-! ## A loop whose passes write a block each -/

/-- Bytes after the changed ones read as before. -/
theorem SameBut.readS_after {m t : Memory} {base len a n : Nat} (h : SameBut ⟨base, len⟩ m t) (ha : base + len ≤ a) :
    t.readS a n = m.readS a n :=
  Memory.readS_congr fun x h1 _ => h x fun hx => absurd hx.2 (not_lt.mpr (ha.trans h1))

/-- The first `k` of `n` elements lie within their buffer. -/
theorem first_elements_in {base b n k x : Nat} (hk : k ≤ n) (h : (⟨base, k * b⟩ : Buffer).Holds x) :
    (⟨base, n * b⟩ : Buffer).Holds x :=
  ⟨h.1, h.2.trans_le (Nat.add_le_add_left (Nat.mul_le_mul_right b hk) base)⟩

/-- What a loop leaves within block `k` when pass `k` writes that block only: what the pass leaves there, in a memory in
which only the blocks before it may have changed. -/
theorem readS_forUp_block {f : Nat → Memory → Memory} {base b n : Nat}
    (hf : ∀ k, k < n → WritesIn (⟨base + k * b, b⟩ : Buffer).Holds (f k)) {k : Nat} (hk : k < n) {a e : Nat}
    (hin : ∀ x, a ≤ x → x < a + e → (⟨base + k * b, b⟩ : Buffer).Holds x) {m : Memory} {P : Int → Prop}
    (hP : ∀ t, SameBut ⟨base, k * b⟩ m t → P ((f k t).readS a e)) : P ((forUp n f m).readS a e) := by
  obtain ⟨r, rfl⟩ := Nat.exists_eq_add_of_le (Nat.succ_le_of_lt hk)
  have hbefore : SameBut ⟨base, k * b⟩ m (forUp k f m) := (WritesIn.elements fun j hj => hf j (by omega)).bytes m
  have hafter : WritesIn (⟨base + (k + 1) * b, r * b⟩ : Buffer).Holds
      (fun t => forUp r (fun j t => f (k + 1 + j) t) t) := by
    refine WritesIn.elements fun j hj => ?_
    rw [Nat.add_assoc, ← Nat.add_mul]
    exact hf _ (by omega)
  rw [Nat.succ_eq_add_one, forUp_add, forUp_succ, Memory.readS_congr fun x h1 h2 => hafter.bytes _ x ?_]
  · exact hP _ hbefore
  · intro hx
    have hblock := (hin x h1 h2).2
    rw [Nat.add_assoc, ← Nat.succ_mul] at hblock
    exact absurd hx.1 (not_le.mpr hblock)

/-! ## The cells of a window (R211) -/

/-- The rows or columns of a window are those of the input that the kernel covers. -/
theorem mem_window_iff {o stride k n y : Nat} {pad : Int} :
    windowStart o stride pad ≤ y ∧ y < windowEnd o stride pad k n ↔
      y < n ∧ (o : Int) * stride - pad ≤ y ∧ (y : Int) < (o : Int) * stride - pad + k := by
  simp only [windowStart, windowEnd, windowPos, Nat.cast_mul]
  generalize (o : Int) * stride = start
  omega

namespace PoolDesc

/-- How many rows a window has. -/
def rows (q : PoolDesc) (oy : Nat) : Nat := windowEnd oy q.strideH q.padH q.kH q.inH - windowStart oy q.strideH q.padH

/-- How many columns a window has. -/
def cols (q : PoolDesc) (ox : Nat) : Nat := windowEnd ox q.strideW q.padW q.kW q.inW - windowStart ox q.strideW q.padW

/-- How many cells a window has. -/
def cells (q : PoolDesc) (oy ox : Nat) : Nat := q.rows oy * q.cols ox

/-- The input row of cell `p`. -/
def cellRow (q : PoolDesc) (oy ox p : Nat) : Nat := windowStart oy q.strideH q.padH + p / q.cols ox

/-- The input column of cell `p`. -/
def cellCol (q : PoolDesc) (ox p : Nat) : Nat := windowStart ox q.strideW q.padW + p % q.cols ox

theorem inWindow_iff_window (q : PoolDesc) (oy ox y x : Nat) :
    InWindow q oy ox y x ↔
      (windowStart oy q.strideH q.padH ≤ y ∧ y < windowEnd oy q.strideH q.padH q.kH q.inH) ∧
        (windowStart ox q.strideW q.padW ≤ x ∧ x < windowEnd ox q.strideW q.padW q.kW q.inW) := by
  rw [mem_window_iff, mem_window_iff, InWindow]
  tauto

theorem inWindow_cell {q : PoolDesc} {oy ox p : Nat} (hp : p < q.cells oy ox) :
    InWindow q oy ox (q.cellRow oy ox p) (q.cellCol ox p) := by
  have hcols : 0 < q.cols ox := Nat.pos_of_ne_zero fun h0 => by simp [cells, h0] at hp
  have hrow : p / q.cols ox < q.rows oy := Nat.div_lt_of_lt_mul (hp.trans_eq (Nat.mul_comm _ _))
  have hcol : p % q.cols ox < q.cols ox := Nat.mod_lt p hcols
  rw [inWindow_iff_window, cellRow, cellCol]
  generalize p / q.cols ox = i at *
  generalize p % q.cols ox = j at *
  rw [rows] at hrow
  rw [cols] at hcol
  omega

theorem exists_cell {q : PoolDesc} {oy ox y x : Nat} (h : InWindow q oy ox y x) :
    ∃ p, p < q.cells oy ox ∧ q.cellRow oy ox p = y ∧ q.cellCol ox p = x := by
  obtain ⟨⟨hy, hy'⟩, hx, hx'⟩ := (inWindow_iff_window q oy ox y x).mp h
  have hrow : y - windowStart oy q.strideH q.padH < q.rows oy := by rw [rows]; omega
  have hcol : x - windowStart ox q.strideW q.padW < q.cols ox := by rw [cols]; omega
  refine ⟨(y - windowStart oy q.strideH q.padH) * q.cols ox + (x - windowStart ox q.strideW q.padW),
    row_major_lt hrow hcol, ?_, ?_⟩
  · rw [cellRow, row_major_div _ hcol, Nat.add_sub_cancel' hy]
  · rw [cellCol, row_major_mod _ hcol, Nat.add_sub_cancel' hx]

end PoolDesc

/-- A window's loops as one over its cells; the first cell is cell 0. -/
theorem poolWindow_eq (q : PoolDesc) (e b oy ox : Nat) (m : Memory) :
    poolWindow q e b oy ox m = forUp (q.cells oy ox)
      (fun p m => poolVisit q e b oy ox (q.cellRow oy ox p) (q.cellCol ox p) (decide (p = 0)) m) m := by
  rw [poolWindow, forUp_forUp]
  refine forUp_congr _ _ fun p _ t => ?_
  have hfirst : (p / q.cols ox == 0 && p % q.cols ox == 0) = decide (p = 0) := by
    rw [Bool.eq_iff_iff]
    simp only [Bool.and_eq_true, beq_iff_eq, decide_eq_true_eq]
    refine ⟨fun ⟨hdiv, hmod⟩ => ?_, fun h0 => by simp [h0]⟩
    rw [← Nat.div_add_mod p (q.cols ox), hdiv, hmod, Nat.mul_zero]
  rw [← hfirst]
  rfl

/-! ## Where the blocks of the output stand (R38) -/

namespace PoolDesc

variable (q : PoolDesc) (e b oy ox c : Nat)

/-- The output elements of one batch. -/
def batchBuffer : Buffer := ⟨q.outAt e b 0 0 0, q.outH * q.outW * q.ch * e⟩

/-- The output elements of one pixel. -/
def pixelBuffer : Buffer := ⟨q.outAt e b oy ox 0, q.ch * e⟩

theorem outAt_batch : q.outAt e b 0 0 0 = q.outPtr + b * (q.outH * q.outW * q.ch * e) := by
  rw [outAt, tensorAt]; ring

theorem outAt_pixel : q.outAt e b oy ox 0 = q.outAt e b 0 0 0 + (oy * q.outW + ox) * (q.ch * e) := by
  rw [outAt, outAt, tensorAt, tensorAt]; ring

theorem outAt_element : q.outAt e b oy ox c = q.outAt e b oy ox 0 + c * e := by
  rw [outAt, outAt, tensorAt, tensorAt]; ring

theorem outAt_in_batch : q.outAt e b oy ox c = q.outAt e b 0 0 0 + ((oy * q.outW + ox) * q.ch + c) * e := by
  rw [outAt, outAt, tensorAt, tensorAt]; ring

variable {q e b oy ox c}

/-- The first pixels of a batch lie within the batch. -/
theorem pixels_in_batch {n x : Nat} (hn : n ≤ q.outH * q.outW)
    (h : (⟨q.outAt e b 0 0 0, n * (q.ch * e)⟩ : Buffer).Holds x) : (q.batchBuffer e b).Holds x := by
  rw [batchBuffer, Nat.mul_assoc (q.outH * q.outW)]
  exact first_elements_in hn h

/-- The first batches lie within the output. -/
theorem batches_in_out {n x : Nat} (hn : n ≤ q.batch.toNat)
    (h : (⟨q.outPtr, n * (q.outH * q.outW * q.ch * e)⟩ : Buffer).Holds x) : (q.outBuffer e).Holds x := by
  rw [outBuffer, Nat.mul_assoc q.batch.toNat, Nat.mul_assoc q.batch.toNat, Nat.mul_assoc q.batch.toNat]
  exact first_elements_in hn h

theorem batchBuffer_in (hb : b < q.batch.toNat) {x : Nat} (h : (q.batchBuffer e b).Holds x) : (q.outBuffer e).Holds x := by
  rw [batchBuffer, outAt_batch] at h
  exact batches_in_out le_rfl (element_in hb h.1 h.2)

theorem pixelBuffer_in (hy : oy < q.outH) (hx : ox < q.outW) {x : Nat} (h : (q.pixelBuffer e b oy ox).Holds x) :
    (q.batchBuffer e b).Holds x := by
  rw [pixelBuffer, outAt_pixel] at h
  exact pixels_in_batch le_rfl (element_in (row_major_lt hy hx) h.1 h.2)

end PoolDesc

/-! ## One window (R212, R214) -/

/-- A visit's pass for a channel writes that element. -/
theorem poolVisit_pass_writes (q : PoolDesc) (e b oy ox y x : Nat) (first : Bool) (c : Nat) :
    WritesIn (⟨q.outAt e b oy ox c, e⟩ : Buffer).Holds (fun m =>
      if first then m.writeS (q.outAt e b oy ox c) e (m.readS (q.inAt e b y x c) e)
      else m.writeS (q.outAt e b oy ox c) e
        (max (m.readS (q.outAt e b oy ox c) e) (m.readS (q.inAt e b y x c) e))) := by
  cases first
  · exact WritesIn.writeS _ fun _ h1 h2 => ⟨h1, h2⟩
  · exact WritesIn.writeS _ fun _ h1 h2 => ⟨h1, h2⟩

/-- A visit writes the elements of its pixel. -/
theorem poolVisit_writes_pixel (q : PoolDesc) (e b oy ox y x : Nat) (first : Bool) :
    WritesIn (q.pixelBuffer e b oy ox).Holds (poolVisit q e b oy ox y x first) :=
  WritesIn.elements fun c _ => q.outAt_element e b oy ox c ▸ poolVisit_pass_writes q e b oy ox y x first c

theorem poolWindow_writes_pixel (q : PoolDesc) (e b oy ox : Nat) :
    WritesIn (q.pixelBuffer e b oy ox).Holds (poolWindow q e b oy ox) :=
  WritesIn.loop fun _ _ => WritesIn.loop fun _ _ => poolVisit_writes_pixel q e b oy ox _ _ _

/-! ## The passes of the loops over pixels, over a batch's elements and over the batches (R212) -/

/-- Pass 1 of a batch as one loop over its pixels. -/
theorem poolPass1_eq (q : PoolDesc) (e b : Nat) (m : Memory) :
    poolPass1 q e b m = forUp (q.outH * q.outW) (fun p m => poolWindow q e b (p / q.outW) (p % q.outW) m) m :=
  forUp_forUp _ _ _ _

theorem poolPass1_pass_writes (q : PoolDesc) (e b p : Nat) :
    WritesIn (⟨q.outAt e b 0 0 0 + p * (q.ch * e), q.ch * e⟩ : Buffer).Holds
      (poolWindow q e b (p / q.outW) (p % q.outW)) := by
  have hpixel := poolWindow_writes_pixel q e b (p / q.outW) (p % q.outW)
  rwa [PoolDesc.pixelBuffer, q.outAt_pixel, Nat.div_add_mod'] at hpixel

theorem poolPass2_pass_writes (q : PoolDesc) (e b k : Nat) :
    WritesIn (⟨q.outAt e b 0 0 0 + k * e, e⟩ : Buffer).Holds (fun m => m.writeS (q.outAt e b 0 0 0 + k * e) e
      (sat (8 * e) (clamp (m.readS (q.outAt e b 0 0 0 + k * e) e) q.actMin q.actMax))) :=
  WritesIn.writeS _ fun _ h1 h2 => ⟨h1, h2⟩

/-- The two passes of a batch write its elements only. -/
theorem maxpoolMem_pass_writes (q : PoolDesc) (e b : Nat) :
    WritesIn (⟨q.outPtr + b * (q.outH * q.outW * q.ch * e), q.outH * q.outW * q.ch * e⟩ : Buffer).Holds
      (fun m => poolPass2 q e b (poolPass1 q e b m)) := by
  rw [← q.outAt_batch]
  have hpass1 : WritesIn (q.batchBuffer e b).Holds (poolPass1 q e b) := by
    rw [funext (poolPass1_eq q e b)]
    exact (WritesIn.elements fun p _ => poolPass1_pass_writes q e b p).mono fun x => PoolDesc.pixels_in_batch le_rfl
  exact hpass1.comp (WritesIn.elements fun k _ => poolPass2_pass_writes q e b k)

/-! ## The greatest input of a window (R215), or none (R214) -/

/-- The greatest of the values, and `v₀` where there is none. -/
def GreatestOr (S : Set Int) (v₀ v : Int) : Prop := (S = ∅ → v = v₀) ∧ (S.Nonempty → IsGreatest S v)

theorem greatestOr_empty (v₀ : Int) : GreatestOr ∅ v₀ v₀ := ⟨fun _ => rfl, fun h => absurd h Set.not_nonempty_empty⟩

theorem greatestOr_singleton (a v₀ : Int) : GreatestOr {a} v₀ a :=
  ⟨fun h => absurd h (Set.singleton_ne_empty a), fun _ => isGreatest_singleton⟩

/-- One value more, merged by `max`. -/
theorem GreatestOr.insert {S : Set Int} {v₀ v : Int} (h : GreatestOr S v₀ v) (hS : S.Nonempty) (a : Int) :
    GreatestOr (Insert.insert a S) v₀ (max v a) :=
  ⟨fun h0 => absurd h0 (Set.insert_nonempty a S).ne_empty, fun _ => max_comm a v ▸ (h.2 hS).insert a⟩

/-- The inputs that the window of one output element covers (R211). -/
def windowInputs (m : Memory) (q : PoolDesc) (e b oy ox c : Nat) : Set Int :=
  {v | ∃ y x, InWindow q oy ox y x ∧ m.readS (q.inAt e b y x c) e = v}

/-- What cell `p` of the window gives. -/
def cellInput (m : Memory) (q : PoolDesc) (e b oy ox c p : Nat) : Int :=
  m.readS (q.inAt e b (q.cellRow oy ox p) (q.cellCol ox p) c) e

/-- What the first `n` cells give. -/
def cellInputs (m : Memory) (q : PoolDesc) (e b oy ox c n : Nat) : Set Int :=
  cellInput m q e b oy ox c '' Set.Iio n

theorem cellInputs_zero (m : Memory) (q : PoolDesc) (e b oy ox c : Nat) : cellInputs m q e b oy ox c 0 = ∅ := by
  simp [cellInputs]

theorem cellInputs_succ (m : Memory) (q : PoolDesc) (e b oy ox c n : Nat) :
    cellInputs m q e b oy ox c (n + 1) = insert (cellInput m q e b oy ox c n) (cellInputs m q e b oy ox c n) := by
  have hcells : Set.Iio (n + 1) = insert n (Set.Iio n) := Order.Iio_succ_eq_insert n
  rw [cellInputs, hcells, Set.image_insert_eq, cellInputs]

theorem cellInputs_cells (m : Memory) (q : PoolDesc) (e b oy ox c : Nat) :
    cellInputs m q e b oy ox c (q.cells oy ox) = windowInputs m q e b oy ox c := by
  ext v
  constructor
  · rintro ⟨p, hp, rfl⟩
    exact ⟨_, _, PoolDesc.inWindow_cell hp, rfl⟩
  · rintro ⟨y, x, hin, rfl⟩
    obtain ⟨p, hp, rfl, rfl⟩ := PoolDesc.exists_cell hin
    exact ⟨p, hp, rfl⟩

/-- What pass 1 leaves in an output element over the memory `m`: the greatest input of its window; what it held, where
the window is empty. -/
def Pooled (m : Memory) (q : PoolDesc) (e b oy ox c : Nat) (v : Int) : Prop :=
  GreatestOr (windowInputs m q e b oy ox c) (m.readS (q.outAt e b oy ox c) e) v

section
variable {q : PoolDesc} {e b oy ox c : Nat} {m t : Memory} (he : 0 < e) (hapart : (q.inBuffer e).Apart (q.outBuffer e))
  (hb : b < q.batch.toNat) (hy : oy < q.outH) (hx : ox < q.outW) (hc : c < q.ch)
include hapart hb hc

/-- An input element reads as before while the output changes. -/
theorem SameBut.readS_input (h : SameBut (q.outBuffer e) m t) {y x : Nat} (hyin : y < q.inH) (hxin : x < q.inW) :
    t.readS (q.inAt e b y x c) e = m.readS (q.inAt e b y x c) e :=
  h.readS_apart hapart fun _ h1 h2 => tensorAt_in hb hyin hxin hc h1 h2

theorem SameBut.windowInputs_eq (h : SameBut (q.outBuffer e) m t) :
    windowInputs t q e b oy ox c = windowInputs m q e b oy ox c := by
  ext v
  refine exists_congr fun y => exists_congr fun x => and_congr_right fun ⟨hyin, hxin, _⟩ => ?_
  rw [h.readS_input hapart hb hc hyin hxin]

/-- What is left depends on the inputs and on what the element held. -/
theorem SameBut.pooled_iff (h : SameBut (q.outBuffer e) m t)
    (hout : t.readS (q.outAt e b oy ox c) e = m.readS (q.outAt e b oy ox c) e) (v : Int) :
    Pooled t q e b oy ox c v ↔ Pooled m q e b oy ox c v := by
  rw [Pooled, Pooled, h.windowInputs_eq hapart hb hc, hout]

include he hy hx

/-- A visit copies the input to the element, or merges it with what the element holds. -/
theorem readS_poolVisit (first : Bool) {y x : Nat} (hyin : y < q.inH) (hxin : x < q.inW) :
    (poolVisit q e b oy ox y x first m).readS (q.outAt e b oy ox c) e =
      if first then m.readS (q.inAt e b y x c) e
      else max (m.readS (q.outAt e b oy ox c) e) (m.readS (q.inAt e b y x c) e) := by
  rw [q.outAt_element]
  refine readS_forUp_element (n := q.ch) (w := fun c => if first then m.readS (q.inAt e b y x c) e
    else max (m.readS (q.outAt e b oy ox 0 + c * e) e) (m.readS (q.inAt e b y x c) e)) (fun c _ => ?writes)
    (fun c hc t ht => ?value) hc
  case writes =>
    rw [← q.outAt_element]
    exact poolVisit_pass_writes q e b oy ox y x first c
  case value =>
    have hout : SameBut (q.outBuffer e) m t := ht.mono fun z hz => PoolDesc.batchBuffer_in hb
      (PoolDesc.pixelBuffer_in hy hx (first_elements_in hc.le hz))
    obtain ⟨hge, hle⟩ := m.readS_bounds (q.inAt e b y x c) he
    obtain ⟨hge', hle'⟩ := m.readS_bounds (q.outAt e b oy ox 0 + c * e) he
    rw [q.outAt_element, hout.readS_input hapart hb hc hyin hxin, ht.readS_next]
    cases first
    · exact Memory.readS_writeS_of_range _ _ he (le_max_of_le_left hge') (max_le hle' hle)
    · exact Memory.readS_writeS_of_range _ _ he hge hle

/-- A window's cells leave the greatest of their inputs. -/
theorem pooled_poolWindow : Pooled m q e b oy ox c ((poolWindow q e b oy ox m).readS (q.outAt e b oy ox c) e) := by
  rw [poolWindow_eq, Pooled, ← cellInputs_cells]
  refine (forUp_induct (P := fun n t => SameBut (q.outBuffer e) m t ∧ GreatestOr (cellInputs m q e b oy ox c n)
    (m.readS (q.outAt e b oy ox c) e) (t.readS (q.outAt e b oy ox c) e)) _ ?start fun p hp t ht => ?step).2
  case start =>
    rw [cellInputs_zero]
    exact ⟨fun _ _ => rfl, greatestOr_empty _⟩
  case step =>
    obtain ⟨hsame, hgreatest⟩ := ht
    obtain ⟨hyin, hxin, -⟩ := PoolDesc.inWindow_cell hp
    refine ⟨fun z hz => ?_, ?_⟩
    · rw [(poolVisit_writes q e _ _ _ hb hy hx).bytes t z hz, hsame z hz]
    · rw [readS_poolVisit he hapart hb hy hx hc _ hyin hxin, hsame.readS_input hapart hb hc hyin hxin, cellInputs_succ]
      cases p with
      | zero =>
        rw [cellInputs_zero, insert_empty_eq]
        exact greatestOr_singleton _ _
      | succ p =>
        exact hgreatest.insert ⟨_, 0, p.succ_pos, rfl⟩ _

/-- Each pixel of pass 1 is left as its window leaves it. -/
theorem pooled_poolPass1 : Pooled m q e b oy ox c ((poolPass1 q e b m).readS (q.outAt e b oy ox c) e) := by
  rw [poolPass1_eq]
  refine readS_forUp_block (fun p _ => poolPass1_pass_writes q e b p) (row_major_lt hy hx)
    (fun z h1 h2 => ?place) (fun t ht => ?value)
  case place =>
    rw [← q.outAt_pixel]
    rw [q.outAt_element] at h1 h2
    exact element_in hc h1 h2
  case value =>
    have hsame : SameBut (q.outBuffer e) m t := ht.mono fun z hz => PoolDesc.batchBuffer_in hb
      (PoolDesc.pixels_in_batch (row_major_lt hy hx).le hz)
    have hout : t.readS (q.outAt e b oy ox c) e = m.readS (q.outAt e b oy ox c) e := ht.readS_after (by
      rw [q.outAt_element e b oy ox c, q.outAt_pixel e b oy ox]
      exact Nat.le_add_right _ _)
    rw [row_major_div _ hx, row_major_mod _ hx, ← hsame.pooled_iff hapart hb hc hout]
    exact pooled_poolWindow he hapart hb hy hx hc

omit hapart hb in
/-- Pass 2 clamps each element of its batch. -/
theorem readS_poolPass2 : (poolPass2 q e b m).readS (q.outAt e b oy ox c) e =
    clip (8 * e) (max q.actMin (min (m.readS (q.outAt e b oy ox c) e) q.actMax)) := by
  rw [q.outAt_in_batch]
  refine readS_forUp_element
    (w := fun k => clip (8 * e) (max q.actMin (min (m.readS (q.outAt e b 0 0 0 + k * e) e) q.actMax)))
    (fun k _ => poolPass2_pass_writes q e b k) (fun k _ t ht => ?_) (row_major_lt (row_major_lt hy hx) hc)
  rw [ht.readS_next, Memory.readS_writeS_sat _ _ he, sat_eq_clip, clamp]

/-- The two passes of each batch: every output element is what pass 1 leaves in it, clamped. -/
theorem readS_maxpoolMem : ∃ v, Pooled m q e b oy ox c v ∧
    (maxpoolMem q e m).readS (q.outAt e b oy ox c) e = clip (8 * e) (max q.actMin (min v q.actMax)) := by
  refine readS_forUp_block
    (P := fun z => ∃ v, Pooled m q e b oy ox c v ∧ z = clip (8 * e) (max q.actMin (min v q.actMax)))
    (fun b _ => maxpoolMem_pass_writes q e b) hb (fun z h1 h2 => ?place) (fun t ht => ?value)
  case place =>
    rw [← q.outAt_batch]
    rw [q.outAt_in_batch] at h1 h2
    exact element_in (row_major_lt (row_major_lt hy hx) hc) h1 h2
  case value =>
    have hsame : SameBut (q.outBuffer e) m t := ht.mono fun z hz => PoolDesc.batches_in_out hb.le hz
    have hout : t.readS (q.outAt e b oy ox c) e = m.readS (q.outAt e b oy ox c) e := ht.readS_after (by
      rw [q.outAt_in_batch e b oy ox c, q.outAt_batch e b]
      exact Nat.le_add_right _ _)
    exact ⟨_, (hsame.pooled_iff hapart hb hc hout _).mp (pooled_poolPass1 he hapart hb hy hx hc),
      readS_poolPass2 he hy hx hc⟩

end

end Sys2Proof.Machine

namespace Sys2Proof.Proofs

open Sys2Proof.Machine

/-- Under its contract `MAXPOOL` completes, and every output element is what pass 1 leaves in it, clamped. -/
theorem exec_maxpool_of_contract {rs1 : Reg} {w : Width} {s : State} {q : PoolDesc}
    (hq : poolDesc s.mem (s.low32 rs1) = q) (hw : w ≠ .w32) (hc : MaxpoolContract s (s.low32 rs1) (bytesOf w)) :
    ∃ t, exec (.maxpool rs1 w) s = .next t ∧ OnlyMemory s t ∧ SameOutside s t [q.outBuffer (bytesOf w)] ∧
      ∀ b oy ox c, b < q.batch.toNat → oy < q.outH → ox < q.outW → c < q.ch →
        ∃ v, Pooled s.mem q (bytesOf w) b oy ox c v ∧ t.mem.readS (q.outAt (bytesOf w) b oy ox c) (bytesOf w) =
          Spec.clip (8 * bytesOf w) (max q.actMin (min v q.actMax)) := by
  subst hq
  exact ⟨_, execMaxpool_eq_next.mpr (.inr (.inr ⟨Width.narrow_of_ne_w32 hw, hc, rfl⟩)), rfl,
    (maxpoolMem_writes _ _).sameOutside s,
    fun b oy ox c hb hy hx hch => readS_maxpoolMem (bytesOf_pos w) hc.inOut hb hy hx hch⟩

/-- Settles O50: the greatest input of a window that has one. -/
theorem maxpoolNonEmptyWindow : Obligations.MaxpoolNonEmptyWindow := by
  intro rs1 w s d q e hw hc
  obtain ⟨t, hexec, honly, hsame, hout⟩ := exec_maxpool_of_contract rfl hw hc
  refine ⟨t, hexec, honly, hsame, fun b oy ox c hb hy hx hch ⟨y, x, hin⟩ => ?_⟩
  obtain ⟨v, hv, hread⟩ := hout b oy ox c hb hy hx hch
  obtain ⟨hmem, hupper⟩ := hv.2 ⟨_, y, x, hin, rfl⟩
  exact ⟨v, hmem, fun y x hin => hupper ⟨y, x, hin, rfl⟩, hread⟩

/-- Settles O51: an element whose window gives no input is only clamped. -/
theorem maxpoolEmptyWindow : Obligations.MaxpoolEmptyWindow := by
  intro rs1 w s d q e hw hc
  obtain ⟨t, hexec, -, -, hout⟩ := exec_maxpool_of_contract rfl hw hc
  refine ⟨t, hexec, fun b oy ox c hb hy hx hch hempty => ?_⟩
  obtain ⟨v, hv, hread⟩ := hout b oy ox c hb hy hx hch
  have hnone : windowInputs s.mem q e b oy ox c = ∅ :=
    Set.eq_empty_of_forall_notMem fun _ ⟨y, x, hin, _⟩ => hempty y x hin
  exact hv.1 hnone ▸ hread

end Sys2Proof.Proofs

/-! PROOF. R251: a command that ends with an error code has changed nothing but `STATUS`. A command that answers a next
state either reports `Success` or is a `raise` on the state before it: no check comes after a write. -/

namespace Sys2Proof.Machine

/-- A command that completes reports `Success`, or it is a `raise` on the state before it (R12, R251). -/
theorem exec_succeeds_or_raises {i : Instr} {s t : State} (h : exec i s = .next t) :
    t.status = .success ∨ s.raise t.status = t := by
  cases i with
  | sat | sadd | ssub | smul | sshl | sshr | requant =>
    cases h
    exact .inl rfl
  | firinit =>
    obtain ⟨-, rfl⟩ := execFirinit_eq_next.mp h
    exact .inl rfl
  | firproc =>
    obtain ⟨-, rfl⟩ := execFirproc_eq_next.mp h
    exact .inl rfl
  | cmag =>
    obtain ⟨-, rfl⟩ := execCmag_eq_next.mp h
    exact .inl rfl
  | atan2 =>
    obtain ⟨-, rfl⟩ | ⟨_, -, rfl⟩ := execAtan2_eq_next.mp h
    · exact .inr rfl
    · exact .inl rfl
  | dwconv =>
    obtain ⟨-, rfl⟩ | ⟨-, -, -, rfl⟩ | ⟨-, -, rfl⟩ := execDwconv_eq_next.mp h
    · exact .inr rfl
    · exact .inr rfl
    · exact .inl rfl
  | maxpool =>
    obtain ⟨-, rfl⟩ | ⟨-, -, -, rfl⟩ | ⟨-, -, rfl⟩ := execMaxpool_eq_next.mp h
    · exact .inr rfl
    · exact .inr rfl
    · exact .inl rfl
  | relu =>
    obtain ⟨-, rfl⟩ | ⟨-, -, rfl⟩ := execRelu_eq_next.mp h
    · exact .inr rfl
    · exact .inl rfl
  | unpack4 =>
    obtain ⟨-, rfl⟩ := execUnpack4_eq_next.mp h
    exact .inl rfl
  | pack4 =>
    obtain ⟨-, rfl⟩ := execPack4_eq_next.mp h
    exact .inl rfl

/-- An issued word that completes reports `Success`, or it is a `raise` on the state before it: a word that does not
decode raises `IllegalCommand` (R94, R251). -/
theorem issue_succeeds_or_raises {w : Word} {s t : State} (h : issue w s = .next t) :
    t.status = .success ∨ s.raise t.status = t := by
  unfold issue at h
  split at h
  · exact exec_succeeds_or_raises h
  · cases h
    exact .inr rfl

end Sys2Proof.Machine

namespace Sys2Proof.Proofs

open Sys2Proof.Machine

/-- Settles O19: a word that did not succeed raised, and `State.raise` updates `STATUS` alone. -/
theorem raiseChangesOnlyStatus : Obligations.RaiseChangesOnlyStatus := fun _ _ _ h herr =>
  ((issue_succeeds_or_raises h).resolve_left herr).symm

end Sys2Proof.Proofs

/-! PROOF. R94 to R96: the decoder and the encoder are inverse to each other, and the reserved encodings are illegal. A
word that matches a row of the table holds zeros in every field that the row's mask covers, so it is the format `C`
word of the row's `OP` and of the fields that the command keeps. -/

namespace Sys2Proof

/-! ## Decoding what was encoded -/

/-- The encoded word of a well-formed command matches the command's row (R94). -/
theorem encode_and_mask {i : Instr} (hwf : i.wf = true) : encode i &&& i.opcode.mask = i.opcode.pattern := by
  cases i with
  | sat => exact Laws.TableRow.sat _ _ _ hwf
  | sadd => exact Laws.TableRow.sadd _ _ _ _ hwf
  | ssub => exact Laws.TableRow.ssub _ _ _ _ hwf
  | smul => exact Laws.TableRow.smul _ _ _ _ _ hwf
  | sshl => exact Laws.TableRow.sshl _ _ _ _ hwf
  | sshr => exact Laws.TableRow.sshr _ _ _ _ hwf
  | requant => exact Laws.TableRow.requant _ _ _ _ _ hwf
  | firinit => exact Laws.TableRow.firinit _ hwf
  | firproc => exact Laws.TableRow.firproc _ _ _ hwf
  | cmag => exact Laws.TableRow.cmag _ _ _ hwf
  | atan2 => exact Laws.TableRow.atan2 _ _ _ hwf
  | dwconv => exact Laws.TableRow.dwconv _ hwf
  | maxpool => exact Laws.TableRow.maxpool _ _ hwf
  | relu => exact Laws.TableRow.relu _ _ _ hwf
  | unpack4 => exact Laws.TableRow.unpack4 _ _ _ hwf
  | pack4 => exact Laws.TableRow.pack4 _ _ _ hwf

/-- The command's row takes every field back from the encoded word (R91, R95). -/
theorem instr_opcode_encode (i : Instr) : i.opcode.instr (encode i) = some i := by
  cases i <;> simp [Instr.opcode, Opcode.instr, encode]

/-! ## Encoding what was decoded -/

/-- Below `OP` the match of a row is zero (R95). -/
theorem Opcode.extractLsb'_pattern (o : Opcode) {lo n : Nat} (h : lo + n ≤ 24) : o.pattern.extractLsb' lo n = 0#n := by
  ext k hk
  rw [BitVec.getElem_extractLsb', Opcode.pattern, BitVec.getLsbD_append, if_pos (by omega)]
  simp

/-- A field that the row's mask covers is zero in every word that matches the row (R94). -/
theorem extractLsb'_eq_zero_of_row {o : Opcode} {w : Word} (hrow : w &&& o.mask = o.pattern) {lo n : Nat}
    (h : lo + n ≤ 24 ∧ o.mask.extractLsb' lo n = BitVec.allOnes n) : w.extractLsb' lo n = 0#n := by
  obtain ⟨hbelow, hmask⟩ := h
  have hfield : (w &&& o.mask).extractLsb' lo n = o.pattern.extractLsb' lo n := by rw [hrow]
  rwa [BitVec.extractLsb'_and, hmask, BitVec.and_allOnes, o.extractLsb'_pattern hbelow] at hfield

/-- The width that `WSEL` names has that `WSEL` (R92). -/
theorem Width.sel_of_ofSel {v : BitVec 2} {x : Width} (h : Width.ofSel v = some x) : x.sel = v := by
  revert v x
  decide

/-- The command that a matching row takes from a word has that word as its encoding: what the command does not hold of
the word is zero there (R94). -/
theorem encode_of_row {o : Opcode} {w : Word} {i : Instr} (hrow : w &&& o.mask = o.pattern)
    (hi : o.instr w = some i) : encode i = w := by
  have hfields := formatC_fields w
  rw [fieldOp_of_row hrow] at hfields
  have hzero := @extractLsb'_eq_zero_of_row o w hrow
  cases o with
  | sat =>
    obtain rfl := Option.some.inj hi
    rwa [fieldRs2, hzero (by decide), fieldRs3, hzero (by decide), fieldWsel, hzero (by decide)] at hfields
  | sadd | ssub | sshl | sshr =>
    obtain ⟨v, hv, rfl⟩ := Option.map_eq_some_iff.mp hi
    rwa [← Width.sel_of_ofSel hv, fieldRs3, hzero (by decide), fieldImm6, hzero (by decide)] at hfields
  | smul =>
    obtain ⟨v, hv, rfl⟩ := Option.map_eq_some_iff.mp hi
    rwa [← Width.sel_of_ofSel hv, fieldRs3, hzero (by decide)] at hfields
  | requant =>
    obtain ⟨v, hv, rfl⟩ := Option.map_eq_some_iff.mp hi
    rwa [← Width.sel_of_ofSel hv, fieldImm6, hzero (by decide)] at hfields
  | firinit | dwconv =>
    obtain rfl := Option.some.inj hi
    rwa [fieldRd, hzero (by decide), fieldRs2, hzero (by decide), fieldRs3, hzero (by decide), fieldWsel,
      hzero (by decide), fieldImm6, hzero (by decide)] at hfields
  | firproc | cmag | unpack4 | pack4 =>
    obtain rfl := Option.some.inj hi
    rwa [fieldRd, hzero (by decide), fieldWsel, hzero (by decide), fieldImm6, hzero (by decide)] at hfields
  | atan2 =>
    obtain rfl := Option.some.inj hi
    rwa [fieldRs3, hzero (by decide), fieldWsel, hzero (by decide), fieldImm6, hzero (by decide)] at hfields
  | maxpool =>
    obtain ⟨v, hv, rfl⟩ := Option.map_eq_some_iff.mp hi
    rwa [← Width.sel_of_ofSel hv, fieldRd, hzero (by decide), fieldRs2, hzero (by decide), fieldRs3,
      hzero (by decide), fieldImm6, hzero (by decide)] at hfields
  | relu =>
    obtain ⟨v, hv, rfl⟩ := Option.map_eq_some_iff.mp hi
    rwa [← Width.sel_of_ofSel hv, fieldRd, hzero (by decide), fieldRs3, hzero (by decide), fieldImm6,
      hzero (by decide)] at hfields

/-! ## Reserved encodings (R96) -/

/-- No two rows share `OP` (R95). -/
theorem Opcode.byte_injective {o o' : Opcode} (h : o.byte = o'.byte) : o = o' :=
  Option.some.inj (by rw [← Opcode.ofByte_byte o, h, Opcode.ofByte_byte])

/-- A row that does not use `WSEL` with three values holds bit 7 of the word clear (R94). -/
theorem Opcode.mask_seven_of_not_usesThreeWidths {o : Opcode} (h : o.usesThreeWidths = false) :
    o.mask.getLsbD 7 = true := by
  revert h
  cases o <;> decide

end Sys2Proof

namespace Sys2Proof.Machine

section
variable {w : Word}

/-- A word whose `OP` no row has is illegal. -/
theorem illegal_of_reserved_opcode (h : ∀ o : Opcode, fieldOp w ≠ o.byte) : Spec.Illegal w := by
  refine illegal_of_not_exists_decode fun hlegal => ?_
  obtain ⟨o, hrow, -⟩ := (exists_decode_eq_ok_iff w).mp hlegal
  exact h o (fieldOp_of_row hrow)

/-- A word of a row that does not match the row is illegal. -/
theorem illegal_of_not_row {o : Opcode} (hop : fieldOp w = o.byte) (h : w &&& o.mask ≠ o.pattern) :
    Spec.Illegal w := by
  refine illegal_of_not_exists_decode fun hlegal => ?_
  obtain ⟨o', hrow, -⟩ := (exists_decode_eq_ok_iff w).mp hlegal
  obtain rfl := Opcode.byte_injective (hop.symm.trans (fieldOp_of_row hrow))
  exact h hrow

theorem illegal_of_unused_field {o : Opcode} (hop : fieldOp w = o.byte)
    (h : w &&& (o.mask &&& 0x00FFFFFF#32) ≠ 0#32) : Spec.Illegal w := by
  have hpattern : o.pattern &&& 0x00FFFFFF#32 = 0#32 := by cases o <;> decide
  refine illegal_of_not_row hop fun hrow => h ?_
  rw [← BitVec.and_assoc, hrow, hpattern]

theorem illegal_of_wsel_three (h : fieldWsel w = 3#2) : Spec.Illegal w := by
  refine illegal_of_not_exists_decode fun hlegal => ?_
  obtain ⟨o, hrow, hwsel⟩ := (exists_decode_eq_ok_iff w).mp hlegal
  cases hthree : o.usesThreeWidths with
  | false => exact fieldWsel_ne_three_of_row (Opcode.mask_seven_of_not_usesThreeWidths hthree) hrow h
  | true => exact hwsel hthree h

/-- `WSEL = 2` sets bit 7, which the two narrow rows hold clear. -/
theorem illegal_of_wide {o : Opcode} (hop : fieldOp w = o.byte) (hmask : o.mask.getLsbD 7 = true)
    (h : fieldWsel w = 2#2) : Spec.Illegal w := by
  refine illegal_of_not_row hop fun hrow => ?_
  have hbit : (fieldWsel w).getLsbD 1 = w.getLsbD 7 := by simp [fieldWsel]
  rw [getLsbD_seven_of_row hmask hrow, h] at hbit
  exact absurd hbit (by decide)

end

/-- The reserved opcodes are those that no row has (R96). -/
theorem ne_byte_of_reserved {b : BitVec 8}
    (h : b = 0x00#8 ∨ (0x08#8 ≤ b ∧ b ≤ 0x0F#8) ∨ (0x12#8 ≤ b ∧ b ≤ 0x1F#8) ∨ (0x22#8 ≤ b ∧ b ≤ 0x2F#8) ∨
      (0x35#8 ≤ b ∧ b ≤ 0xFF#8)) (o : Opcode) : b ≠ o.byte := by
  rintro rfl
  revert h
  cases o <;> decide

end Sys2Proof.Machine

namespace Sys2Proof.Proofs

open Sys2Proof.Machine

/-- Settles O1: the encoded word matches the command's row, and the row takes the command back from it. -/
theorem decodeInvertsEncode : Obligations.DecodeInvertsEncode := fun i hwf =>
  decode_eq_ok_iff.mpr ⟨i.opcode, encode_and_mask hwf, instr_opcode_encode i⟩

/-- Settles O2: the row that the word matches holds zeros wherever the command keeps nothing. -/
theorem encodeInvertsDecode : Obligations.EncodeInvertsDecode := fun w i h => by
  obtain ⟨o, hrow, hi⟩ := decode_eq_ok_iff.mp h
  exact ⟨wf_of_row hrow hi, encode_of_row hrow hi⟩

/-- Settles O4: a clause for each kind of reserved encoding; the last two words have reserved opcodes. -/
theorem reservedWordsRaiseIllegalCommand : Obligations.ReservedWordsRaiseIllegalCommand := by
  refine ⟨fun w hop => ?opcode, fun w o hop hfield => ?unused, fun w hwsel => ?wsel, fun w hop hwsel => ?wide,
    ?zeros, ?ones⟩
  case opcode => exact illegal_of_reserved_opcode (ne_byte_of_reserved hop)
  case unused => exact illegal_of_unused_field hop hfield
  case wsel => exact illegal_of_wsel_three hwsel
  case wide =>
    obtain hop | hop := hop
    · exact illegal_of_wide (o := .maxpool) hop (by decide) hwsel
    · exact illegal_of_wide (o := .relu) hop (by decide) hwsel
  case zeros => exact illegal_of_reserved_opcode (ne_byte_of_reserved (by decide))
  case ones => exact illegal_of_reserved_opcode (ne_byte_of_reserved (by decide))

/-- Settles O5: by decoding the words. -/
theorem specWordsDecode : Obligations.SpecWordsDecode := by
  unfold Obligations.SpecWordsDecode
  decide

end Sys2Proof.Proofs

/-! PROOF. R12, R21, R60, R61, R65, R251, R265: how a command can end, and what a step can change. A command that
answers a next state has raised a code, written its one register, or rewritten memory within the buffers of its contract; the
host's transactions write memory within the bytes they name. Every invariant of a step is read off these two. -/

namespace Sys2Proof.Machine

/-! ## The ends of a command -/

/-- How the command `i` can end from `s` (R12). -/
inductive CommandEnd (i : Instr) (s : State) : State → Prop where
  | raised (c : Status) : CommandEnd i s (s.raise c)
  | register (rd : Reg) (v : Int) (hdest : destOf i = some rd) : CommandEnd i s (s.finishX rd v)
  | memory (g : Memory → Memory) (hdest : destOf i = none) (hg : WritesIn s.Exists g) :
      CommandEnd i s (s.finishMem (g s.mem))

/-- Writing a usable buffer only writes bytes that exist. -/
theorem WritesIn.exists_of_usable {s : State} {align : Nat} {b : Buffer} {g : Memory → Memory}
    (hg : WritesIn b.Holds g) (hb : s.Usable align b) : WritesIn s.Exists g :=
  hg.mono fun _ hx => hb.exists hx

/-- A byte of a buffer is a byte of every buffer that reaches as far on both sides. -/
theorem Buffer.Holds.within {b c : Buffer} {x : Nat} (h : b.Holds x) (hbase : c.base ≤ b.base)
    (hend : b.base + b.size ≤ c.base + c.size) : c.Holds x :=
  ⟨hbase.trans h.1, h.2.trans_le hend⟩

/-- `FIRINIT` writes bytes that exist: the state buffer and the record's word `PHASE`. -/
theorem FirinitContract.writes {s : State} {d : Nat} (hc : FirinitContract s d) :
    WritesIn s.Exists (firinitMem (firRecord s.mem d) d) := by
  refine (firinitMem_writes _ d).mono fun x hx => ?_
  obtain hstate | hphase := hx
  · exact hc.state.exists hstate
  · exact hc.rest.exists (hphase.within (Nat.add_le_add_left (by decide) d) le_rfl)

/-- `FIRPROC` writes bytes that exist: the state buffer, the output block and the record's word `PHASE`. -/
theorem FirprocContract.writes {s : State} {d inp out : Nat} (hc : FirprocContract s d inp out) (r : Rounding) :
    WritesIn s.Exists (firprocMem r (firRecord s.mem d) d inp out) := by
  refine (firprocMem_writes r _ d inp out).mono fun x hx => ?_
  obtain hstate | hout | hphase := hx
  · exact hc.state.exists hstate
  · exact hc.output.exists hout
  · exact hc.record.exists (hphase.within (Nat.le_add_right d _) (Nat.add_le_add_left (show 0x18 + 4 ≤ 32 by decide) d))

/-- A command that answers a next state has ended in one of the three ways. -/
theorem exec_end {i : Instr} {s t : State} (h : exec i s = .next t) : CommandEnd i s t := by
  cases i with
  | sat | sadd | ssub | smul | sshl | sshr | requant =>
    obtain rfl := Host.Outcome.next.inj h
    exact .register _ _ rfl
  | firinit =>
    obtain ⟨hc, rfl⟩ := execFirinit_eq_next.mp h
    exact .memory _ rfl hc.writes
  | firproc =>
    obtain ⟨hc, rfl⟩ := execFirproc_eq_next.mp h
    exact .memory _ rfl (hc.writes s.rnd)
  | cmag =>
    obtain ⟨hc, rfl⟩ := execCmag_eq_next.mp h
    exact .memory _ rfl ((cmagMem_writes ..).exists_of_usable hc.dest)
  | atan2 =>
    obtain ⟨-, rfl⟩ | ⟨_, -, rfl⟩ := execAtan2_eq_next.mp h
    · exact .raised _
    · exact .register _ _ rfl
  | dwconv =>
    obtain ⟨-, rfl⟩ | ⟨-, -, -, rfl⟩ | ⟨-, hc, rfl⟩ := execDwconv_eq_next.mp h
    · exact .raised _
    · exact .raised _
    · exact .memory _ rfl ((dwconvMem_writes ..).exists_of_usable hc.output)
  | maxpool =>
    obtain ⟨-, rfl⟩ | ⟨-, -, -, rfl⟩ | ⟨-, hc, rfl⟩ := execMaxpool_eq_next.mp h
    · exact .raised _
    · exact .raised _
    · exact .memory _ rfl ((maxpoolMem_writes ..).exists_of_usable hc.output)
  | relu =>
    obtain ⟨-, rfl⟩ | ⟨-, hc, rfl⟩ := execRelu_eq_next.mp h
    · exact .raised _
    · exact .memory _ rfl ((reluMem_writes ..).exists_of_usable hc)
  | unpack4 =>
    obtain ⟨hc, rfl⟩ := execUnpack4_eq_next.mp h
    exact .memory _ rfl ((unpackMem_writes ..).exists_of_usable hc.dest)
  | pack4 =>
    obtain ⟨hc, rfl⟩ := execPack4_eq_next.mp h
    exact .memory _ rfl ((packMem_writes ..).exists_of_usable hc.dest)

/-! ## What a transaction and a step can change -/

/-- Of memory and the parameters, `t` differs from `s` at most in bytes that exist; the host's queue is as it was. -/
structure WritesExisting (s t : State) : Prop where
  plat : t.plat = s.plat
  queue : t.queue = s.queue
  mem : ∃ g, WritesIn s.Exists g ∧ t.mem = g s.mem

/-- A change that leaves memory alone. -/
theorem WritesExisting.of_same_mem {s t : State} (hplat : t.plat = s.plat) (hqueue : t.queue = s.queue)
    (hmem : t.mem = s.mem) : WritesExisting s t :=
  ⟨hplat, hqueue, _, WritesIn.skip, hmem⟩

theorem CommandEnd.writesExisting {i : Instr} {s t : State} (h : CommandEnd i s t) : WritesExisting s t := by
  cases h with
  | raised c => exact .of_same_mem rfl rfl rfl
  | register rd v => exact .of_same_mem rfl rfl rfl
  | memory g _ hg => exact ⟨rfl, rfl, g, hg, rfl⟩

theorem issue_writesExisting {w : Word} {s t : State} (h : issue w s = .next t) : WritesExisting s t := by
  unfold issue at h
  split at h
  · exact (exec_end h).writesExisting
  · cases h
    exact .of_same_mem rfl rfl rfl

/-- A write to `CMD` issues the word (R25). -/
theorem hostStep_issue (v : Word) (s : State) : hostStep (.writeCsr 0#6 v) s = issue v (s.withReply .done) := rfl

/-- A write to any other control register number. -/
theorem hostStep_writeCsr {n : BitVec 6} (hn : n ≠ 0#6) (v : Word) (s : State) :
    hostStep (.writeCsr n v) s = .next ((s.writeCsr n v).withReply .done) := if_neg hn

theorem hostStep_writesExisting {txn : HostTxn} {s t : State} (h : hostStep txn s = .next t) : WritesExisting s t := by
  cases txn with
  | writeReg | readReg | readCsr | reset =>
    cases h
    exact .of_same_mem rfl rfl rfl
  | writeCsr n v =>
    obtain rfl | hn := eq_or_ne n 0#6
    · obtain ⟨hplat, hqueue, hmem⟩ := issue_writesExisting ((hostStep_issue v s).symm.trans h)
      exact ⟨hplat, hqueue, hmem⟩
    · cases (hostStep_writeCsr hn v s).symm.trans h
      obtain ⟨-, -, hmem, hplat, hqueue, -⟩ := s.writeCsr_frame n v
      exact .of_same_mem hplat hqueue hmem
  | memWrite a n v =>
    obtain ⟨hexists, hnext⟩ := unlessStop_eq_next.mp h
    cases hnext
    have hbytes := (s.existStop_eq_none _).mp hexists
    exact ⟨rfl, rfl, _, WritesIn.write (fun _ => v) fun x h1 h2 => hbytes x ⟨h1, h2⟩, rfl⟩
  | memRead a n =>
    obtain ⟨-, hnext⟩ := unlessStop_eq_next.mp h
    cases hnext
    exact .of_same_mem rfl rfl rfl

/-- A step changes at most bytes that exist, and takes one transaction off the queue (R14, R262). -/
theorem step_writesExisting {s t : State} (h : step s = .next t) : WritesExisting s.popped t := by
  unfold step at h
  split at h
  next hidle =>
    cases h
    exact .of_same_mem rfl (by rw [State.popped_queue, hidle, List.tail_nil]) rfl
  next => exact hostStep_writesExisting h

/-! ## What a step keeps -/

/-- A byte that does not exist keeps its value. -/
theorem WritesExisting.readByte {s t : State} (h : WritesExisting s t) {a : Nat} (ha : ¬ s.Exists a) :
    t.mem.readByte a = s.mem.readByte a := by
  obtain ⟨g, hg, hmem⟩ := h.mem
  rw [hmem, hg.bytes _ a ha]

theorem WritesExisting.inv {s t : State} (h : WritesExisting s t) (hs : Inv s) : Inv t := by
  obtain ⟨g, hg, hmem⟩ := h.mem
  refine ⟨?_, ?_, h.plat ▸ hs.legal⟩
  · rw [hmem]
    exact hg.wf _ hs.wf
  · rw [hmem]
    exact hg.space (fun _ hx => hx.1) _ hs.space

end Sys2Proof.Machine

namespace Sys2Proof.Proofs

open Sys2Proof.Machine

/-- Settles O16: a step writes bytes that exist, which are below 2^32, and leaves the parameters. -/
theorem stepKeepsInvariant : Obligations.StepKeepsInvariant := fun s _ hs h =>
  (step_writesExisting h).inv (s := s.popped) ⟨hs.wf, hs.space, hs.legal⟩

/-- Settles O17: a step writes bytes that exist only. -/
theorem stepWritesExistingBytesOnly : Obligations.StepWritesExistingBytesOnly := fun _ _ _ h ha =>
  (step_writesExisting h).readByte ha

/-- Settles O18: a step leaves the parameters, all that `CAP` reads. -/
theorem stepKeepsParameters : Obligations.StepKeepsParameters := by
  intro s t h
  obtain ⟨hplat, hqueue, -⟩ := step_writesExisting h
  refine ⟨hplat, hqueue, ?_⟩
  change t.capWord = s.capWord
  rw [State.capWord, hplat, State.popped_plat, State.capWord]

/-- Settles O21: by how the command ended. -/
theorem commandFrame : Obligations.CommandFrame := by
  intro i s t h
  cases exec_end h with
  | raised c => exact ⟨fun _ _ => rfl, fun _ _ => rfl, rfl, rfl, rfl, rfl, rfl, rfl⟩
  | register rd v hdest =>
    refine ⟨fun r hr => ?_, fun _ _ => rfl, rfl, rfl, rfl, rfl, rfl, rfl⟩
    exact s.getX_setX_ne _ fun hrd => hr (hrd ▸ hdest)
  | memory g hdest => exact ⟨fun _ _ => rfl, fun hne => absurd hdest hne, rfl, rfl, rfl, rfl, rfl, rfl⟩

end Sys2Proof.Proofs

/-! PROOF. R180, R181, R184 to R186: `ATAN2` off its axes. The partial results of the Horner evaluation are the only
ones R185 allows, and each pass adds at most `2^15` in magnitude, since the ratio is below 1. The angle is the model's
undoing of the reduction with each saturation written as the clamp. -/

namespace Sys2Proof.Machine

open Sys2Proof.Spec

/-! ## The polynomial (R185) -/

section
variable (r : Rounding) (c : Vector (BitVec 16) 10) (ratio : Int)

/-- The partial result of the Horner evaluation after `k` passes. -/
def atanPartial (k : Nat) : Int :=
  forUp k (fun k res => rndShr r (ratio * res) 15 + atanCoefOf c (8 - k)) (atanCoefOf c 9)

theorem atanPartial_succ (k : Nat) :
    atanPartial r c ratio (k + 1) = rndShr r (ratio * atanPartial r c ratio k) 15 + atanCoefOf c (8 - k) := rfl

theorem atanPoly_eq : atanPoly r c ratio = clip 16 (rndShr r (atanPartial r c ratio 9) 2) := sat_eq_clip 16 _

theorem coef_eq {i : Nat} (hi : i < 10) : coef c i = atanCoefOf c i := by
  simp [coef, atanCoefOf, Vector.getD, hi, Vector.get_eq_getElem]

variable {r c ratio}

/-- The partial results are those of R185, and no others are: rounding leaves no choice. -/
theorem horner_iff {res : Nat → Int} : Horner r c ratio res ↔ ∀ k, k ≤ 9 → res k = atanPartial r c ratio k := by
  constructor
  · rintro ⟨hfirst, hpass⟩ k hk
    induction k with
    | zero => rw [hfirst, coef_eq c (by decide)]; rfl
    | succ k ih =>
      have hround := (roundsTo_iff r _ 15 _).mp (hpass k hk)
      rw [ih (by omega), coef_eq c (by omega)] at hround
      rw [atanPartial_succ, ← hround, sub_add_cancel]
  · intro h
    refine ⟨(h 0 (by decide)).trans (coef_eq c (by decide)).symm, fun k hk => (roundsTo_iff r _ 15 _).mpr ?_⟩
    rw [h k hk.le, h (k + 1) hk, coef_eq c (by omega), atanPartial_succ, add_sub_cancel_right]

/-- A coefficient is a signed value of 16 bits (R32). -/
theorem abs_atanCoefOf_le (c : Vector (BitVec 16) 10) (i : Nat) : |atanCoefOf c i| ≤ 2 ^ 15 :=
  abs_le.mpr ⟨BitVec.le_toInt _, BitVec.toInt_le.trans (by decide)⟩

/-- A product with a ratio below 1, rounded, is not greater in magnitude than the other factor. -/
theorem abs_rndShr_mul_le (hge : 0 ≤ ratio) (hle : ratio ≤ 32767) (v : Int) : |rndShr r (ratio * v) 15| ≤ |v| := by
  obtain ⟨hup, hdown⟩ := rndShr_near r (ratio * v) 15
  obtain ⟨hlo, hhi⟩ := abs_le.mp (le_refl |v|)
  have hprod : |ratio * v| ≤ 32767 * |v| := by
    rw [abs_mul, abs_of_nonneg hge]
    exact mul_le_mul_of_nonneg_right hle (abs_nonneg v)
  obtain ⟨hplo, hphi⟩ := abs_le.mp hprod
  exact abs_le.mpr ⟨by omega, by omega⟩

theorem abs_atanPartial_le (hge : 0 ≤ ratio) (hle : ratio ≤ 32767) (k : Nat) :
    |atanPartial r c ratio k| ≤ (k + 1) * 2 ^ 15 := by
  induction k with
  | zero => simpa [atanPartial] using abs_atanCoefOf_le c 9
  | succ k ih =>
    calc |atanPartial r c ratio (k + 1)|
        ≤ |rndShr r (ratio * atanPartial r c ratio k) 15| + |atanCoefOf c (8 - k)| := abs_add_le _ _
      _ ≤ (k + 1) * 2 ^ 15 + 2 ^ 15 := add_le_add ((abs_rndShr_mul_le hge hle _).trans ih) (abs_atanCoefOf_le c _)
      _ = ((k + 1 : Nat) + 1) * 2 ^ 15 := by push_cast; ring

theorem atanPoly_spec (r : Rounding) (c : Vector (BitVec 16) 10) (ratio : Int) :
    AtanPoly r c ratio (atanPoly r c ratio) :=
  ⟨_, horner_iff.mpr fun _ _ => rfl, _, (roundsTo_iff _ _ _ _).mpr rfl, atanPoly_eq r c ratio⟩

end

/-! ## The angle (R180, R186) -/

theorem clip_sixteen (v : Int) : clip 16 v = max (-32768) (min 32767 v) := rfl

/-- The model's undoing of the reduction, in the specification's words. -/
theorem angle_eq (y x : Int) (swap : Prop) [Decidable swap] (p : Int) :
    angle y x swap p = atanUnreduce y x (if swap then clip 16 (12868 - p) else p) := by
  simp only [angle, atanUnreduce, sat_eq_clip, piQ13]

/-- Undoing the reduction stays within 16 bits. -/
theorem atanUnreduce_bounds (y x : Int) {a : Int} (hge : -32768 ≤ a) (hle : a ≤ 32767) :
    -32768 ≤ atanUnreduce y x a ∧ atanUnreduce y x a ≤ 32767 := by
  simp only [atanUnreduce, sat_eq_clip, clip_sixteen]
  split_ifs <;> omega

theorem angle_bounds (y x : Int) (swap : Prop) [Decidable swap] {p : Int} (hge : -32768 ≤ p) (hle : p ≤ 32767) :
    -32768 ≤ angle y x swap p ∧ angle y x swap p ≤ 32767 := by
  rw [angle_eq]
  refine atanUnreduce_bounds y x ?_ ?_
  all_goals rw [clip_sixteen]; split <;> omega

/-- With the polynomial's value within `0 .. PIHALF_Q13` no saturation acts, so the angle is by quadrant (R186). -/
theorem angle_of_mem {y x p : Int} (swap : Prop) [Decidable swap] (hx : x ≠ 0) (hy : y ≠ 0 ∨ x > 0) (hge : 0 ≤ p)
    (hle : p ≤ 12868) :
    let a0 := if swap then 12868 - p else p
    angle y x swap p =
      if x > 0 then (if y < 0 then -a0 else a0) else (if y > 0 then 25736 - a0 else a0 - 25736) := by
  have hin : clip 16 (12868 - p) = 12868 - p := by rw [clip_sixteen]; omega
  simp only [angle_eq, hin]
  generalize ha : (if swap then 12868 - p else p) = a
  have ha0 : 0 ≤ a ∧ a ≤ 12868 := by split at ha <;> omega
  simp only [atanUnreduce, sat_eq_clip, clip_sixteen, piQ13]
  split_ifs <;> omega

/-! ## The general path of `ATAN2` (R180, R181, R184) -/

/-- The magnitude of a 16-bit operand, the least one saturating (R181). -/
theorem atanAbs_eq_min {v : Int} (hle : v ≤ 32767) : atanAbs v = ((min 32767 v.natAbs : Nat) : Int) := by
  simp only [atanAbs, sat_eq_clip, clip_sixteen]
  split <;> omega

/-- The first-octant angle, from the ratio of the smaller magnitude to the greater. -/
theorem atanOctant_eq (r : Rounding) (c : Vector (BitVec 16) 10) (ay ax : Nat) :
    atanOctant r c ay ax =
      let p := atanPoly r c ((min 32767 (if ax < ay then ax * 32768 / ay else ay * 32768 / ax) : Nat) : Int)
      if ax < ay then clip 16 (12868 - p) else p := by
  simp only [atanOctant, gt_iff_lt, Int.toNat_natCast, Nat.cast_lt]
  split
  next hlt => rw [atanRatio_eq_min hlt.le, sat_eq_clip]; rfl
  next hge => rw [atanRatio_eq_min (not_lt.mp hge)]; rfl

/-- Off the `y` axis and the negative `x` axis. -/
theorem atan2Angle_general (r : Rounding) (c : Vector (BitVec 16) 10) {y x : Int} (hx : x ≠ 0) (hy : y ≠ 0 ∨ x > 0) :
    atan2Angle r c y x = some (atanUnreduce y x (atanOctant r c (atanAbs y) (atanAbs x))) := by
  have haxis : ¬ (y = 0 ∧ x < 0) := by omega
  simp [atan2Angle, hx, haxis]

/-- An operand of 16 bits (R120). -/
theorem low_sixteen_le (v : XWord) : low 16 v ≤ 32767 := by
  obtain ⟨-, hlt⟩ := two_mul_low_bounds 16 v
  omega

end Sys2Proof.Machine

namespace Sys2Proof.Proofs

open Sys2Proof.Machine

/-- Settles O37: the partial results are the model's own, and the tenth is at most `10 * 2^15`. -/
theorem atanPolyPartialsBounded : Obligations.AtanPolyPartialsBounded := by
  intro r c ratio hge hle
  refine ⟨atanPoly_spec r c ratio, fun res hres => ⟨fun k hk => ?_, fun q hq => ?_⟩⟩
  · rw [horner_iff.mp hres k hk]
    refine (abs_atanPartial_le hge hle k).trans_lt ?_
    have hk' : (k : Int) ≤ 9 := by exact_mod_cast hk
    omega
  · rw [atanPoly_eq, (roundsTo_iff r _ 2 q).mp hq, horner_iff.mp hres 9 le_rfl]

/-- Settles O35: the general path of the model, its magnitudes and its ratio in the specification's words. -/
theorem atan2Quadrants : Obligations.Atan2Quadrants := by
  intro rd rs1 rs2 s y x ay ax ratio hx hy
  refine ⟨_, atanPoly_spec s.rnd s.atanCoef ratio, ?_, fun hge hle => angle_of_mem _ hx hy hge hle⟩
  refine exec_atan2_of_angle rd rfl rfl ?_
  rw [atan2Angle_general _ _ hx hy, atanAbs_eq_min (low_sixteen_le _), atanAbs_eq_min (low_sixteen_le _),
    atanOctant_eq, angle_eq]

/-- Settles O34: on the axes by O33, elsewhere by O35 and the range of the angle. -/
theorem atan2CompletesOffOrigin : Obligations.Atan2CompletesOffOrigin := by
  intro rd rs1 rs2 s hne
  obtain ⟨hup, hdown, hleft, -⟩ := atan2Axes rd rs1 rs2 s
  by_cases hx : Spec.low 16 (s.getX rs2) = 0
  · obtain hy | hy := lt_or_gt_of_ne (hne.resolve_right (not_not.mpr hx))
    · exact ⟨_, by decide, by decide, hdown hx hy⟩
    · exact ⟨_, by decide, by decide, hup hx hy⟩
  by_cases hy : Spec.low 16 (s.getX rs1) ≠ 0 ∨ Spec.low 16 (s.getX rs2) > 0
  · obtain ⟨p, ⟨_, _, q, _, hp⟩, hexec, -⟩ := atan2Quadrants rd rs1 rs2 s hx hy
    have hrange : -32768 ≤ p ∧ p ≤ 32767 := by rw [hp, clip_sixteen]; omega
    refine ⟨_, ?_, ?_, hexec⟩
    · exact (angle_bounds _ _ _ hrange.1 hrange.2).1
    · exact (angle_bounds _ _ _ hrange.1 hrange.2).2
  · obtain ⟨hy0, hxneg⟩ := not_or.mp hy
    exact ⟨_, by decide, by decide, hleft (lt_of_le_of_ne (not_lt.mp hxneg) hx) (not_not.mp hy0)⟩

end Sys2Proof.Proofs

/-! PROOF. R170 to R176: `CMAG`. Its loop stores one value per pass, computed from a source apart from the destination,
and `mag` is the specification's formula over the same four functions. R13: the block commands and the tensor kernels
complete exactly under their contracts, which their equations say. -/

namespace Sys2Proof.Machine

open Sys2Proof.Spec

/-! ## Loops that store elements, read as unsigned values -/

/-- The loop rule `readS_forUp_element` for the unsigned read of an element: a read of `b` bytes is below `256 ^ b`, so
the signed read determines it. -/
theorem read_forUp_element {f : Nat → Memory → Memory} {base b n : Nat}
    (hf : ∀ k, k < n → WritesIn (⟨base + k * b, b⟩ : Buffer).Holds (f k)) {m : Memory} {w : Nat → Nat}
    (hw : ∀ k, k < n → ∀ t, SameBut ⟨base, k * b⟩ m t → (f k t).read (base + k * b) b = w k)
    {k : Nat} (hk : k < n) : (forUp n f m).read (base + k * b) b = w k := by
  have hsigned := readS_forUp_element hf (w := fun k => sext (8 * b) (w k))
    (fun k hk t ht => by rw [Memory.readS, hw k hk t ht]) hk
  have hlt : w k < 2 ^ (8 * b) := by
    rw [← hw k hk m fun _ _ => rfl, Nat.pow_mul]
    exact Memory.read_lt _ _ _
  rw [← Memory.toNat_ofInt_readS, hsigned, sext, BitVec.ofInt_toInt, BitVec.toNat_ofNat, Nat.mod_eq_of_lt hlt]

/-! ## The formula (R173 to R176) -/

/-- A loop whose body does not look at the counter is an iteration. -/
theorem forUp_eq_iterate {σ : Type} (n : Nat) (g : σ → σ) (s : σ) : forUp n (fun _ => g) s = g^[n] s := by
  induction n with
  | zero => rfl
  | succ n ih => rw [forUp_succ, ih, Function.iterate_succ_apply']

/-- The seed's subtraction wraps at 32 bits (R174). -/
theorem magSeed_eq (magic sum : Word) :
    magSeed magic sum = BitVec.ofNat 32 ((magic.toNat + (2 ^ 32 - sum.toNat / 2)) % 2 ^ 32) := by
  apply BitVec.eq_of_toNat_eq
  have hsum := sum.isLt
  rw [magSeed, BitVec.toNat_sub, BitVec.toNat_ushiftRight, Nat.shiftRight_eq_div_pow, BitVec.toNat_ofNat]
  omega

theorem mag_eq_magWith (f : F32Ops) (magic re im : Word) (k : Nat) :
    mag f magic re im k = magWith f.add f.sub f.mul f.lt0 magic re im k := by
  rw [mag, magWith, forUp_eq_iterate, magSeed_eq]
  rfl

/-- The numerics that the platform is configured with (R178). -/
theorem mag_numericsOf (p : Numerics) (magic re im : Word) (k : Nat) :
    mag (numericsOf p) magic re im k = Spec.mag p magic re im k := by
  cases p with
  | ieeeDefault => exact mag_eq_magWith ieeeF32 magic re im k
  | configured => exact mag_eq_magWith configuredF32 magic re im k

/-! ## The loop (R171, R172) -/

theorem cmagMem_pass_writes (dst i : Nat) (v : Memory → Nat) :
    WritesIn (⟨dst + i * 4, 4⟩ : Buffer).Holds (fun m => m.write (dst + 4 * i) 4 (v m)) := by
  rw [Nat.mul_comm 4 i]
  exact WritesIn.write v fun _ h1 h2 => ⟨h1, h2⟩

/-- Each pass finds both words of its sample as they were: the source is apart from the destination. -/
theorem read_cmagMem (f : F32Ops) (magic : Word) (lanes : Nat) {src dst n : Nat} {m : Memory}
    (hapart : Buffer.Apart ⟨src, 8 * n⟩ ⟨dst, 4 * n⟩) {i : Nat} (hi : i < n) :
    (cmagMem f magic lanes src dst n m).read (dst + 4 * i) 4 =
      (mag f magic (BitVec.ofNat 32 (m.read (src + 8 * i) 4)) (BitVec.ofNat 32 (m.read (src + 8 * i + 4) 4))
        (magIters lanes i n)).toNat := by
  have hvalue (v : Word) : v.toNat % 256 ^ 4 = v.toNat := Nat.mod_eq_of_lt v.isLt
  rw [Nat.mul_comm 4 i]
  refine read_forUp_element (fun k _ => cmagMem_pass_writes dst k _)
    (w := fun i => (mag f magic (BitVec.ofNat 32 (m.read (src + 8 * i) 4))
      (BitVec.ofNat 32 (m.read (src + 8 * i + 4) 4)) (magIters lanes i n)).toNat) (fun k hk t ht => ?_) hi
  have hdest : SameBut ⟨dst, 4 * n⟩ m t := ht.mono fun x hx => hx.within le_rfl (by simp only; omega)
  have hre : t.read (src + 8 * k) 4 = m.read (src + 8 * k) 4 :=
    hdest.read_apart hapart fun x h1 h2 => ⟨by simp only; omega, by simp only; omega⟩
  have him : t.read (src + 8 * k + 4) 4 = m.read (src + 8 * k + 4) 4 :=
    hdest.read_apart hapart fun x h1 h2 => ⟨by simp only; omega, by simp only; omega⟩
  rw [hre, him, Nat.mul_comm 4 k, Memory.read_write_same, hvalue]

end Sys2Proof.Machine

namespace Sys2Proof.Proofs

open Sys2Proof.Machine

/-- Settles O38: the value of each pass, in the specification's words. -/
theorem cmagCompletes : Obligations.CmagCompletes := by
  intro rs1 rs2 rs3 s hc
  refine ⟨_, execCmag_eq_next.mpr ⟨hc, rfl⟩, rfl, (cmagMem_writes ..).sameOutside s, fun i hi => ?_⟩
  rw [State.finishMem_mem, read_cmagMem _ _ _ hc.apart hi, mag_numericsOf, magIters]

/-- Settles O57: each command's equation has its contract in it. -/
theorem blockContractsDecide : Obligations.BlockContractsDecide := by
  refine ⟨fun rs1 rs2 rs3 s => ?cmag, fun rs1 rs2 w s hw => ?relu, fun rs1 rs2 rs3 s => ?unpack4,
    fun rs1 rs2 rs3 s => ?pack4⟩
  case cmag => exact ⟨fun ⟨_, h⟩ => (execCmag_eq_next.mp h).1, fun hc => ⟨_, execCmag_eq_next.mpr ⟨hc, rfl⟩⟩⟩
  case relu =>
    have hnarrow := Width.narrow_of_ne_w32 hw
    refine ⟨fun ⟨_, h⟩ => ?_, fun hc => ⟨_, execRelu_eq_next.mpr (.inr ⟨hnarrow, hc, rfl⟩)⟩⟩
    obtain ⟨hwide, -⟩ | ⟨-, hc, -⟩ := execRelu_eq_next.mp h
    · simp [hnarrow] at hwide
    · exact hc
  case unpack4 =>
    exact ⟨fun ⟨_, h⟩ => (execUnpack4_eq_next.mp h).1, fun hc => ⟨_, execUnpack4_eq_next.mpr ⟨hc, rfl⟩⟩⟩
  case pack4 => exact ⟨fun ⟨_, h⟩ => (execPack4_eq_next.mp h).1, fun hc => ⟨_, execPack4_eq_next.mpr ⟨hc, rfl⟩⟩⟩

/-- Settles O58: the ends of the two commands, the contract being one of them. -/
theorem tensorContractsDecide : Obligations.TensorContractsDecide := by
  refine ⟨fun rs1 s => ⟨fun ⟨_, h⟩ => ?dwconvOnly, fun h => ?dwconvIf⟩,
    fun rs1 w s hw => ⟨fun ⟨_, h⟩ => ?maxpoolOnly, fun h => ?maxpoolIf⟩⟩
  case dwconvOnly =>
    obtain ⟨hvec, -⟩ | ⟨-, hdesc, hbatch, -⟩ | ⟨-, hc, -⟩ := execDwconv_eq_next.mp h
    · exact .inl hvec
    · exact .inr (.inl ⟨hdesc, hbatch⟩)
    · exact .inr (.inr hc)
  case dwconvIf =>
    cases hvec : s.plat.hasVec with
    | false => exact ⟨_, execDwconv_eq_next.mpr (.inl ⟨hvec, rfl⟩)⟩
    | true =>
      obtain ⟨hdesc, hbatch⟩ | hc := h.resolve_left (by simp [hvec])
      · exact ⟨_, execDwconv_eq_next.mpr (.inr (.inl ⟨hvec, hdesc, hbatch, rfl⟩))⟩
      · exact ⟨_, execDwconv_eq_next.mpr (.inr (.inr ⟨hvec, hc, rfl⟩))⟩
  case maxpoolOnly =>
    obtain ⟨hwide, -⟩ | ⟨-, hdesc, hbatch, -⟩ | ⟨-, hc, -⟩ := execMaxpool_eq_next.mp h
    · simp [Width.narrow_of_ne_w32 hw] at hwide
    · exact .inl ⟨hdesc, hbatch⟩
    · exact .inr hc
  case maxpoolIf =>
    have hnarrow := Width.narrow_of_ne_w32 hw
    obtain ⟨hdesc, hbatch⟩ | hc := h
    · exact ⟨_, execMaxpool_eq_next.mpr (.inr (.inl ⟨hnarrow, hdesc, hbatch, rfl⟩))⟩
    · exact ⟨_, execMaxpool_eq_next.mpr (.inr (.inr ⟨hnarrow, hc, rfl⟩))⟩

end Sys2Proof.Proofs

/-! PROOF. R151, R154: `FIRINIT`, and what the outputs and the history of `FIRPROC` depend on. An output is a function
of the coefficients and of the samples in its window, so two calls that agree on these agree on it; two blocks of `L`
samples present the same samples as one block of `2L`, the second call's shifted by `L`. -/

namespace Sys2Proof.Machine

open Sys2Proof.Spec

/-! ## `FIRINIT` (R151) -/

theorem firinitMem_pass_writes (f : FirRecord) (k : Nat) :
    WritesIn (⟨f.state + k * f.bytes, f.bytes⟩ : Buffer).Holds (fun m => m.write (f.state + k * f.bytes) f.bytes 0) :=
  WritesIn.write _ fun _ h1 h2 => ⟨h1, h2⟩

/-- Every sample of the state buffer is zero; the store of `PHASE` is outside it. -/
theorem read_firinitMem {f : FirRecord} {d : Nat} (hapart : f.stateBuffer.Apart ⟨d, 32⟩) {k : Nat}
    (hk : k < f.taps - 1 + f.block) (m : Memory) :
    (firinitMem f d m).read (f.state + k * f.bytes) f.bytes = 0 := by
  rw [firinitMem]
  refine (SameBut.read_apart ((phase_writes d 0).bytes _) hapart fun x h1 h2 => element_in hk h1 h2).trans ?_
  refine read_forUp_element (w := fun _ => 0) (fun k _ => firinitMem_pass_writes f k) (fun k _ t _ => ?_) hk
  rw [Memory.read_write_same, Nat.zero_mod]

theorem sameOutside_firinitMem (f : FirRecord) (d : Nat) (s : State) :
    SameOutside s (s.finishMem (firinitMem f d s.mem)) [f.stateBuffer, ⟨d + 0x18, 4⟩] := by
  intro x hx
  simp only [List.mem_cons, List.not_mem_nil, or_false, forall_eq_or_imp, forall_eq] at hx
  exact (firinitMem_writes f d).bytes s.mem x (not_or.mpr hx)

/-! ## What the samples and the outputs depend on (R154) -/

section
variable {m m' : Memory} {f f' : FirRecord} {inp inp' : Nat}

/-- Equal formats name equal element sizes (R35). -/
theorem FirRecord.bytes_congr (h : f'.fmt = f.fmt) : f'.bytes = f.bytes := by rw [bytes, h, bytes]

theorem FirRecord.frac_congr (h : f'.fmt = f.fmt) : f'.frac = f.frac := by rw [frac, h, frac]

/-- Two calls filter the same samples, the one's from sample `off` of the other's on, where they do so in the history
and in the block. -/
theorem firSample_congr {off : Nat} (htaps : f'.taps = f.taps) (hfmt : f'.fmt = f.fmt)
    (hhead : ∀ k, k < f.taps - 1 → m'.readS (f'.state + k * f.bytes) f.bytes = firSample m f inp (off + k))
    (htail : ∀ k, k < f'.block → m'.readS (inp' + k * f.bytes) f.bytes = firSample m f inp (f.taps - 1 + (off + k)))
    {k : Nat} (hk : k < f'.taps - 1 + f'.block) : firSample m' f' inp' k = firSample m f inp (off + k) := by
  obtain h | ⟨j, rfl⟩ := lt_or_ge k (f'.taps - 1) |>.imp_right Nat.exists_eq_add_of_le
  · rw [firSample_head h, FirRecord.bytes_congr hfmt, hhead k (htaps ▸ h)]
  · rw [firSample_tail, FirRecord.bytes_congr hfmt, htail j (by omega), htaps, Nat.add_left_comm]

/-- The accumulation depends on the coefficients and on the samples of its window. -/
theorem firAcc_congr {i i' : Nat} (htaps : f'.taps = f.taps) (hfmt : f'.fmt = f.fmt)
    (hcoef : ∀ j, j < f.taps → m'.readS (f'.coef + j * f.bytes) f.bytes = m.readS (f.coef + j * f.bytes) f.bytes)
    (hwindow : ∀ j, j < f.taps → firSample m' f' inp' (i' * f'.decim + j) = firSample m f inp (i * f.decim + j)) :
    firAcc m' f' inp' i' = firAcc m f inp i := by
  rw [firAcc, firAcc, htaps]
  refine List.foldl_ext _ _ _ fun acc j hj => ?_
  have hj := List.mem_range.mp hj
  rw [FirRecord.bytes_congr hfmt, hcoef j hj, hwindow j hj]

end

/-! ## One call of `FIRPROC` by what it reads and leaves -/

/-- A call of `FIRPROC` on the record `f` that completed, from `s` to `t`. -/
structure FirCall (s t : State) (d inp out : Nat) (f : FirRecord) : Prop where
  contract : FirprocContract s d inp out
  record : firRecord s.mem d = f
  mem : t.mem = firprocMem s.rnd f d inp out s.mem

theorem firCall_of_exec {a b c : Reg} {s t : State} (h : exec (.firproc a b c) s = .next t) :
    FirCall s t (s.low32 a) (s.low32 b) (s.low32 c) (firRecord s.mem (s.low32 a)) := by
  obtain ⟨hc, rfl⟩ := execFirproc_eq_next.mp h
  exact ⟨hc, rfl, s.finishMem_mem _⟩

namespace FirCall

variable {s t s' t' : State} {d inp out d' inp' out' : Nat} {f f' : FirRecord}

theorem readS_output (h : FirCall s t d inp out f) {i : Nat} (hi : i < f.block / f.decim) :
    t.mem.readS (out + i * f.bytes) f.bytes = clip (8 * f.bytes) (rndShr s.rnd (firAcc s.mem f inp i) f.frac) := by
  rw [h.mem, h.contract.readS_output h.record s.rnd hi]

theorem readS_head (h : FirCall s t d inp out f) {k : Nat} (hk : k < f.taps - 1) :
    t.mem.readS (f.state + k * f.bytes) f.bytes = firSample s.mem f inp (f.block + k) := by
  rw [h.mem, h.contract.readS_head h.record s.rnd hk]

/-- The record's `M` divides its `L` (R152). -/
theorem decim_dvd (h : FirCall s t d inp out f) : f.decim ∣ f.block := by
  have hdvd := h.contract.multiple
  rwa [h.record] at hdvd

/-- The two calls filter with the same coefficients, format, decimation and rounding rule, wherever their buffers
stand. -/
structure SameFilter (s s' : State) (f f' : FirRecord) : Prop where
  rnd : s'.rnd = s.rnd
  taps : f'.taps = f.taps
  decim : f'.decim = f.decim
  fmt : f'.fmt = f.fmt
  coef : ∀ j, j < f.taps →
    s'.mem.readS (f'.coef + j * f.bytes) f.bytes = s.mem.readS (f.coef + j * f.bytes) f.bytes

/-- Output `i'` of one call is output `n + i'` of another where the first call's samples are the other's from sample
`n * M` on. -/
theorem readS_output_congr (h : FirCall s t d inp out f) (h' : FirCall s' t' d' inp' out' f')
    (hfilter : SameFilter s s' f f') {n i : Nat} (hi' : i < f'.block / f'.decim) (hi : n + i < f.block / f.decim)
    (hsample : ∀ k, k < f'.taps - 1 + f'.block →
      firSample s'.mem f' inp' k = firSample s.mem f inp (n * f.decim + k)) :
    t'.mem.readS (out' + i * f.bytes) f.bytes = t.mem.readS (out + (n + i) * f.bytes) f.bytes := by
  have hbytes := FirRecord.bytes_congr hfilter.fmt
  have hacc : firAcc s'.mem f' inp' i = firAcc s.mem f inp (n + i) :=
    firAcc_congr hfilter.taps hfilter.fmt hfilter.coef fun j hj => by
      rw [hsample _ (window_lt hi' (hfilter.taps ▸ hj)), Nat.add_mul, hfilter.decim, Nat.add_assoc]
  rw [h.readS_output hi, ← hbytes, h'.readS_output hi', hacc, hfilter.rnd, FirRecord.frac_congr hfilter.fmt]

end FirCall

end Sys2Proof.Machine

namespace Sys2Proof.Proofs

open Sys2Proof.Machine

/-- Settles O41: the loop zeroes the samples, the last store the word `PHASE`. -/
theorem firinitCompletes : Obligations.FirinitCompletes := by
  intro rs1 s d f hc
  have hexec : exec (.firinit rs1) s = .next (s.finishMem (firinitMem f d s.mem)) :=
    execFirinit_eq_next.mpr ⟨hc, rfl⟩
  have hapart : f.stateBuffer.Apart ⟨d, 32⟩ := hc.apart
  clear_value f d
  refine ⟨_, hexec, rfl, fun k hk => ?_, ?_, sameOutside_firinitMem f d s⟩
  · rw [State.finishMem_mem, read_firinitMem hapart hk]
  · rw [State.finishMem_mem, firinitMem, Memory.read_write_same, Nat.zero_mod]

/-- Settles O45: each command's equation has its contract in it. -/
theorem firContractsDecide : Obligations.FirContractsDecide :=
  ⟨fun _ _ => ⟨fun ⟨_, h⟩ => (execFirinit_eq_next.mp h).1, fun hc => ⟨_, execFirinit_eq_next.mpr ⟨hc, rfl⟩⟩⟩,
    fun _ _ _ _ => ⟨fun ⟨_, h⟩ => (execFirproc_eq_next.mp h).1, fun hc => ⟨_, execFirproc_eq_next.mpr ⟨hc, rfl⟩⟩⟩⟩

/-- Settles O43: the two calls filter the same samples. -/
theorem firprocDependsOnItsBuffersOnly : Obligations.FirprocDependsOnItsBuffersOnly := by
  intro a b c a' b' c' s s' t t' f f' h h' hrnd htaps hdecim hblock hfmt hcoef hhist hin
  have hcall : FirCall s t _ _ _ f := firCall_of_exec h
  have hcall' : FirCall s' t' _ _ _ f' := firCall_of_exec h'
  clear_value f f'
  have hfilter : FirCall.SameFilter s s' f f' := ⟨hrnd, htaps, hdecim, hfmt, hcoef⟩
  have hsample : ∀ k, k < f'.taps - 1 + f'.block →
      Spec.firSample s'.mem f' (s'.low32 b') k = Spec.firSample s.mem f (s.low32 b) (0 + k) := fun k =>
    firSample_congr htaps hfmt (fun k hk => by rw [Nat.zero_add, firSample_head hk, hhist k hk])
      (fun k hk => by rw [Nat.zero_add, firSample_tail, hin k (hblock ▸ hk)])
  refine ⟨fun i hi => ?_, fun k hk => ?_⟩
  · have hout := hcall.readS_output_congr hcall' hfilter (n := 0) (i := i) (by rwa [hblock, hdecim])
      (by rwa [Nat.zero_add]) (by rwa [Nat.zero_mul])
    rwa [Nat.zero_add] at hout
  · have hhead := hcall'.readS_head (k := k) (by rwa [htaps])
    rw [hsample _ (by omega), FirRecord.bytes_congr hfmt, hblock, Nat.zero_add] at hhead
    rw [hhead, hcall.readS_head hk]

/-- Settles O44: the first half presents the samples of the whole block from sample 0 on, the second half from sample
`L` on, its history being what the first call left. -/
theorem firStreamingEquivalence : Obligations.FirStreamingEquivalence := by
  intro a1 b1 c1 a2 b2 c2 a3 b3 c3 s1 t1 s2 t2 s3 t3 f1 f2 f3 w h1 h2 h3 hrnd2 hrnd3 htaps2 htaps3 hdecim2 hdecim3
    hfmt2 hfmt3 hblock1 hblock3 hcoef hhist hin
  have hcall1 : FirCall s1 t1 _ _ _ f1 := firCall_of_exec h1
  have hcall2 : FirCall s2 t2 _ _ _ f2 := firCall_of_exec h2
  have hcall3 : FirCall s3 t3 _ _ _ f3 := firCall_of_exec h3
  have hw : w = f1.bytes := rfl
  clear_value f1 f2 f3 w
  subst hw
  have hbytes2 := FirRecord.bytes_congr hfmt2
  have hbytes3 := FirRecord.bytes_congr hfmt3
  have hfilter2 : FirCall.SameFilter s1 s2 f1 f2 := ⟨hrnd2, htaps2, hdecim2, hfmt2, fun j hj => (hcoef j hj).1⟩
  have hfilter3 : FirCall.SameFilter s1 s3 f1 f3 := ⟨hrnd3, htaps3, hdecim3, hfmt3, fun j hj => (hcoef j hj).2⟩
  have hsample2 : ∀ k, k < f2.taps - 1 + f2.block →
      Spec.firSample s2.mem f2 (s2.low32 b2) k = Spec.firSample s1.mem f1 (s1.low32 b1) (0 + k) := fun k =>
    firSample_congr htaps2 hfmt2 (fun k hk => by rw [Nat.zero_add, firSample_head hk, (hhist k hk).1])
      (fun k hk => by rw [Nat.zero_add, firSample_tail, (hin k hk).1])
  have hhist2 : ∀ k, k < f1.taps - 1 →
      t2.mem.readS (f2.state + k * f1.bytes) f1.bytes =
        Spec.firSample s1.mem f1 (s1.low32 b1) (f2.block + k) := fun k hk => by
    rw [← hbytes2, hcall2.readS_head (htaps2 ▸ hk), hsample2 _ (by omega), Nat.zero_add]
  have hsample3 : ∀ k, k < f3.taps - 1 + f3.block →
      Spec.firSample s3.mem f3 (s3.low32 b3) k = Spec.firSample s1.mem f1 (s1.low32 b1) (f2.block + k) := fun k =>
    firSample_congr htaps3 hfmt3 (fun k hk => by rw [(hhist k hk).2, hhist2 k hk])
      (fun k hk => by rw [firSample_tail, (hin k (hblock3 ▸ hk)).2])
  have hhalf : f2.block / f2.decim * f1.decim = f2.block := by
    rw [← hdecim2, Nat.div_mul_cancel hcall2.decim_dvd]
  have houtputs : f1.block / f1.decim = 2 * (f2.block / f2.decim) := by
    rw [hblock1, ← hdecim2, Nat.mul_div_assoc 2 hcall2.decim_dvd]
  refine ⟨fun i hi => ⟨?first, ?second⟩, fun k hk => ?history⟩
  case first =>
    have hout := hcall1.readS_output_congr hcall2 hfilter2 (n := 0) hi (by omega) (by rwa [Nat.zero_mul])
    rwa [Nat.zero_add] at hout
  case second =>
    refine hcall1.readS_output_congr hcall3 hfilter3 ?_ (by omega) (by rwa [hhalf])
    rwa [hblock3, hdecim3, ← hdecim2]
  case history =>
    rw [← hbytes3, hcall3.readS_head (htaps3 ▸ hk), hsample3 _ (by omega), hbytes3, hcall1.readS_head hk, hblock1,
      hblock3, Nat.two_mul, Nat.add_assoc]

end Sys2Proof.Proofs

/-! PROOF. R14, R24 to R32, R44, R252, R261, R262, R280, R282: the step, the host port and the resets. Each transaction
at the head of the queue has one equation for its step; a control register has one for what it reads as and one for
what a write leaves in it. -/

namespace Sys2Proof.Machine

open Sys2Proof.Spec

/-! ## One step by the transaction that waits (R262) -/

theorem step_of_idle {s : State} (h : s.queue = []) : step s = .next s := by rw [step, h]

theorem step_of_queue {s : State} {txn : HostTxn} {q : List HostTxn} (h : s.queue = txn :: q) :
    step s = hostStep txn { s with queue := q } := by
  rw [step, h, State.popped, h, List.tail_cons]

theorem issue_of_decode {w : Word} {i : Instr} (h : decode w = .ok i) (s : State) : issue w s = exec i s := by
  rw [issue, h]

/-- A write of a command word to `CMD` runs the command (R25). -/
theorem step_of_command {s : State} {w : Word} {i : Instr} {q : List HostTxn} (h : s.queue = .writeCsr 0#6 w :: q)
    (hd : decode w = .ok i) : step s = exec i { s with queue := q, reply := .done } := by
  rw [step_of_queue h, hostStep_issue, issue_of_decode hd, State.withReply]

/-- A write of any other word to `CMD` raises `IllegalCommand` (R252). -/
theorem step_of_illegal_word {s : State} {w : Word} {q : List HostTxn} (h : s.queue = .writeCsr 0#6 w :: q)
    (hd : ∀ i, decode w ≠ .ok i) : step s = .next { s with status := .illegalCommand, queue := q, reply := .done } := by
  rw [step_of_queue h, hostStep_issue, illegal_of_not_exists_decode fun ⟨i, hi⟩ => hd i hi, State.withReply]

theorem step_of_writeReg {s : State} {i : Reg} {v : XWord} {q : List HostTxn} (h : s.queue = .writeReg i v :: q) :
    step s = .next { s.setX i v with queue := q, reply := .done } := step_of_queue h

theorem step_of_readReg {s : State} {i : Reg} {q : List HostTxn} (h : s.queue = .readReg i :: q) :
    step s = .next { s with queue := q, reply := .reg (s.getX i) } := step_of_queue h

theorem step_of_readCsr {s : State} {n : BitVec 6} {q : List HostTxn} (h : s.queue = .readCsr n :: q) :
    step s = .next { s with queue := q, reply := .csr (s.readCsr n) } := step_of_queue h

theorem step_of_writeCsr {s : State} {n : BitVec 6} {v : Word} {q : List HostTxn} (hn : n ≠ 0#6)
    (h : s.queue = .writeCsr n v :: q) : step s = .next { s.writeCsr n v with queue := q, reply := .done } := by
  rw [step_of_queue h, hostStep_writeCsr hn, State.writeCsr, State.writeCsr]
  split_ifs <;> rfl

theorem step_of_memWrite {s : State} {a : Word} {n v : Nat} {q : List HostTxn} (h : s.queue = .memWrite a n v :: q)
    (hbytes : ∀ b, (⟨a.toNat, n⟩ : Buffer).Holds b → s.Exists b) :
    step s = .next { s with mem := s.mem.write a.toNat n v, queue := q, reply := .done } := by
  rw [step_of_queue h]
  exact unlessStop_eq_next.mpr ⟨(State.existStop_eq_none _ _).mpr hbytes, rfl⟩

theorem step_of_memRead {s : State} {a : Word} {n : Nat} {q : List HostTxn} (h : s.queue = .memRead a n :: q)
    (hbytes : ∀ b, (⟨a.toNat, n⟩ : Buffer).Holds b → s.Exists b) :
    step s = .next { s with queue := q, reply := .mem (s.mem.read a.toNat n) } := by
  rw [step_of_queue h]
  exact unlessStop_eq_next.mpr ⟨(State.existStop_eq_none _ _).mpr hbytes, rfl⟩

/-! ## What a control register reads as (R24, R26, R29 to R32) -/

section
variable (s : State)

theorem readCsr_status : (s.readCsr 1#6).toNat = s.status.code.toNat := by
  rw [State.readCsr, if_pos rfl, State.statusWord, toNat_append_eq, BitVec.toNat_zero, Nat.zero_mul, Nat.zero_add]

theorem readCsr_ctrl : (s.readCsr 2#6).toNat = if s.rnd = .halfEven then 1 else 0 := by
  change s.ctrlWord.toNat = _
  cases h : s.rnd <;> simp [State.ctrlWord, h, Rounding.bit]

theorem readCsr_cap : (s.readCsr 3#6).toNat = 256 * s.plat.magLanes.toNat + if s.plat.hasVec then 1 else 0 := by
  change s.capWord.toNat = _
  simp only [State.capWord, toNat_append_eq, BitVec.toNat_zero, BitVec.toNat_ofBool]
  cases s.plat.hasVec <;> simp <;> omega

theorem readCsr_atanCoef {k : BitVec 6} {i : Fin 10} (hk : k.toNat = 8 + i) :
    (s.readCsr k).toNat = (s.atanCoef[i]).toNat := by
  have hfixed {n : BitVec 6} (hn : n.toNat < 8) : k ≠ n := fun h => by rw [h] at hk; omega
  have hrange : 8 ≤ k.toNat ∧ k.toNat ≤ 17 := by omega
  rw [State.readCsr, if_neg (hfixed (by decide)), if_neg (hfixed (by decide)), if_neg (hfixed (by decide)),
    if_neg (hfixed (by decide)), if_pos hrange, BitVec.toNat_setWidth_of_le (by decide)]
  simp [hk, Vector.getD]

/-- `CMD` and the reserved numbers read as 0. -/
theorem readCsr_reserved {k : BitVec 6} (hk : k = 0#6 ∨ (5 ≤ k.toNat ∧ k.toNat ≤ 7) ∨ 18 ≤ k.toNat) :
    s.readCsr k = 0#32 := by
  have hfixed {n : BitVec 6} (hn : 1 ≤ n.toNat ∧ n.toNat ≤ 4) : k ≠ n := by
    rintro rfl
    obtain rfl | hk := hk
    · exact absurd hn.1 (by decide)
    · omega
  have hrange : ¬ (8 ≤ k.toNat ∧ k.toNat ≤ 17) := by
    obtain rfl | hk := hk
    · decide
    · omega
  rw [State.readCsr, if_neg (hfixed (by decide)), if_neg (hfixed (by decide)), if_neg (hfixed (by decide)),
    if_neg (hfixed (by decide)), if_neg hrange]

/-! ## What a write leaves in the writable ones -/

variable (n : BitVec 6) (v : Word)

/-- `CTRL` reads as bit 0 of what was written (R29). -/
theorem readCsr_writeCsr_ctrl : (s.writeCsr 2#6 v).readCsr 2#6 = v &&& 1#32 := by
  apply BitVec.eq_of_toNat_eq
  rw [readCsr_ctrl, State.writeCsr, if_pos rfl, BitVec.toNat_and, BitVec.toNat_ofNat]
  have hbit : v.extractLsb' 0 1 = 1#1 ↔ v.toNat % 2 = 1 := by
    rw [← BitVec.toNat_inj, BitVec.extractLsb'_toNat]; simp
  simp only [Rounding.ofBit, hbit]
  obtain h | h := Nat.mod_two_eq_zero_or_one v.toNat <;> simp [h]

theorem rnd_writeCsr_of_ne (h : n ≠ 2#6) : (s.writeCsr n v).rnd = s.rnd := by
  rw [State.writeCsr, if_neg h]
  split_ifs <;> rfl

theorem isqrtMagic_writeCsr : (s.writeCsr n v).isqrtMagic = if n = 4#6 then v else s.isqrtMagic := by
  by_cases h : n = 4#6
  · subst h; rfl
  · rw [State.writeCsr, if_neg h, if_neg h]
    split_ifs <;> rfl

theorem atanCoef_writeCsr (i : Fin 10) :
    ((s.writeCsr n v).atanCoef[i]) = if n.toNat = 8 + i then v.setWidth 16 else s.atanCoef[i] := by
  by_cases hi : n.toNat = 8 + i
  · have hfixed {w : BitVec 6} (hw : w.toNat < 8) : n ≠ w := fun h => by rw [h] at hi; omega
    have hrange : 8 ≤ n.toNat ∧ n.toNat ≤ 17 := by omega
    rw [if_pos hi, State.writeCsr, if_neg (hfixed (by decide)), if_neg (hfixed (by decide)), if_pos hrange]
    simp [hi]
  · rw [if_neg hi, State.writeCsr]
    split_ifs with h2 h4 hrange
    · rfl
    · rfl
    · have hne : n.toNat - 8 ≠ i := by omega
      simp [hne]
    · rfl

end

/-! ## The host register map (R261) -/

theorem byteOf_toNat {n : Nat} (v : BitVec n) (k : Nat) : byteOf v.toNat k = v.extractLsb' (8 * k) 8 := by
  apply BitVec.eq_of_toNat_eq
  rw [byteOf, BitVec.toNat_ofNat, BitVec.extractLsb'_toNat, Nat.shiftRight_eq_div_pow, Nat.pow_mul]

theorem mapEntry_register (i : Reg) {k : Nat} (hk : k < 8) : mapEntry (8 * i.toNat + k) = some (.xByte i k) := by
  have hi := i.isLt
  have hreg : (8 * i.toNat + k) / 8 = i.toNat := by omega
  have hbyte : (8 * i.toNat + k) % 8 = k := by omega
  rw [mapEntry, if_pos (by omega), hreg, hbyte, BitVec.ofNat_toNat, BitVec.setWidth_eq]

theorem mapEntry_reserved {k : Nat} (hge : 0x80 ≤ k) (hlt : k < 0x100) : mapEntry k = some .reserved := by
  rw [mapEntry, if_neg (by omega), if_pos hlt]

theorem mapEntry_control (n : BitVec 6) {k : Nat} (hk : k < 4) :
    mapEntry (0x100 + 4 * n.toNat + k) = some (.csrByte n k) := by
  have hn := n.isLt
  have hreg : (0x100 + 4 * n.toNat + k - 0x100) / 4 = n.toNat := by omega
  have hbyte : (0x100 + 4 * n.toNat + k) % 4 = k := by omega
  rw [mapEntry, if_neg (by omega), if_neg (by omega), if_pos (by omega), hreg, hbyte, BitVec.ofNat_toNat,
    BitVec.setWidth_eq]

theorem mapEntry_past {k : Nat} (h : 512 ≤ k) : mapEntry k = none := by
  rw [mapEntry, if_neg (by omega), if_neg (by omega), if_neg (by omega)]

/-! ## What `FIRPROC` needs of the state (R282) -/

/-- The contract of `FIRPROC` is about memory and the parameters only. -/
theorem FirprocContract.congr {s s' : State} {d inp out : Nat} (hmem : s'.mem = s.mem) (hplat : s'.plat = s.plat)
    (h : FirprocContract s d inp out) : FirprocContract s' d inp out := by
  rw [← firprocStop_eq_none] at h ⊢
  simpa only [firprocStop, State.bufferStop, State.existStop, hmem, hplat] using h

/-- `FIRPROC` leaves the same memory from states that agree on the registers, memory, the parameters and `CTRL.RND`. -/
theorem exec_firproc_congr {a b c : Reg} {s s' t : State} (hx : s'.x = s.x) (hmem : s'.mem = s.mem)
    (hplat : s'.plat = s.plat) (hrnd : s'.rnd = s.rnd) (h : exec (.firproc a b c) s = .next t) :
    ∃ t', exec (.firproc a b c) s' = .next t' ∧ t'.mem = t.mem := by
  have hlow (i : Reg) : s'.low32 i = s.low32 i := by rw [State.low32, State.getX_congr hx, State.low32]
  obtain ⟨hc, rfl⟩ := execFirproc_eq_next.mp h
  refine ⟨_, execFirproc_eq_next.mpr ⟨?_, rfl⟩, ?_⟩
  · rw [hlow, hlow, hlow]
    exact hc.congr hmem hplat
  · rw [State.finishMem_mem, State.finishMem_mem, hlow, hlow, hlow, hmem, hrnd]

end Sys2Proof.Machine

namespace Sys2Proof.Proofs

open Sys2Proof.Machine

/-- Settles O6: the step performs the write of `CMD`, which issues the word. -/
theorem stepRunsDecodedCommand : Obligations.StepRunsDecodedCommand := fun _ _ _ _ => step_of_command

/-- Settles O7: the step of an illegal word, then the step of a command. -/
theorem illegalWordChangesOnlyStatus : Obligations.IllegalWordChangesOnlyStatus := fun _ _ _ h hd =>
  ⟨step_of_illegal_word h hd, fun _ _ _ hq hi => step_of_command hq hi⟩

/-- Settles O8: with an empty queue there is nothing to perform. -/
theorem idleStepChangesNothing : Obligations.IdleStepChangesNothing := fun _ => step_of_idle

/-- Settles O9: what a register reads as after a write to the same and to another register. -/
theorem hostRegisterReadBack : Obligations.HostRegisterReadBack := by
  intro s i j v q h
  refine ⟨_, step_of_writeReg h, rfl, ?_⟩
  rw [step_of_readReg rfl]
  have hread : (s.setX i v).getX j = if j = i then v else s.getX j := by
    split
    next heq => rw [heq, State.getX_setX_same]
    next hne => exact s.getX_setX_ne v hne
  rw [← hread]
  rfl

/-- Settles O10: the reads are those of the state the write left, register by register. -/
theorem controlRegisterReadBack : Obligations.ControlRegisterReadBack := by
  intro s n k v q hn h
  obtain ⟨hx, hstatus, hmem, hplat, -, -⟩ := s.writeCsr_frame n v
  refine ⟨_, step_of_writeCsr hn h, hx, hstatus, hmem, hplat, _, step_of_readCsr rfl, ?_⟩
  refine ⟨?status, ?ctrlWritten, ?ctrlKept, ?cap, ?magic, fun i hk => ?coef, readCsr_reserved (s.writeCsr n v)⟩
  case status => rintro rfl; exact hstatus ▸ readCsr_status (s.writeCsr n v)
  case ctrlWritten => rintro rfl rfl; exact readCsr_writeCsr_ctrl s v
  case ctrlKept => rintro rfl hne; exact rnd_writeCsr_of_ne s n v hne ▸ readCsr_ctrl (s.writeCsr n v)
  case cap => rintro rfl; exact hplat ▸ readCsr_cap (s.writeCsr n v)
  case magic => rintro rfl; exact isqrtMagic_writeCsr s n v
  case coef =>
    have hread := readCsr_atanCoef (s.writeCsr n v) hk
    have hsame : n.toNat = 8 + i.val ↔ n = k := by rw [← hk, BitVec.toNat_inj]
    rw [atanCoef_writeCsr, apply_ite BitVec.toNat, BitVec.toNat_setWidth] at hread
    simp only [hsame] at hread
    exact hread

/-- Settles O11: what a store leaves, and what it reads back as. -/
theorem hostMemoryReadBack : Obligations.HostMemoryReadBack := by
  intro s a n v q hbytes h
  refine ⟨_, step_of_memWrite h hbytes, rfl, fun x hx => ?_, ?_⟩
  · have hout := hx _ List.mem_cons_self
    refine Memory.readByte_write_outside ?_
    simp only [Buffer.Holds] at hout
    omega
  · refine (step_of_memRead rfl ?_).trans ?_
    · exact hbytes
    · rw [Memory.read_write_same]

/-- Settles O12: a clause for each kind of entry of the map. -/
theorem hostMapReadsRegisters : Obligations.HostMapReadsRegisters := by
  intro s k
  refine ⟨fun i hk => ?_, fun hge hlt => ?_, fun n hk => ?_, fun h => ?_⟩
  · simp only [State.mapByte, mapEntry_register i hk, byteOf_toNat]
  · simp only [State.mapByte, mapEntry_reserved hge hlt]
  · simp only [State.mapByte, mapEntry_control n hk, byteOf_toNat]
  · simp only [State.mapByte, mapEntry_past h]

/-- Settles O13: the words of the registers that power-on leaves. -/
theorem powerOnState : Obligations.PowerOnState :=
  ⟨fun p => ⟨BitVec.eq_of_toNat_eq (readCsr_status _), BitVec.eq_of_toNat_eq (readCsr_ctrl _),
    readCsr_cap (State.powerOn p), step_of_idle rfl⟩, rfl⟩

/-- Settles O14: a reset leaves memory and the parameters; the host restores all else that `FIRPROC` reads. -/
theorem platformResetKeepsMemory : Obligations.PlatformResetKeepsMemory := fun s _ h =>
  ⟨_, step_of_queue h, rfl, rfl, rfl, rfl, fun _ _ _ _ hu => exec_firproc_congr (s := s) rfl rfl rfl rfl hu⟩

/-- Settles O15: the empty memory has the canonical form. -/
theorem invariantHoldsAtReset : Obligations.InvariantHoldsAtReset := by
  have hpowerOn (p : Platform) (hp : p.legal) : Inv (State.powerOn p) := ⟨Memory.wf_nil, by simp, hp⟩
  exact ⟨hpowerOn, hpowerOn _ (by unfold Platform.legal; decide)⟩

/-- Settles O22: every end of a command writes `STATUS`, and nothing before it reads it. -/
theorem statusIsNeverRead : Obligations.StatusIsNeverRead := by
  intro i s c
  cases i <;> rfl

end Sys2Proof.Proofs

/-! PROOF. R13: each stop of a broken contract by name. A check that fails names its stop, and it is the stop of the
step when the checks before it find nothing. -/

namespace Sys2Proof.Machine

/-! ## The stop of a list of checks -/

@[simp] theorem unlessStop_fault (f : Fault) (k : Result) : unlessStop (some (.fault f)) k = .fault f := rfl

@[simp] theorem unlessStop_refuse (r : Refusal) (k : Result) : unlessStop (some (.refuse r)) k = .refused r := rfl

theorem firstStop_of_none {c : Option Stop} (h : c = none) (cs : List (Option Stop)) :
    firstStop (c :: cs) = firstStop cs := by
  rw [h, firstStop]

theorem firstStop_of_some {c : Option Stop} {stop : Stop} (h : c = some stop) (cs : List (Option Stop)) :
    firstStop (c :: cs) = some stop := by
  rw [h, firstStop]

/-- Two checks in a row that end in the same refusal are one check of both. -/
theorem firstStop_require_require (p q : Bool) (r : Refusal) (cs : List (Option Stop)) :
    firstStop (require p r :: require q r :: cs) = firstStop (require (p && q) r :: cs) := by
  cases p <;> rfl

theorem require_of_not {ok : Bool} (h : ¬ ok = true) (r : Refusal) : require ok r = some (.refuse r) := by
  rw [require, if_neg h]

/-! ## The check of a buffer (R61, R63, R65, R73) -/

section
variable {s : State} {b : Buffer}

theorem bufferStop_of_misaligned {align : Nat} (hsize : b.size ≠ 0) (h : b.base % align ≠ 0) :
    s.bufferStop align b = some (.refuse .misalignedAccess) := by
  rw [State.bufferStop, if_neg hsize, if_pos h]

/-- Bytes need no alignment. -/
theorem bufferStop_one (s : State) (b : Buffer) : s.bufferStop 1 b = s.existStop b := by
  rw [State.bufferStop, State.existStop, Nat.mod_one, if_neg (not_not.mpr rfl)]
  split <;> rfl

theorem existStop_of_overflow (hsize : b.size ≠ 0) (h : Config.spaceBytes < b.base + b.size) :
    s.existStop b = some (.fault .addressOverflow) := by
  rw [State.existStop, if_neg hsize, if_pos h]

theorem existStop_of_uncovered (h : b.base + b.size ≤ Config.spaceBytes) {a : Nat} (ha : b.Holds a)
    (hout : ∀ r ∈ s.plat.regions, ¬ r.contains a) : s.existStop b = some (.fault .bufferOutOfRange) := by
  have hsize : b.size ≠ 0 := fun h0 => absurd ha.2 (by have := ha.1; omega)
  have huncovered : ¬ covered s.plat.regions b.base (b.base + b.size) = true := fun hc => by
    obtain ⟨r, hr, hin⟩ := (covered_iff _ _ _).mp hc a ha.1 ha.2
    exact hout r hr hin
  rw [State.existStop, if_neg hsize, if_neg (not_lt.mpr h), if_neg huncovered]

theorem overlapStop_of_shared {b c : Buffer} {a : Nat} (hb : b.Holds a) (hc : c.Holds a) :
    overlapStop b [c] = some (.refuse .overlappingBuffers) := by
  refine require_of_not (fun h => ?_) _
  rw [List.all_cons, List.all_nil, Bool.and_true, Buffer.disjoint_iff] at h
  exact h a hb hc

end

/-! ## The commands that raise them -/

section
variable {rs1 rs2 rs3 : Reg} {s : State}

theorem exec_relu_of_stop {w : Width} (hw : w.narrow = true) {stop : Stop}
    (h : s.bufferStop (bytesOf w) ⟨s.low32 rs1, s.low32 rs2 * bytesOf w⟩ = some stop) :
    exec (.relu rs1 rs2 w) s = unlessStop (some stop) (.next s) := by
  rw [exec, execRelu, if_pos hw, h]
  cases stop with
  | fault => rw [unlessStop_fault, unlessStop_fault]
  | refuse => rw [unlessStop_refuse, unlessStop_refuse]

theorem exec_unpack4_of_overlap {a : Nat} (hsrc : s.Usable 1 ⟨s.low32 rs1, (s.low32 rs3 + 1) / 2⟩)
    (hdst : s.Usable 1 ⟨s.low32 rs2, s.low32 rs3⟩) (ha : Buffer.Holds ⟨s.low32 rs1, (s.low32 rs3 + 1) / 2⟩ a)
    (ha' : Buffer.Holds ⟨s.low32 rs2, s.low32 rs3⟩ a) :
    exec (.unpack4 rs1 rs2 rs3) s = .refused .overlappingBuffers := by
  rw [exec, execUnpack4, packedBuffer, bytesBuffer, packStop, firstStop_of_none ((s.bufferStop_eq_none _ _).mpr hsrc),
    firstStop_of_none ((s.bufferStop_eq_none _ _).mpr hdst), firstStop_of_some (overlapStop_of_shared ha ha'),
    unlessStop_refuse]

theorem FirRecord.fmtOk_iff (f : FirRecord) : f.fmtOk = true ↔ f.FmtLegal := decide_eq_true_iff

/-- The checks of `FIRINIT` on the fields of its record, after the words of the record exist (R151). -/
theorem exec_firinit_of_fields (hhead : s.Usable 4 ⟨s.low32 rs1 + 0x04, 8⟩)
    (hrest : s.Usable 4 ⟨s.low32 rs1 + 0x10, 12⟩)
    (h : ¬ (1 ≤ (firRecord s.mem (s.low32 rs1)).taps ∧ 1 ≤ (firRecord s.mem (s.low32 rs1)).block ∧
      (firRecord s.mem (s.low32 rs1)).FmtLegal)) :
    exec (.firinit rs1) s = .refused .firContract := by
  rw [exec, execFirinit, firinitStop, firstStop_of_none ((s.bufferStop_eq_none _ _).mpr hhead),
    firstStop_of_none ((s.bufferStop_eq_none _ _).mpr hrest), firstStop_require_require, firstStop_require_require,
    firstStop_of_some, unlessStop_refuse]
  refine require_of_not (fun hok => h ?_) _
  simpa only [FirRecord.fmtOk_iff, Bool.and_eq_true, decide_eq_true_eq, and_assoc] using hok

/-- The checks of `FIRPROC` on the fields of its record (R152). -/
theorem exec_firproc_of_fields (hrecord : s.Usable 4 ⟨s.low32 rs1, 32⟩)
    (h : ¬ (1 ≤ (firRecord s.mem (s.low32 rs1)).taps ∧ 1 ≤ (firRecord s.mem (s.low32 rs1)).decim ∧
      1 ≤ (firRecord s.mem (s.low32 rs1)).block ∧
      (firRecord s.mem (s.low32 rs1)).decim ∣ (firRecord s.mem (s.low32 rs1)).block ∧
      (firRecord s.mem (s.low32 rs1)).FmtLegal)) :
    exec (.firproc rs1 rs2 rs3) s = .refused .firContract := by
  rw [exec, execFirproc, firprocStop, firstStop_of_none ((s.bufferStop_eq_none _ _).mpr hrecord),
    firstStop_require_require, firstStop_require_require, firstStop_require_require, firstStop_require_require,
    firstStop_of_some, unlessStop_refuse]
  refine require_of_not (fun hok => h ?_) _
  simpa only [FirRecord.fmtOk_iff, Bool.and_eq_true, decide_eq_true_eq, and_assoc, Nat.dvd_iff_mod_eq_zero] using hok

/-- `DWCONV` past its two checks of R206 is its contract's checks. -/
theorem exec_dwconv_of_stop {q : DwDesc} (hq : dwDesc s.mem (s.low32 rs1) = q) (hvec : s.plat.hasVec = true)
    (hdesc : s.Usable 4 ⟨s.low32 rs1, 88⟩) (hbatch : 0 < q.batch) {r : Refusal}
    (h : dwconvStop s (s.low32 rs1) q = some (.refuse r)) : exec (.dwconv rs1) s = .refused r := by
  have hread : s.bufferStop 4 (dwDescBuffer (s.low32 rs1)) = none := (s.bufferStop_eq_none _ _).mpr hdesc
  rw [exec, execDwconv, if_pos hvec, hread, unlessStop_none, hq, if_neg (not_le.mpr hbatch), h, unlessStop_refuse]

/-- `MAXPOOL` past its check of R213 is its contract's checks. -/
theorem exec_maxpool_of_stop {w : Width} {q : PoolDesc} (hq : poolDesc s.mem (s.low32 rs1) = q) (hw : w.narrow = true)
    (hdesc : s.Usable 4 ⟨s.low32 rs1, 64⟩) (hbatch : 0 < q.batch) {r : Refusal}
    (h : maxpoolStop s (s.low32 rs1) (bytesOf w) q = some (.refuse r)) : exec (.maxpool rs1 w) s = .refused r := by
  have hread : s.bufferStop 4 (poolDescBuffer (s.low32 rs1)) = none := (s.bufferStop_eq_none _ _).mpr hdesc
  rw [exec, execMaxpool, if_pos hw, hread, unlessStop_none, hq, if_neg (not_le.mpr hbatch), h, unlessStop_refuse]

end

/-! ## The first two checks of the tensor kernels' contracts (R201, R205, R212) -/

section
variable {s : State} {d : Nat}

theorem DwDesc.fieldsOk_iff (q : DwDesc) : q.fieldsOk = true ↔ q.FieldsLegal := decide_eq_true_iff

theorem PoolDesc.fieldsOk_iff (q : PoolDesc) : q.fieldsOk = true ↔ q.FieldsLegal := decide_eq_true_iff

theorem not_decide_le_of_lt {lo hi : Int} (h : hi < lo) : ¬ decide (lo ≤ hi) = true := by simpa using h

theorem dwconvStop_of_fields {q : DwDesc} (h : ¬ q.FieldsLegal) : dwconvStop s d q = some (.refuse .dwconvContract) :=
  firstStop_of_some (require_of_not (mt q.fieldsOk_iff.mp h) _) _

theorem dwconvStop_of_bounds {q : DwDesc} (h : q.FieldsLegal) (hbounds : q.actMax < q.actMin) :
    dwconvStop s d q = some (.refuse .activationBounds) := by
  rw [dwconvStop, firstStop_of_none ((require_eq_none _ _).mpr (q.fieldsOk_iff.mpr h))]
  exact firstStop_of_some (require_of_not (not_decide_le_of_lt hbounds) _) _

theorem maxpoolStop_of_fields {e : Nat} {q : PoolDesc} (h : ¬ q.FieldsLegal) :
    maxpoolStop s d e q = some (.refuse .maxpoolContract) :=
  firstStop_of_some (require_of_not (mt q.fieldsOk_iff.mp h) _) _

theorem maxpoolStop_of_bounds {e : Nat} {q : PoolDesc} (h : q.FieldsLegal) (hbounds : q.actMax < q.actMin) :
    maxpoolStop s d e q = some (.refuse .activationBounds) := by
  rw [maxpoolStop, firstStop_of_none ((require_eq_none _ _).mpr (q.fieldsOk_iff.mpr h))]
  exact firstStop_of_some (require_of_not (not_decide_le_of_lt hbounds) _) _

end

end Sys2Proof.Machine

namespace Sys2Proof.Proofs

open Sys2Proof.Machine

/-- Settles O59: a clause for each stop, by the first check that fails. -/
theorem stopsByName : Obligations.StopsByName := by
  refine ⟨?misaligned, ?overflow, ?outOfRange, ?overlap, ?firinit, ?firproc, ?dwconv, ?maxpool⟩
  case misaligned =>
    intro rs1 rs2 s hn hodd
    have hstop : s.bufferStop (bytesOf .w16) ⟨s.low32 rs1, s.low32 rs2 * bytesOf .w16⟩ =
        some (.refuse .misalignedAccess) :=
      bufferStop_of_misaligned (Nat.mul_ne_zero hn (by decide)) (hodd.trans_ne one_ne_zero)
    exact exec_relu_of_stop rfl hstop
  case overflow =>
    intro rs1 rs2 s hn hover
    have hstop : s.bufferStop (bytesOf .w8) ⟨s.low32 rs1, s.low32 rs2 * bytesOf .w8⟩ =
        some (.fault .addressOverflow) := by
      rw [bytesOf, bufferStop_one, Nat.mul_one]
      exact existStop_of_overflow hn hover
    exact exec_relu_of_stop rfl hstop
  case outOfRange =>
    intro rs1 rs2 s a hfit hge hlt hout
    have hstop : s.bufferStop (bytesOf .w8) ⟨s.low32 rs1, s.low32 rs2 * bytesOf .w8⟩ =
        some (.fault .bufferOutOfRange) := by
      rw [bytesOf, bufferStop_one, Nat.mul_one]
      exact existStop_of_uncovered hfit ⟨hge, hlt⟩ hout
    exact exec_relu_of_stop rfl hstop
  case overlap =>
    intro rs1 rs2 rs3 s a hsrc hdst h1 h2 h3 h4
    exact exec_unpack4_of_overlap hsrc hdst ⟨h1, h2⟩ ⟨h3, h4⟩
  case firinit =>
    intro rs1 s f hhead hrest h
    refine exec_firinit_of_fields hhead hrest fun ⟨htaps, hblock, hfmt⟩ => ?_
    obtain h | h | h := h
    · exact absurd htaps (by rw [h]; decide)
    · exact absurd hblock (by rw [h]; decide)
    · exact h hfmt
  case firproc =>
    intro rs1 rs2 rs3 s f hrecord h
    refine exec_firproc_of_fields hrecord fun ⟨htaps, hdecim, hblock, hdvd, hfmt⟩ => ?_
    obtain h | h | h | h | h := h
    · exact absurd htaps (by rw [h]; decide)
    · exact absurd hdecim (by rw [h]; decide)
    · exact absurd hblock (by rw [h]; decide)
    · exact h hdvd
    · exact h hfmt
  case dwconv =>
    intro rs1 s q hvec hdesc hbatch
    exact ⟨fun h => exec_dwconv_of_stop rfl hvec hdesc hbatch (dwconvStop_of_fields h),
      fun h hbounds => exec_dwconv_of_stop rfl hvec hdesc hbatch (dwconvStop_of_bounds h hbounds)⟩
  case maxpool =>
    intro rs1 w s q hw hdesc hbatch
    have hnarrow := Width.narrow_of_ne_w32 hw
    exact ⟨fun h => exec_maxpool_of_stop rfl hnarrow hdesc hbatch (maxpoolStop_of_fields h),
      fun h hbounds => exec_maxpool_of_stop rfl hnarrow hdesc hbatch (maxpoolStop_of_bounds h hbounds)⟩

end Sys2Proof.Proofs

/-! PROOF. R178: the default binary32 numerics. A pattern without its sign is `k * 2^23 + m`, with `m` below `2^24` and
`2^23` or more unless `k` is 0, and its value is `m * 2^k` units. Rounding takes the greatest `k` that leaves the
value a significand of 24 bits and rounds to a multiple of `2^k`: nearest among these by R10, and nearer than every
value of a smaller `k`, since the multiple `2^23 * 2^k` lies between them and the rounded value. -/

namespace Sys2Proof.Machine

open Sys2Proof.Spec

/-! ## Rounding half to even is to a nearest integer -/

theorem nearest_of_roundsTo_halfEven {v q : Int} {s : Nat} (h : RoundsTo .halfEven v s q) (q' : Int) :
    |q * 2 ^ s - v| ≤ |q' * 2 ^ s - v| ∧ (|q * 2 ^ s - v| = |q' * 2 ^ s - v| → q' ≠ q → q % 2 = 0) := by
  obtain ⟨⟨hge, hle⟩, htie⟩ := (roundsTo_halfEven_iff v s q).mp h
  have hpos : (0 : Int) < 2 ^ s := by positivity
  have heven : 2 * (v - q * 2 ^ s) = 2 ^ s ∨ 2 * (v - q * 2 ^ s) = -2 ^ s → q % 2 = 0 := fun ht => by
    cases s with
    | zero => omega
    | succ s => exact htie ht s.succ_pos
  obtain hlt | rfl | hgt := lt_trichotomy q' q
  · have hstep : (q' + 1) * 2 ^ s ≤ q * 2 ^ s := mul_le_mul_of_nonneg_right hlt hpos.le
    have hother : |q' * 2 ^ s - v| = v - q' * 2 ^ s := by rw [abs_sub_comm, abs_of_nonneg (by linarith)]
    rw [hother]
    obtain ⟨habs, -⟩ | ⟨habs, -⟩ := abs_cases (q * 2 ^ s - v)
    · exact ⟨by linarith, fun heq _ => heven (by right; linarith)⟩
    · exact ⟨by linarith, fun heq _ => absurd heq (by linarith)⟩
  · exact ⟨le_rfl, fun _ hne => absurd rfl hne⟩
  · have hstep : (q + 1) * 2 ^ s ≤ q' * 2 ^ s := mul_le_mul_of_nonneg_right hgt hpos.le
    have hother : |q' * 2 ^ s - v| = q' * 2 ^ s - v := abs_of_nonneg (by linarith)
    rw [hother]
    obtain ⟨habs, -⟩ | ⟨habs, -⟩ := abs_cases (q * 2 ^ s - v)
    · exact ⟨by linarith, fun heq _ => absurd heq (by linarith)⟩
    · exact ⟨by linarith, fun heq _ => heven (by left; linarith)⟩

/-! ## Patterns without their sign, and their values (R43) -/

/-- The value of a pattern without its sign, in units of the least positive value. -/
def unitsOf (p : Nat) : Nat :=
  if p / 2 ^ 23 = 0 then p % 2 ^ 23 else (2 ^ 23 + p % 2 ^ 23) * 2 ^ (p / 2 ^ 23 - 1)

theorem f32Units_eq (a : Word) : f32Units a = unitsOf (a.toNat % 2 ^ 31) := rfl

/-- The pattern of a significand `m` with the exponent `k`; a carry into `2^24` is the next exponent. -/
theorem unitsOf_significand {m k : Nat} (hm : m ≤ 2 ^ 24) (hk : k = 0 ∨ 2 ^ 23 ≤ m) :
    unitsOf (k * 2 ^ 23 + m) = m * 2 ^ k := by
  obtain hsmall | hlarge := lt_or_ge m (2 ^ 23)
  · obtain rfl : k = 0 := by omega
    have hexp : (0 * 2 ^ 23 + m) / 2 ^ 23 = 0 := by omega
    have hfrac : (0 * 2 ^ 23 + m) % 2 ^ 23 = m := by omega
    rw [unitsOf, if_pos hexp, hfrac, pow_zero, mul_one]
  obtain hlt | rfl := hm.lt_or_eq
  · have hexp : (k * 2 ^ 23 + m) / 2 ^ 23 = k + 1 := by omega
    have hfrac : 2 ^ 23 + (k * 2 ^ 23 + m) % 2 ^ 23 = m := by omega
    rw [unitsOf, hexp, if_neg k.succ_ne_zero, hfrac, Nat.add_sub_cancel]
  · have hexp : (k * 2 ^ 23 + 2 ^ 24) / 2 ^ 23 = k + 2 := by omega
    have hfrac : 2 ^ 23 + (k * 2 ^ 23 + 2 ^ 24) % 2 ^ 23 = 2 ^ 23 := by omega
    rw [unitsOf, hexp, if_neg (Nat.succ_ne_zero _), hfrac, show k + 2 - 1 = k + 1 from rfl, pow_succ]
    ring

/-- Every pattern is one of a significand below `2^24`. -/
theorem exists_significand (p : Nat) : ∃ m k, m < 2 ^ 24 ∧ unitsOf p = m * 2 ^ k := by
  obtain hlt | hge := lt_or_ge p (2 ^ 24)
  · refine ⟨p, 0, hlt, ?_⟩
    have h := unitsOf_significand hlt.le (Or.inl rfl)
    rwa [Nat.zero_mul, Nat.zero_add] at h
  · refine ⟨2 ^ 23 + p % 2 ^ 23, p / 2 ^ 23 - 1, by omega, ?_⟩
    rw [unitsOf, if_neg (by omega)]

/-! ## The rounded significand -/

section
variable (v e : Nat)

/-- How many low bits of `v` the result's significand has no room for. -/
def f32Shift : Nat := max (v.log2 - 23) e

/-- The rounded significand. -/
def f32Significand : Nat := (rndShr .halfEven v (f32Shift v e)).toNat

/-- The pattern that rounding packs, before the cut at infinity. -/
def f32Pattern : Nat := (f32Shift v e - e) * 2 ^ 23 + f32Significand v e

theorem f32Round_eq : f32Round v e = min f32Infinity (f32Pattern v e) := rfl

theorem le_f32Shift : e ≤ f32Shift v e := le_max_right _ _

theorem f32Significand_roundsTo : RoundsTo .halfEven v (f32Shift v e) (f32Significand v e) := by
  have hnonneg := (rndShr_mem_range (r := .halfEven) (f32Shift v e) le_rfl (Int.natCast_nonneg v)
    (Int.natCast_nonneg v) le_rfl).1
  rw [roundsTo_iff, f32Significand, Int.toNat_of_nonneg hnonneg]

/-- The rounded significand is within one half of the quotient. -/
theorem f32Significand_near :
    2 * f32Significand v e * 2 ^ f32Shift v e ≤ 2 * v + 2 ^ f32Shift v e ∧
      2 * v ≤ (2 * f32Significand v e + 1) * 2 ^ f32Shift v e := by
  obtain ⟨⟨hge, hle⟩, -⟩ := (roundsTo_halfEven_iff _ _ _).mp (f32Significand_roundsTo v e)
  constructor
  · zify; linarith
  · zify; linarith

theorem lt_two_pow_f32Shift : v < 2 ^ 24 * 2 ^ f32Shift v e := by
  rw [← pow_add]
  refine Nat.lt_log2_self.trans_le (Nat.pow_le_pow_right two_pos ?_)
  have := le_max_left (v.log2 - 23) e
  rw [f32Shift]
  omega

variable {v e}

/-- More bits than the unit's are shifted out only of a value that fills the significand. -/
theorem two_pow_f32Shift_le (h : e < f32Shift v e) : 2 ^ 23 * 2 ^ f32Shift v e ≤ v := by
  have hshift : f32Shift v e = v.log2 - 23 := by rw [f32Shift] at h ⊢; omega
  have hlog : 23 + f32Shift v e = v.log2 := by omega
  rw [← pow_add, hlog]
  exact Nat.log2_self_le (fun h0 => by rw [h0, Nat.log2_zero] at hlog; omega)

variable (v e) in
theorem f32Significand_le : f32Significand v e ≤ 2 ^ 24 := by
  obtain ⟨hnear, -⟩ := f32Significand_near v e
  have hlt := lt_two_pow_f32Shift v e
  by_contra! hgt
  have hstep : (2 ^ 24 + 1) * 2 ^ f32Shift v e ≤ f32Significand v e * 2 ^ f32Shift v e := Nat.mul_le_mul_right _ hgt
  linarith

theorem le_f32Significand (h : e < f32Shift v e) : 2 ^ 23 ≤ f32Significand v e := by
  obtain ⟨-, hnear⟩ := f32Significand_near v e
  have hle := two_pow_f32Shift_le h
  have hscaled : 2 ^ 24 * 2 ^ f32Shift v e ≤ (2 * f32Significand v e + 1) * 2 ^ f32Shift v e := by linarith
  have := Nat.le_of_mul_le_mul_right hscaled (Nat.two_pow_pos _)
  omega

variable (v e)

/-- The pattern's value is the rounded significand at its place. -/
theorem unitsOf_f32Pattern : unitsOf (f32Pattern v e) * 2 ^ e = f32Significand v e * 2 ^ f32Shift v e := by
  have hshift := le_f32Shift v e
  have hfull : f32Shift v e - e = 0 ∨ 2 ^ 23 ≤ f32Significand v e := by
    obtain heq | hlt := hshift.eq_or_lt
    · left; omega
    · exact .inr (le_f32Significand hlt)
  rw [f32Pattern, unitsOf_significand (f32Significand_le v e) hfull, mul_assoc, ← pow_add, Nat.sub_add_cancel hshift]

/-- No pattern's value is nearer, and another one is as near only at a tie, where the significand is even. -/
theorem f32Pattern_nearest (c : Nat) :
    |(unitsOf (f32Pattern v e) * 2 ^ e - v : Int)| ≤ |(unitsOf c * 2 ^ e - v : Int)| ∧
      (|(unitsOf (f32Pattern v e) * 2 ^ e - v : Int)| = |(unitsOf c * 2 ^ e - v : Int)| →
        unitsOf c ≠ unitsOf (f32Pattern v e) → f32Significand v e % 2 = 0) := by
  have hnearest := nearest_of_roundsTo_halfEven (f32Significand_roundsTo v e)
  have hunits : (unitsOf (f32Pattern v e) * 2 ^ e : Int) = f32Significand v e * 2 ^ f32Shift v e := by
    exact_mod_cast unitsOf_f32Pattern v e
  obtain ⟨m, k, hm, hc⟩ := exists_significand c
  obtain hmultiple | hfiner := le_or_gt (f32Shift v e) (k + e)
  · have hvalue : unitsOf c * 2 ^ e = m * 2 ^ (k + e - f32Shift v e) * 2 ^ f32Shift v e := by
      rw [hc, mul_assoc, ← pow_add, mul_assoc, ← pow_add, Nat.sub_add_cancel hmultiple]
    have hvalue' : (unitsOf c * 2 ^ e : Int) = (m * 2 ^ (k + e - f32Shift v e) : Nat) * 2 ^ f32Shift v e := by
      exact_mod_cast hvalue
    obtain ⟨hle, htie⟩ := hnearest (m * 2 ^ (k + e - f32Shift v e) : Nat)
    rw [hunits, hvalue']
    refine ⟨hle, fun heq hne => ?_⟩
    have heven := htie heq fun hsame => hne ?_
    · exact_mod_cast heven
    · rw [hsame, ← hunits] at hvalue'
      exact_mod_cast mul_right_cancel₀ (pow_ne_zero e two_ne_zero) hvalue'
  · have hbelow : unitsOf c * 2 ^ e < 2 ^ 23 * 2 ^ f32Shift v e := by
      calc unitsOf c * 2 ^ e = m * 2 ^ (k + e) := by rw [hc, mul_assoc, ← pow_add]
        _ < 2 ^ 24 * 2 ^ (k + e) := Nat.mul_lt_mul_of_pos_right hm (Nat.two_pow_pos _)
        _ = 2 ^ 23 * 2 ^ (k + e + 1) := by ring
        _ ≤ 2 ^ 23 * 2 ^ f32Shift v e := Nat.mul_le_mul_left _ (Nat.pow_le_pow_right two_pos hfiner)
    have hbetween := two_pow_f32Shift_le (v := v) (e := e) (by omega)
    zify at hbelow hbetween
    obtain ⟨hle, -⟩ := hnearest (2 ^ 23)
    have hnear : |(2 ^ 23 * 2 ^ f32Shift v e - v : Int)| = v - 2 ^ 23 * 2 ^ f32Shift v e := by
      rw [abs_sub_comm, abs_of_nonneg (by linarith)]
    have hfar : |(unitsOf c * 2 ^ e - v : Int)| = v - unitsOf c * 2 ^ e := by
      rw [abs_sub_comm, abs_of_nonneg (by linarith)]
    rw [hunits, hfar]
    rw [hnear] at hle
    exact ⟨by linarith, fun heq => absurd heq (by linarith)⟩

/-! ## Overflow -/

variable {v e}

/-- Below half-way past the largest finite value the pattern is finite. -/
theorem f32Pattern_lt (h : v < (2 ^ 25 - 1) * 2 ^ (252 + e)) : f32Pattern v e < f32Infinity := by
  have hshift : f32Shift v e ≤ 253 + e := by
    by_contra! hgt
    have hpow : 2 ^ (253 + e + 1) ≤ 2 ^ f32Shift v e := Nat.pow_le_pow_right two_pos hgt
    have hle := two_pow_f32Shift_le (v := v) (e := e) (by omega)
    have hexpand : 2 ^ (253 + e + 1) = 4 * 2 ^ (252 + e) := by ring
    omega
  have hm := f32Significand_le v e
  rw [f32Pattern, f32Infinity]
  obtain hlt | heq := hshift.lt_or_eq
  · omega
  · obtain ⟨hnear, -⟩ := f32Significand_near v e
    have hexpand : 2 ^ f32Shift v e = 2 * 2 ^ (252 + e) := by rw [heq]; ring
    rw [hexpand] at hnear
    have hbound : v + 2 ^ (252 + e) < 2 ^ 25 * 2 ^ (252 + e) := by omega
    have hscaled : f32Significand v e * 2 ^ (252 + e) < 2 ^ 24 * 2 ^ (252 + e) := by linarith
    have := Nat.lt_of_mul_lt_mul_right hscaled
    omega

/-- From there on it is cut to infinity: half-way itself is a tie between an odd significand and the next. -/
theorem le_f32Pattern (h : (2 ^ 25 - 1) * 2 ^ (252 + e) ≤ v) : f32Infinity ≤ f32Pattern v e := by
  have hpos := Nat.two_pow_pos (252 + e)
  have hshift : 253 + e ≤ f32Shift v e := by
    by_contra! hlt
    have hpow : 2 ^ f32Shift v e ≤ 2 ^ (252 + e) := Nat.pow_le_pow_right two_pos (by omega)
    have := lt_two_pow_f32Shift v e
    omega
  have hm := le_f32Significand (v := v) (e := e) (by omega)
  rw [f32Pattern, f32Infinity]
  obtain hgt | heq := hshift.lt_or_eq
  · omega
  suffices hcarry : 2 ^ 24 ≤ f32Significand v e by omega
  obtain ⟨-, hnear⟩ := f32Significand_near v e
  obtain ⟨-, htie⟩ := (roundsTo_halfEven_iff _ _ _).mp (f32Significand_roundsTo v e)
  have hexpand : 2 ^ f32Shift v e = 2 * 2 ^ (252 + e) := by rw [← heq]; ring
  rw [hexpand] at hnear
  have hscaled : (2 ^ 25 - 1) * 2 ^ (252 + e) ≤ (2 * f32Significand v e + 1) * 2 ^ (252 + e) := by linarith
  have hodd := Nat.le_of_mul_le_mul_right hscaled hpos
  by_contra! hlt
  have hsig : f32Significand v e = 2 ^ 24 - 1 := by omega
  rw [hsig] at hnear htie
  have hhalf : 2 * ((v : Int) - (2 ^ 24 - 1 : Nat) * 2 ^ f32Shift v e) = 2 ^ f32Shift v e := by
    have hexpand' : (2 ^ f32Shift v e : Int) = 2 * 2 ^ (252 + e) := by exact_mod_cast hexpand
    zify at h hnear
    rw [hexpand']
    push_cast at *
    linarith
  exact absurd (htie (.inl hhalf) (by omega)) (by decide)

end

end Sys2Proof.Machine

/-! PROOF. R178: the three operations and the sign test of the default numerics, from the rounding of a magnitude: a
sign does not change a distance between values of that sign and makes no value of the other sign nearer. -/

namespace Sys2Proof.Machine

open Sys2Proof.Spec

/-! ## Signs and patterns (R43) -/

/-- The factor of a sign. -/
def signOf (neg : Bool) : Int := if neg then -1 else 1

theorem signOf_mul (a b : Bool) : signOf a * signOf b = signOf (a != b) := by cases a <;> cases b <;> rfl

theorem abs_signOf_mul (neg : Bool) (x : Int) : |signOf neg * x| = |x| := by cases neg <;> simp [signOf]

/-- A distance between two signed values. -/
theorem abs_signOf_sub (neg neg' : Bool) (x y : Int) :
    |signOf neg' * x - signOf neg * y| = if neg' = neg then |x - y| else |x + y| := by
  obtain rfl | hne := eq_or_ne neg' neg
  · rw [if_pos rfl, ← mul_sub, abs_signOf_mul]
  · obtain rfl : neg' = !neg := Bool.eq_not.mpr hne
    have hsign : signOf (!neg) = -signOf neg := by cases neg <;> rfl
    rw [if_neg hne, hsign, ← abs_signOf_mul neg (x + y), ← abs_neg]
    congr 1
    ring

theorem value_eq (a : Word) : value a = signOf (negative a) * unitsOf (a.toNat % 2 ^ 31) := by
  have hexp : a.toNat / 2 ^ 23 % 256 = a.toNat % 2 ^ 31 / 2 ^ 23 := by omega
  have hfrac : a.toNat % 2 ^ 23 = a.toNat % 2 ^ 31 % 2 ^ 23 := by omega
  simp only [value, signOf, unitsOf, ← hexp, ← hfrac]

theorem f32Sign_eq (a : Word) : f32Sign a = negative a := rfl

theorem f32Value_eq_value (a : Word) : f32Value a = value a := by
  rw [value_eq, f32Value, f32Units_eq, f32Sign_eq]
  cases negative a <;> simp [signOf]

section
variable (neg : Bool) {p : Nat} (hp : p < 2 ^ 31)
include hp

theorem toNat_f32Pack : (f32Pack neg p).toNat = (if neg then 2 ^ 31 else 0) + p := by
  rw [f32Pack, Nat.mod_eq_of_lt hp, BitVec.toNat_ofNat, Nat.mod_eq_of_lt (by split <;> omega)]

theorem toNat_f32Pack_mod : (f32Pack neg p).toNat % 2 ^ 31 = p := by
  rw [toNat_f32Pack neg hp]
  split <;> omega

theorem negative_f32Pack : negative (f32Pack neg p) = neg := by
  have htop : negative (f32Pack neg p) = decide (2 ^ 31 ≤ (f32Pack neg p).toNat) :=
    (BitVec.msb_eq_getLsbD_last _).symm.trans (BitVec.msb_eq_decide _)
  rw [htop, toNat_f32Pack neg hp]
  cases neg with
  | false => simpa using hp
  | true => simp

theorem value_f32Pack : value (f32Pack neg p) = signOf neg * unitsOf p := by
  rw [value_eq, negative_f32Pack neg hp, toNat_f32Pack_mod neg hp]

theorem getLsbD_zero_f32Pack : (f32Pack neg p).getLsbD 0 = decide (p % 2 = 1) := by
  have hbit : (f32Pack neg p).toNat % 2 = p % 2 := by
    rw [toNat_f32Pack neg hp]
    split <;> omega
  rw [BitVec.getLsbD, Nat.testBit_zero, hbit]

end

/-! ## The kinds of patterns -/

theorem f32IsNaN_iff (a : Word) : f32IsNaN a = true ↔ NaN a := decide_eq_true_iff

theorem f32IsInf_iff (a : Word) : f32IsInf a = true ↔ Spec.Infinite a := decide_eq_true_iff

section
variable {a : Word}

theorem not_nan_of_finite (h : Spec.Finite a) : ¬ NaN a := lt_asymm h

theorem not_infinite_of_finite (h : Spec.Finite a) : ¬ Spec.Infinite a := h.ne

theorem not_nan_of_infinite (h : Spec.Infinite a) : ¬ NaN a := h.le.not_gt

theorem magnitude_ne_zero_of_infinite (h : Spec.Infinite a) : f32Magnitude a ≠ 0 := h.trans_ne (by decide)

end

theorem nan_f32NaN (op : F32Op) (a b : Word) : NaN (f32NaN op a b) := by
  have hfrac := (Config.nanFraction op a b).isLt
  rw [NaN, f32NaN, toNat_f32Pack_mod _ (by rw [f32Infinity]; omega), f32Infinity]
  omega

/-! ## A rounded value is the nearest (R178) -/

section
variable (neg : Bool) (v e : Nat)

/-- Among all signed values none is nearer than the rounded one. -/
theorem f32Pattern_nearest_signed (c : Word) :
    |signOf neg * unitsOf (f32Pattern v e) * 2 ^ e - signOf neg * v| ≤ |value c * 2 ^ e - signOf neg * v| ∧
      (|signOf neg * unitsOf (f32Pattern v e) * 2 ^ e - signOf neg * v| = |value c * 2 ^ e - signOf neg * v| →
        value c ≠ signOf neg * unitsOf (f32Pattern v e) → f32Significand v e % 2 = 0) := by
  rw [value_eq, mul_assoc, mul_assoc, abs_signOf_sub, if_pos rfl, abs_signOf_sub]
  generalize negative c = neg'
  generalize c.toNat % 2 ^ 31 = c
  obtain ⟨hle, htie⟩ := f32Pattern_nearest v e c
  split
  next hsame =>
    rw [hsame]
    exact ⟨hle, fun heq hne => htie heq fun h => hne (by rw [h])⟩
  next hother =>
    obtain ⟨hzero, -⟩ := f32Pattern_nearest v e 0
    have hunits : (0 : Int) ≤ unitsOf c * 2 ^ e := by positivity
    rw [show unitsOf 0 = 0 from rfl, Nat.cast_zero, zero_mul, zero_sub, abs_neg, Nat.abs_cast] at hzero
    rw [abs_of_nonneg (add_nonneg hunits (Int.natCast_nonneg v))]
    refine ⟨by linarith, fun heq hne => ?_⟩
    have hc : (unitsOf c * 2 ^ e : Int) = 0 := by linarith
    have hc0 : unitsOf c = 0 := by
      have := (mul_eq_zero.mp hc).resolve_right (by positivity)
      exact_mod_cast this
    rw [hc, zero_add] at heq
    rw [hc, zero_sub, abs_neg, Nat.abs_cast] at htie
    refine htie heq fun h => hne ?_
    rw [hc0] at h
    rw [hc0, ← h, Nat.cast_zero, mul_zero, mul_zero]

/-- The packed rounding of a magnitude is the nearest value, ties to even, with overflow from half-way on. -/
theorem nearest_f32Pack : Nearest (signOf neg * v) e (f32Pack neg (f32Round v e)) := by
  have habs : |signOf neg * (v : Int)| = v := by rw [abs_signOf_mul, Nat.abs_cast]
  rw [Nearest, habs, f32Round_eq]
  refine ⟨fun h => ?_, fun h => ?_⟩
  · have hlt := f32Pattern_lt (v := v) (e := e) (by zify; exact h)
    have hfits : f32Pattern v e < 2 ^ 31 := hlt.trans (by decide)
    rw [min_eq_right hlt.le, Spec.Finite, toNat_f32Pack_mod neg hfits, value_f32Pack neg hfits,
      getLsbD_zero_f32Pack neg hfits]
    refine ⟨hlt, fun c _ => ?_⟩
    obtain ⟨hle, htie⟩ := f32Pattern_nearest_signed neg v e c
    refine ⟨hle, fun heq hne => decide_eq_false ?_⟩
    have heven := htie heq hne
    rw [f32Pattern]
    omega
  · have hge := le_f32Pattern (v := v) (e := e) (by zify; exact h)
    rw [min_eq_left hge, Spec.Infinite, toNat_f32Pack_mod neg (by decide), f32Infinity]

theorem f32Round_lt : f32Round v e < 2 ^ 31 := (min_le_left _ _).trans_lt (by decide)

end

/-! ## The sum -/

section
variable {a b nan : Word}

theorem f32Sum_of_finite (ha : Spec.Finite a) (hb : Spec.Finite b) :
    f32Sum nan a b =
      if value a + value b = 0 then f32Pack (negative a && negative b) 0
      else f32Pack (decide (value a + value b < 0)) (f32Round (value a + value b).natAbs 0) := by
  simp [f32Sum, f32IsNaN_iff, f32IsInf_iff, not_nan_of_finite, not_infinite_of_finite, ha, hb, f32Value_eq_value,
    f32Sign_eq]

/-- A number is its magnitude with its sign. -/
theorem eq_signOf_mul_natAbs (x : Int) : x = signOf (decide (x < 0)) * x.natAbs := by
  obtain h | h := lt_or_ge x 0
  · simp [signOf, h, abs_of_neg]
  · simp [signOf, h.not_gt, abs_of_nonneg h]

theorem nearest_f32Sum (ha : Spec.Finite a) (hb : Spec.Finite b) : Nearest (value a + value b) 0 (f32Sum nan a b) := by
  rw [f32Sum_of_finite ha hb]
  split
  next hzero =>
    have h := nearest_f32Pack (negative a && negative b) 0 0
    rwa [Nat.cast_zero, mul_zero, ← hzero] at h
  next hne =>
    have h := nearest_f32Pack (decide (value a + value b < 0)) (value a + value b).natAbs 0
    rwa [← eq_signOf_mul_natAbs] at h

theorem negative_f32Sum (ha : Spec.Finite a) (hb : Spec.Finite b) (h : value a + value b ≠ 0) :
    negative (f32Sum nan a b) = decide (value a + value b < 0) := by
  rw [f32Sum_of_finite ha hb, if_neg h, negative_f32Pack _ (f32Round_lt _ _)]

theorem f32Sum_of_zero (ha : Spec.Finite a) (hb : Spec.Finite b) (h : value a + value b = 0) :
    f32Sum nan a b = if negative a && negative b then 0x80000000#32 else 0x00000000#32 := by
  rw [f32Sum_of_finite ha hb, if_pos h]
  cases negative a && negative b <;> rfl

theorem f32Sum_of_infinite_left (ha : Spec.Infinite a) (hb : Spec.Finite b ∨ b = a) : f32Sum nan a b = a := by
  obtain hb | rfl := hb
  · simp [f32Sum, f32IsNaN_iff, f32IsInf_iff, not_nan_of_infinite, not_nan_of_finite, not_infinite_of_finite, ha, hb]
  · simp [f32Sum, f32IsNaN_iff, f32IsInf_iff, not_nan_of_infinite, ha]

theorem f32Sum_of_infinite_right (hb : Spec.Infinite b) (ha : Spec.Finite a) : f32Sum nan a b = b := by
  simp [f32Sum, f32IsNaN_iff, f32IsInf_iff, not_nan_of_infinite, not_nan_of_finite, not_infinite_of_finite, ha, hb]

theorem f32Sum_of_nan (h : NaN a ∨ NaN b ∨ (Spec.Infinite a ∧ Spec.Infinite b ∧ negative a ≠ negative b)) :
    f32Sum nan a b = nan := by
  obtain ha | hb | ⟨ha, hb, hsign⟩ := h
  · simp [f32Sum, f32IsNaN_iff, ha]
  · simp [f32Sum, f32IsNaN_iff, hb]
  · simp [f32Sum, f32IsNaN_iff, f32IsInf_iff, not_nan_of_infinite, ha, hb, f32Sign_eq, hsign]

theorem isSum_f32Sum (hnan : NaN nan) (a b : Word) : IsSum a b (f32Sum nan a b) :=
  ⟨fun ha hb => ⟨nearest_f32Sum ha hb, negative_f32Sum ha hb, f32Sum_of_zero ha hb⟩, f32Sum_of_infinite_left,
    f32Sum_of_infinite_right, fun h => by rwa [f32Sum_of_nan h]⟩

end

/-! ## The difference: the second operand's sign flipped -/

theorem toNat_f32Neg_mod (a : Word) : (f32Neg a).toNat % 2 ^ 31 = a.toNat % 2 ^ 31 := by
  rw [f32Neg, BitVec.toNat_xor, Nat.xor_mod_two_pow]
  exact Nat.xor_zero _

theorem negative_f32Neg (a : Word) : negative (f32Neg a) = !negative a := by
  simp [negative, f32Neg]

theorem value_f32Neg (a : Word) : value (f32Neg a) = -value a := by
  rw [value_eq, toNat_f32Neg_mod, negative_f32Neg, value_eq, ← neg_mul]
  cases negative a <;> rfl

theorem finite_f32Neg {a : Word} (h : Spec.Finite a) : Spec.Finite (f32Neg a) := by
  rwa [Spec.Finite, toNat_f32Neg_mod]

/-! ## The product -/

section
variable {a b : Word}

theorem ieeeMul_of_finite (ha : Spec.Finite a) (hb : Spec.Finite b) :
    ieeeMul a b = f32Pack (negative a != negative b) (f32Round (f32Units a * f32Units b) 149) := by
  simp [ieeeMul, f32IsNaN_iff, f32IsInf_iff, not_nan_of_finite, not_infinite_of_finite, ha, hb, f32Sign_eq]

theorem nearest_ieeeMul (ha : Spec.Finite a) (hb : Spec.Finite b) : Nearest (value a * value b) 149 (ieeeMul a b) := by
  have hvalue : value a * value b = signOf (negative a != negative b) * (f32Units a * f32Units b : Nat) := by
    rw [value_eq, value_eq, mul_mul_mul_comm, signOf_mul, Nat.cast_mul, f32Units_eq, f32Units_eq]
  rw [ieeeMul_of_finite ha hb, hvalue]
  exact nearest_f32Pack _ _ _

theorem ieeeMul_of_infinite
    (h : (Spec.Infinite a ∧ ¬ NaN b ∧ f32Magnitude b ≠ 0) ∨ (Spec.Infinite b ∧ ¬ NaN a ∧ f32Magnitude a ≠ 0)) :
    ieeeMul a b = f32Pack (negative a != negative b) f32Infinity := by
  obtain ⟨ha, hb, hb0⟩ | ⟨hb, ha, ha0⟩ := h
  · have ha0 := magnitude_ne_zero_of_infinite ha
    simp [ieeeMul, f32IsNaN_iff, f32IsInf_iff, not_nan_of_infinite, ha, hb, ha0, hb0, f32Sign_eq]
  · have hb0 := magnitude_ne_zero_of_infinite hb
    simp [ieeeMul, f32IsNaN_iff, f32IsInf_iff, not_nan_of_infinite, ha, hb, ha0, hb0, f32Sign_eq]

theorem ieeeMul_of_nan (h : NaN a ∨ NaN b ∨ (Spec.Infinite a ∧ f32Magnitude b = 0) ∨
    (Spec.Infinite b ∧ f32Magnitude a = 0)) : ieeeMul a b = f32NaN .mul a b := by
  obtain ha | hb | ⟨ha, hb⟩ | ⟨hb, ha⟩ := h
  · simp [ieeeMul, f32IsNaN_iff, ha]
  · simp [ieeeMul, f32IsNaN_iff, hb]
  · simp [ieeeMul, f32IsInf_iff, ha, hb]
  · simp [ieeeMul, f32IsInf_iff, ha, hb]

end

/-! ## The sign test -/

theorem unitsOf_pos {p : Nat} (h : p ≠ 0) : 0 < unitsOf p := by
  rw [unitsOf]
  split
  next hexp => omega
  next => positivity

/-- A finite value is below zero exactly when it has the sign and is no zero. -/
theorem value_neg_iff (a : Word) : value a < 0 ↔ negative a = true ∧ f32Magnitude a ≠ 0 := by
  rw [value_eq, f32Magnitude]
  generalize a.toNat % 2 ^ 31 = p
  obtain rfl | hne := eq_or_ne p 0
  · simp [unitsOf]
  · have hpos := unitsOf_pos hne
    cases negative a with
    | false => simp [signOf]
    | true => simp [signOf, hne, hpos]

theorem ieeeLt0_eq_true (a : Word) : ieeeLt0 a = true ↔ (negative a = true ∧ ¬ NaN a) ∧ f32Magnitude a ≠ 0 := by
  simp only [ieeeLt0, Bool.and_eq_true, Bool.not_eq_true', ← Bool.not_eq_true, f32IsNaN_iff, decide_eq_true_eq,
    f32Sign_eq]

end Sys2Proof.Machine

namespace Sys2Proof.Proofs

open Sys2Proof.Machine

/-- Settles O40: the sum with a NaN of its own. -/
theorem defaultAddRoundsToNearestEven : Obligations.DefaultAddRoundsToNearestEven := fun a b =>
  isSum_f32Sum (nan_f32NaN .add a b) a b

/-- Settles O39: by the kinds of the two operands. -/
theorem defaultMulRoundsToNearestEven : Obligations.DefaultMulRoundsToNearestEven := by
  intro a b
  refine ⟨fun ha hb => ⟨nearest_ieeeMul ha hb, ?_⟩, fun h => ?_, fun h => ?_⟩
  · rw [ieeeMul_of_finite ha hb, negative_f32Pack _ (f32Round_lt _ _)]
  · rw [ieeeMul_of_infinite h]
    exact ⟨toNat_f32Pack_mod _ (by decide), negative_f32Pack _ (by decide)⟩
  · rw [ieeeMul_of_nan h]
    exact nan_f32NaN .mul a b

/-- Settles O60: the difference is a sum, and the sign test by the kind of the operand. -/
theorem defaultSubAndSign : Obligations.DefaultSubAndSign := by
  refine ⟨fun a b => ⟨isSum_f32Sum (nan_f32NaN .sub a b) a (f32Neg b), fun ha hb => ?_⟩,
    fun a => ⟨fun ha => ?_, fun ha => ?_, fun ha => ?_⟩⟩
  · rw [sub_eq_add_neg, ← value_f32Neg]
    exact nearest_f32Sum ha (finite_f32Neg hb)
  · rw [ieeeLt0_eq_true, value_neg_iff, and_iff_left (not_nan_of_finite ha)]
  · rw [Bool.eq_iff_iff, ieeeLt0_eq_true, and_iff_left (magnitude_ne_zero_of_infinite ha),
      and_iff_left (not_nan_of_infinite ha)]
  · rw [← Bool.not_eq_true, ieeeLt0_eq_true]
    exact fun h => h.1.2 ha

end Sys2Proof.Proofs
